-- ==== Sys2Proof/Word.lean ====
section
/-! DEFINITION. The word types of the machine: bytes, 64-bit words, register numbers. -/

namespace Sys2Proof

/-- One byte: the smallest addressable unit (R50). -/
abbrev Byte := BitVec 8

/-- A 64-bit quantity: a general register, an address, a binary64 pattern (R8, R20, R120). -/
abbrev Word := BitVec 64

/-- The number of a general register, 0 to 15 (R20). -/
abbrev GprNum := BitVec 4

/-- The number of a vector register, 0 to 31 (R26). -/
abbrev VregNum := BitVec 5

/-- The number of an opmask register, 0 to 7 (R29). -/
abbrev KregNum := BitVec 3

end Sys2Proof
end

