-- ==== Sys2Proof/Config.lean ====
section
/-! DEFINITION. What an implementation fixes (R7) and the free values the spec leaves open.
`EVEX_B_MEM_UD` and `MASKED_OFF_MEM_FAULTS` of R7 are fixed true there; they stand as code
(`EvexOperands.broadcastLegal`, `execEvex`), not as parameters. -/

namespace Sys2Proof.Config

/-- The width of a vector register: 128, 256 or 512 bits (R7, D2). -/
inductive MaxVL
  | v128 | v256 | v512
  deriving DecidableEq, Repr

/-- The width in bits. -/
def MaxVL.bits : MaxVL → Nat
  | .v128 => 128
  | .v256 => 256
  | .v512 => 512

/-- The width of an opmask register: 16 or 64 bits (R7, D3). -/
inductive OpmaskWidth
  | k16 | k64
  deriving DecidableEq, Repr

/-- The width in bits. -/
def OpmaskWidth.bits : OpmaskWidth → Nat
  | .k16 => 16
  | .k64 => 64

/-- The number of implemented linear-address bits: 48 or 57 (R7, D8). -/
inductive VaBits
  | va48 | va57
  deriving DecidableEq, Repr

/-- The width in bits. -/
def VaBits.bits : VaBits → Nat
  | .va48 => 48
  | .va57 => 57

/-- The implementation parameters of R7. State holds one; no instruction writes it. -/
structure Params where
  /-- CPUID feature flag FMA, needed by the VEX forms (R2). -/
  hasFMA : Bool
  /-- CPUID feature flag AVX512F, needed by the EVEX forms (R2). -/
  hasAVX512F : Bool
  maxvl : MaxVL
  kl : OpmaskWidth
  vaBits : VaBits
  deriving DecidableEq, Repr

/-- NVREG of R7: 32 registers with AVX512F, else 16. -/
def Params.nvreg (p : Params) : Nat := if p.hasAVX512F then 32 else 16

/-- R7: MAXVL is 512 whenever AVX512F is present. -/
def Params.legal (p : Params) : Bool := !p.hasAVX512F || p.maxvl == .v512

/-- The size of a page for the question "do the 8 bytes span two pages" (R55).
PRESUMED 4096, the smallest page of the family (log 12; safe: a larger page only has fewer splits). -/
def pageSize : Nat := 4096

/-- What RDX holds after reset: "a processor signature" (R38), whose value no source gives (log 4). -/
opaque processorSignature : Word

/-- Free value `TrapPEWithOU` (R147, D14, U3): is PE flagged with an unmasked OE or UE? (log 15) -/
opaque drawTrapPE : Nat → Bool

/-- Free value (R211, U11): is #AC reported, not #PF, when both apply? (log 13) -/
opaque drawAcOverPf : Nat → Bool

/-- Free value (R55, R211, U11): when both pages of an operand fault, is the higher one reported? (log 14) -/
opaque drawHighPage : Nat → Bool

/-- Free value (R210, U15): is #UD reported, not #GP(0), for an over-long instruction that is also
illegal or disabled? (log 16) -/
opaque drawUdOverGp : Nat → Bool

end Sys2Proof.Config
end

