-- ==== Sys2Proof/Syntax.lean ====
section
/-! DEFINITION. The instructions: one constructor for each row of spec/opcode_table.json (R107), with
their operands as R70 to R105 lay them out. Bits the encoding ignores (VEX.L, EVEX.L'L with b = 0, an X or
B that no register number uses: R74, R77, R90, R97) are not kept (log 25). -/

namespace Sys2Proof

/-- A byte that may stand before the VEX or EVEX bytes (R79, R84, R108 step 1). -/
inductive LegacyPrefix
  | es | cs | ss | ds | fs | gs
  /-- 67H, the address-size override. -/
  | addrSize
  /-- 66H, which makes the instruction #UD (R84), as do the next three. -/
  | opSize
  | repne | rep | lock
  /-- 40H to 4FH. -/
  | rex (wrxb : BitVec 4)
  deriving DecidableEq, Repr

/-- A rounding mode (R31, R94, R122). -/
inductive RoundingMode
  /-- to nearest, ties to even -/
  | rn
  /-- toward minus infinity -/
  | rd
  /-- toward plus infinity -/
  | ru
  /-- toward zero -/
  | rz
  deriving DecidableEq, Repr

/-- The displacement that follows ModRM or SIB (R96): none, 8 bits as encoded (unscaled), or 32 bits. -/
inductive Disp
  | none
  | d8 (d : BitVec 8)
  | d32 (d : BitVec 32)
  deriving DecidableEq, Repr

/-- Bytes of a displacement (R105). -/
def Disp.bytes : Disp → Nat
  | .none => 0
  | .d8 _ => 1
  | .d32 _ => 4

/-- A memory operand's addressing form (R97, R99). Register numbers carry their extension bit. -/
inductive MemAddr
  /-- mod = 00b, r/m = 101b: RIP-relative (R98). -/
  | ripRel (disp : BitVec 32)
  /-- A base register and no SIB byte. -/
  | base (base : GprNum) (disp : Disp)
  /-- SIB with a base register; `index` = 4 means no index (R99). -/
  | sib (base index : GprNum) (scale : BitVec 2) (disp : Disp)
  /-- SIB with SIB.base = 101b and mod = 00b: no base register (R99). -/
  | sibNoBase (index : GprNum) (scale : BitVec 2) (disp : BitVec 32)
  deriving DecidableEq, Repr

/-- Bytes after ModRM: SIB and displacement (R105). -/
def MemAddr.tailBytes : MemAddr → Nat
  | .ripRel _ => 4
  | .base _ d => d.bytes
  | .sib _ _ _ d => 1 + d.bytes
  | .sibNoBase _ _ _ => 5

/-- Operand 3 of a VEX form: a register or 8 bytes of memory (R90, R96). -/
inductive VexSrc3
  | reg (n : BitVec 4)
  | mem (a : MemAddr)
  deriving DecidableEq, Repr

/-- The operands of a VEX form (R72, R88 to R90). -/
structure VexOperands where
  pfx : List LegacyPrefix
  dst : BitVec 4
  src2 : BitVec 4
  src3 : VexSrc3
  deriving DecidableEq, Repr

/-- Operand 3 of an EVEX form. A register may carry embedded rounding (b = 1, R94); a memory operand
carries the bit b, which must be 0 (R109 item 5). -/
inductive EvexSrc3
  | reg (n : VregNum) (er : Option RoundingMode)
  | mem (a : MemAddr) (b : Bool)
  deriving DecidableEq, Repr

/-- The operands of an EVEX form (R76, R88 to R90, R95): `mask` is the field aaa, `zeroing` the bit z. -/
structure EvexOperands where
  pfx : List LegacyPrefix
  dst : VregNum
  src2 : VregNum
  mask : KregNum
  zeroing : Bool
  src3 : EvexSrc3
  deriving DecidableEq, Repr

/-- The six encodings of R107, rows 1 to 6. -/
inductive Instr
  | vfnmadd132sdVex (o : VexOperands)
  | vfnmadd213sdVex (o : VexOperands)
  | vfnmadd231sdVex (o : VexOperands)
  | vfnmadd132sdEvex (o : EvexOperands)
  | vfnmadd213sdEvex (o : EvexOperands)
  | vfnmadd231sdEvex (o : EvexOperands)
  deriving DecidableEq, Repr

/-- Which of the three operand orders: the high nibble of the opcode byte (R107). -/
inductive FmaOrder
  | o132 | o213 | o231
  deriving DecidableEq, Repr

/-- The VEX instruction of an order. -/
def FmaOrder.vex : FmaOrder → VexOperands → Instr
  | .o132, o => .vfnmadd132sdVex o
  | .o213, o => .vfnmadd213sdVex o
  | .o231, o => .vfnmadd231sdVex o

/-- The EVEX instruction of an order. -/
def FmaOrder.evex : FmaOrder → EvexOperands → Instr
  | .o132, o => .vfnmadd132sdEvex o
  | .o213, o => .vfnmadd213sdEvex o
  | .o231, o => .vfnmadd231sdEvex o

/-- Bytes of operand 3 after ModRM (R105). -/
def VexSrc3.tailBytes : VexSrc3 → Nat
  | .reg _ => 0
  | .mem a => a.tailBytes

/-- Bytes of operand 3 after ModRM (R105). -/
def EvexSrc3.tailBytes : EvexSrc3 → Nat
  | .reg _ _ => 0
  | .mem a _ => a.tailBytes

/-- The length L of a VEX form: prefixes, 3 prefix bytes, opcode, ModRM, SIB and displacement (R105). -/
def VexOperands.length (o : VexOperands) : Nat := o.pfx.length + 5 + o.src3.tailBytes

/-- The length L of an EVEX form (R105). -/
def EvexOperands.length (o : EvexOperands) : Nat := o.pfx.length + 6 + o.src3.tailBytes

/-- The length L of an instruction in bytes (R105). -/
def Instr.length : Instr → Nat
  | .vfnmadd132sdVex o => o.length
  | .vfnmadd213sdVex o => o.length
  | .vfnmadd231sdVex o => o.length
  | .vfnmadd132sdEvex o => o.length
  | .vfnmadd213sdEvex o => o.length
  | .vfnmadd231sdEvex o => o.length

/-- The prefix bytes of an instruction. -/
def Instr.pfx : Instr → List LegacyPrefix
  | .vfnmadd132sdVex o => o.pfx
  | .vfnmadd213sdVex o => o.pfx
  | .vfnmadd231sdVex o => o.pfx
  | .vfnmadd132sdEvex o => o.pfx
  | .vfnmadd213sdEvex o => o.pfx
  | .vfnmadd231sdEvex o => o.pfx

end Sys2Proof
end

