-- ==== Sys2Proof/WellFormed.lean ====
section
/-! DEFINITION. Which instructions an encoding exists for and R108 accepts: the checks of R84, R95, R97,
R99, R105, R106 and R109 on the instruction alone. -/

namespace Sys2Proof

/-- R84: LOCK, 66H, F2H and F3H are illegal anywhere among the prefixes. -/
def LegacyPrefix.forbidden : LegacyPrefix → Bool
  | .lock | .opSize | .repne | .rep => true
  | .es | .cs | .ss | .ds | .fs | .gs | .addrSize | .rex _ => false

/-- A REX byte. -/
def LegacyPrefix.isRex : LegacyPrefix → Bool
  | .rex _ => true
  | .es | .cs | .ss | .ds | .fs | .gs | .addrSize | .lock | .opSize | .repne | .rep => false

/-- R84: no forbidden byte, and no REX immediately before the VEX or EVEX bytes. -/
def prefixesLegal (p : List LegacyPrefix) : Bool :=
  !(p.any LegacyPrefix.forbidden) && !((p.getLast?.map LegacyPrefix.isRex).getD false)

/-- R97: with r/m (or SIB.base) = 101b, mod = 00b means something else, so a displacement is needed;
r/m = 100b always selects a SIB byte. -/
def MemAddr.encodable : MemAddr → Bool
  | .ripRel _ => true
  | .base b d => (b.setWidth 3 != 4#3) && (b.setWidth 3 != 5#3 || d != .none)
  | .sib b _ _ d => b.setWidth 3 != 5#3 || d != .none
  | .sibNoBase _ _ _ => true

/-- Operand 3 has an encoding. -/
def VexSrc3.encodable : VexSrc3 → Bool
  | .reg _ => true
  | .mem a => a.encodable

/-- Operand 3 has an encoding. -/
def EvexSrc3.encodable : EvexSrc3 → Bool
  | .reg _ _ => true
  | .mem a _ => a.encodable

/-- R95, R109 item 3: zeroing needs a mask. -/
def EvexOperands.maskLegal (o : EvexOperands) : Bool := !o.zeroing || o.mask != 0#3

/-- R109 item 5 (D12, `EVEX_B_MEM_UD` = true): b = 1 needs a register operand 3. -/
def EvexOperands.broadcastLegal (o : EvexOperands) : Bool :=
  match o.src3 with
  | .reg _ _ => true
  | .mem _ b => !b

/-- What makes a decoded VEX form #UD (R109 item 1). -/
def VexOperands.legal (o : VexOperands) : Bool := prefixesLegal o.pfx

/-- What makes a decoded EVEX form #UD (R109 items 1, 3, 5). -/
def EvexOperands.legal (o : EvexOperands) : Bool :=
  prefixesLegal o.pfx && o.maskLegal && o.broadcastLegal

/-- What makes a decoded instruction #UD (R109 items 1, 3, 5). -/
def Instr.legal : Instr → Bool
  | .vfnmadd132sdVex o => o.legal
  | .vfnmadd213sdVex o => o.legal
  | .vfnmadd231sdVex o => o.legal
  | .vfnmadd132sdEvex o => o.legal
  | .vfnmadd213sdEvex o => o.legal
  | .vfnmadd231sdEvex o => o.legal

/-- Operand 3 has an encoding. -/
def Instr.encodable : Instr → Bool
  | .vfnmadd132sdVex o => o.src3.encodable
  | .vfnmadd213sdVex o => o.src3.encodable
  | .vfnmadd231sdVex o => o.src3.encodable
  | .vfnmadd132sdEvex o => o.src3.encodable
  | .vfnmadd213sdEvex o => o.src3.encodable
  | .vfnmadd231sdEvex o => o.src3.encodable

/-- R106: at most 15 bytes. -/
def lengthLegal (n : Nat) : Bool := n ≤ 15

/-- An instruction that R108 accepts. -/
def Instr.wf (i : Instr) : Bool := i.legal && lengthLegal i.length && i.encodable

end Sys2Proof
end

