-- ==== Sys2Proof/Decode.lean ====
section
/-! DEFINITION. The decoder of R108, total on any bytes, and the encoder written from the same layouts
(R70, R72, R76, R87 to R105). -/

namespace Sys2Proof

/-- Which of the two encodings, with their own enable conditions (R205). -/
inductive EncKind
  | vex | evex
  deriving DecidableEq, Repr

/-- Why a byte string is not one of the six encodings (R108, R110): another instruction, or an encoding
the spec knows nothing of. -/
inductive DecodeRefusal
  /-- R108 step 2: neither C4H nor 62H after the prefixes. -/
  | notVexEvex
  /-- R108 step 3: a VEX payload of another map, pp or W (R75). -/
  | otherVex
  /-- R108 step 3: an EVEX payload of another map, pp or W (R78). -/
  | otherEvex
  /-- R108 step 4: an opcode byte other than 9DH, ADH, BDH. -/
  | otherOpcode
  deriving DecidableEq, Repr

/-- The decoder's verdict on a byte string (R108). -/
inductive Verdict
  /-- One of the six forms. -/
  | form (i : Instr)
  /-- #UD (R109 items 1, 2, 3, 5). -/
  | ud
  /-- Longer than 15 bytes (R106); `illegal`: it is #UD by R109 as well. -/
  | tooLong (k : EncKind) (illegal : Bool)
  | refused (why : DecodeRefusal)
  /-- The bytes end before the instruction does. -/
  | truncated
  deriving DecidableEq, Repr

/-! ## Fields -/

/-- ModRM.mod, SIB.scale: bits 7:6 (R87). -/
def hi2 (b : Byte) : BitVec 2 := b.extractLsb' 6 2
/-- ModRM.reg, SIB.index: bits 5:3 (R87). -/
def mid3 (b : Byte) : BitVec 3 := b.extractLsb' 3 3
/-- ModRM.r/m, SIB.base, EVEX.aaa: bits 2:0 (R87, R76). -/
def low3 (b : Byte) : BitVec 3 := b.extractLsb' 0 3
/-- The four inverted bits vvvv, 6:3 of VEX byte 2 and of EVEX P1, turned upright (R89). -/
def vvvvOf (b : Byte) : BitVec 4 := ~~~ (b.extractLsb' 3 4)

/-- A 3-bit register field extended by one prefix bit (R88 to R90). -/
def ext4 (hi : Bool) (n : BitVec 3) : BitVec 4 := BitVec.ofBool hi ++ n
/-- A 4-bit register number extended by one more prefix bit (R88 to R90). -/
def ext5 (hi : Bool) (n : BitVec 4) : BitVec 5 := BitVec.ofBool hi ++ n

/-- Four bytes, the lowest address first (R53). -/
def le32 (a b c d : Byte) : BitVec 32 := d ++ c ++ b ++ a

/-- The first four bytes as a displacement. -/
def takeDisp32 : List Byte → Option (BitVec 32)
  | a :: b :: c :: d :: _ => some (le32 a b c d)
  | _ => none

/-! ## Prefixes -/

/-- The prefix a byte is, of the set in R108 step 1. -/
def prefixOf (b : Byte) : Option LegacyPrefix :=
  if b = 0x26#8 then some .es
  else if b = 0x2E#8 then some .cs
  else if b = 0x36#8 then some .ss
  else if b = 0x3E#8 then some .ds
  else if b = 0x64#8 then some .fs
  else if b = 0x65#8 then some .gs
  else if b = 0x67#8 then some .addrSize
  else if b = 0x66#8 then some .opSize
  else if b = 0xF2#8 then some .repne
  else if b = 0xF3#8 then some .rep
  else if b = 0xF0#8 then some .lock
  else if b.extractLsb' 4 4 = 4#4 then some (.rex (b.extractLsb' 0 4))
  else none

/-- The byte of a prefix. -/
def LegacyPrefix.byte : LegacyPrefix → Byte
  | .es => 0x26#8
  | .cs => 0x2E#8
  | .ss => 0x36#8
  | .ds => 0x3E#8
  | .fs => 0x64#8
  | .gs => 0x65#8
  | .addrSize => 0x67#8
  | .opSize => 0x66#8
  | .repne => 0xF2#8
  | .rep => 0xF3#8
  | .lock => 0xF0#8
  | .rex w => 4#4 ++ w

/-- R108 step 1: the prefixes, and the bytes after them. -/
def takePrefixes : List Byte → List LegacyPrefix × List Byte
  | [] => ([], [])
  | b :: bs =>
    match prefixOf b with
    | some p => (p :: (takePrefixes bs).1, (takePrefixes bs).2)
    | none => ([], b :: bs)

/-! ## Operand 3 -/

/-- The displacement of mod = 00b, 01b or 10b (R96). -/
def decodeDisp (mod : BitVec 2) (bs : List Byte) : Option Disp :=
  if mod = 0#2 then some .none
  else if mod = 1#2 then bs.head?.map .d8
  else (takeDisp32 bs).map .d32

/-- The memory operand of mod ≠ 11b (R97, R99); `x` and `b` are the upright prefix bits. -/
def decodeMem (x b : Bool) (mod : BitVec 2) (rm : BitVec 3) (bs : List Byte) : Option MemAddr :=
  if rm = 4#3 then
    match bs with
    | [] => none
    | sib :: rest =>
      if low3 sib = 5#3 ∧ mod = 0#2 then
        (takeDisp32 rest).map (.sibNoBase (ext4 x (mid3 sib)) (hi2 sib))
      else (decodeDisp mod rest).map (.sib (ext4 b (low3 sib)) (ext4 x (mid3 sib)) (hi2 sib))
  else if mod = 0#2 ∧ rm = 5#3 then (takeDisp32 bs).map .ripRel
  else (decodeDisp mod bs).map (.base (ext4 b rm))

/-- The order an opcode byte selects (R107). -/
def orderOf (op : Byte) : Option FmaOrder :=
  if op = 0x9D#8 then some .o132
  else if op = 0xAD#8 then some .o213
  else if op = 0xBD#8 then some .o231
  else none

/-- The opcode byte of an order (R107). -/
def FmaOrder.opcode : FmaOrder → Byte
  | .o132 => 0x9D#8
  | .o213 => 0xAD#8
  | .o231 => 0xBD#8

/-- R108 steps 5 to 8, in the order of R210: every byte of the instruction has been read, then the
length, then the legality (log 18). -/
def verdictOf (k : EncKind) (i : Instr) : Verdict :=
  if lengthLegal i.length then (if i.legal then .form i else .ud) else .tooLong k (!i.legal)

/-- The rounding mode of two bits, in MXCSR.RC and in EVEX.RC (R31, R94). -/
def RoundingMode.ofBits (rc : BitVec 2) : RoundingMode :=
  if rc = 0#2 then .rn else if rc = 1#2 then .rd else if rc = 2#2 then .ru else .rz

/-! ## The two prefixes -/

/-- R108 from the ModRM byte of a VEX form on. -/
def decodeVexTail (pfx : List LegacyPrefix) (b1 b2 : Byte) (ord : FmaOrder) : List Byte → Verdict
  | [] => .truncated
  | m :: rest =>
    let x := !(b1.getLsbD 6)
    let b := !(b1.getLsbD 5)
    let src3 : Option VexSrc3 :=
      if hi2 m = 3#2 then some (.reg (ext4 b (low3 m)))
      else (decodeMem x b (hi2 m) (low3 m) rest).map .mem
    match src3 with
    | none => .truncated
    | some src3 =>
      let o : VexOperands :=
        { pfx := pfx, dst := ext4 (!(b1.getLsbD 7)) (mid3 m), src2 := vvvvOf b2, src3 := src3 }
      verdictOf .vex (ord.vex o)

/-- R108 steps 3 on, after C4H. -/
def decodeVex (pfx : List LegacyPrefix) : List Byte → Verdict
  | b1 :: b2 :: rest =>
    if b1.extractLsb' 0 5 = 2#5 ∧ b2.extractLsb' 0 2 = 1#2 ∧ b2.getLsbD 7 = true then
      match rest with
      | [] => .truncated
      | op :: rest =>
        match orderOf op with
        | none => .refused .otherOpcode
        | some ord => decodeVexTail pfx b1 b2 ord rest
    else .refused .otherVex
  | _ => .truncated

/-- R108 from the ModRM byte of an EVEX form on. -/
def decodeEvexTail (pfx : List LegacyPrefix) (p0 p1 p2 : Byte) (ord : FmaOrder) : List Byte → Verdict
  | [] => .truncated
  | m :: rest =>
    let x := !(p0.getLsbD 6)
    let b := !(p0.getLsbD 5)
    let bit := p2.getLsbD 4
    let src3 : Option EvexSrc3 :=
      if hi2 m = 3#2 then
        some (.reg (ext5 x (ext4 b (low3 m)))
          (if bit then some (RoundingMode.ofBits (p2.extractLsb' 5 2)) else none))
      else (decodeMem x b (hi2 m) (low3 m) rest).map (.mem · bit)
    match src3 with
    | none => .truncated
    | some src3 =>
      let o : EvexOperands :=
        { pfx := pfx
          dst := ext5 (!(p0.getLsbD 4)) (ext4 (!(p0.getLsbD 7)) (mid3 m))
          src2 := ext5 (!(p2.getLsbD 3)) (vvvvOf p1)
          mask := low3 p2
          zeroing := p2.getLsbD 7
          src3 := src3 }
      verdictOf .evex (ord.evex o)

/-- R108 steps 3 on, after 62H. Wrong reserved bits are #UD; with more than 15 bytes up to P2 the length check of
R106 applies as well (log 16). -/
def decodeEvex (pfx : List LegacyPrefix) : List Byte → Verdict
  | p0 :: p1 :: p2 :: rest =>
    if p0.extractLsb' 2 2 ≠ 0#2 ∨ p1.getLsbD 2 = false then
      (if lengthLegal (pfx.length + 4) then .ud else .tooLong .evex true)
    else if p0.extractLsb' 0 2 = 2#2 ∧ p1.extractLsb' 0 2 = 1#2 ∧ p1.getLsbD 7 = true then
      match rest with
      | [] => .truncated
      | op :: rest =>
        match orderOf op with
        | none => .refused .otherOpcode
        | some ord => decodeEvexTail pfx p0 p1 p2 ord rest
    else .refused .otherEvex
  | _ => .truncated

/-- R108: the verdict on the bytes at `pc`, however many follow the instruction. -/
def decode (bs : List Byte) : Verdict :=
  match (takePrefixes bs).2 with
  | [] => .truncated
  | b :: rest =>
    if b = 0xC4#8 then decodeVex (takePrefixes bs).1 rest
    else if b = 0x62#8 then decodeEvex (takePrefixes bs).1 rest
    else .refused .notVexEvex

/-! ## The encoder -/

/-- Four bytes of a displacement, the lowest address first (R53, R102). -/
def bytes32 (d : BitVec 32) : List Byte :=
  [d.extractLsb' 0 8, d.extractLsb' 8 8, d.extractLsb' 16 8, d.extractLsb' 24 8]

/-- The mod field of a displacement (R96). -/
def Disp.mod : Disp → BitVec 2
  | .none => 0#2
  | .d8 _ => 1#2
  | .d32 _ => 2#2

/-- The bytes of a displacement. -/
def Disp.encode : Disp → List Byte
  | .none => []
  | .d8 d => [d]
  | .d32 d => bytes32 d

/-- Operand 3 as the encoding holds it: the upright bits X and B, mod, r/m, and the bytes after ModRM. -/
structure RmFields where
  x : Bool
  b : Bool
  mod : BitVec 2
  rm : BitVec 3
  tail : List Byte
  deriving DecidableEq, Repr

/-- The SIB byte (R87). -/
def sibByte (scale : BitVec 2) (index base : BitVec 3) : Byte := scale ++ index ++ base

/-- The fields of a memory operand (R97, R99); bits that name nothing are given as 0. -/
def MemAddr.fields : MemAddr → RmFields
  | .ripRel d => ⟨false, false, 0#2, 5#3, bytes32 d⟩
  | .base n d => ⟨false, n.getLsbD 3, d.mod, n.setWidth 3, d.encode⟩
  | .sib n i s d =>
    ⟨i.getLsbD 3, n.getLsbD 3, d.mod, 4#3, sibByte s (i.setWidth 3) (n.setWidth 3) :: d.encode⟩
  | .sibNoBase i s d => ⟨i.getLsbD 3, false, 0#2, 4#3, sibByte s (i.setWidth 3) 5#3 :: bytes32 d⟩

/-- The fields of a VEX operand 3 (R90). -/
def VexSrc3.fields : VexSrc3 → RmFields
  | .reg n => ⟨false, n.getLsbD 3, 3#2, n.setWidth 3, []⟩
  | .mem a => a.fields

/-- The fields of an EVEX operand 3 (R90): X is bit 4 of a register number. -/
def EvexSrc3.fields : EvexSrc3 → RmFields
  | .reg n _ => ⟨n.getLsbD 4, n.getLsbD 3, 3#2, n.setWidth 3, []⟩
  | .mem a _ => a.fields

/-- The encoding of a rounding mode (R31, R94). -/
def RoundingMode.bits : RoundingMode → BitVec 2
  | .rn => 0#2
  | .rd => 1#2
  | .ru => 2#2
  | .rz => 3#2

/-- The bit b of P2 (R94). -/
def EvexSrc3.bBit : EvexSrc3 → Bool
  | .reg _ er => er.isSome
  | .mem _ b => b

/-- The field L'L of P2: EVEX.RC under embedded rounding (R94), else ignored and given as 00b (R77). -/
def EvexSrc3.llBits : EvexSrc3 → BitVec 2
  | .reg _ (some m) => m.bits
  | .reg _ none => 0#2
  | .mem _ _ => 0#2

/-- The ModRM byte (R87). -/
def modrmByte (mod : BitVec 2) (reg rm : BitVec 3) : Byte := mod ++ reg ++ rm

/-- The bytes of a VEX form (R72), with L = 0. -/
def encodeVex (ord : FmaOrder) (o : VexOperands) : List Byte :=
  let f := o.src3.fields
  o.pfx.map LegacyPrefix.byte ++
    [0xC4#8,
      BitVec.ofBool (!(o.dst.getLsbD 3)) ++ BitVec.ofBool (!f.x) ++ BitVec.ofBool (!f.b) ++ 2#5,
      1#1 ++ ~~~ o.src2 ++ 0#1 ++ 1#2,
      ord.opcode,
      modrmByte f.mod (o.dst.setWidth 3) f.rm] ++ f.tail

/-- The bytes of an EVEX form (R76). -/
def encodeEvex (ord : FmaOrder) (o : EvexOperands) : List Byte :=
  let f := o.src3.fields
  o.pfx.map LegacyPrefix.byte ++
    [0x62#8,
      BitVec.ofBool (!(o.dst.getLsbD 3)) ++ BitVec.ofBool (!f.x) ++ BitVec.ofBool (!f.b) ++
        BitVec.ofBool (!(o.dst.getLsbD 4)) ++ 0#2 ++ 2#2,
      1#1 ++ ~~~ (o.src2.setWidth 4) ++ 1#1 ++ 1#2,
      BitVec.ofBool o.zeroing ++ o.src3.llBits ++ BitVec.ofBool o.src3.bBit ++
        BitVec.ofBool (!(o.src2.getLsbD 4)) ++ o.mask,
      ord.opcode,
      modrmByte f.mod (o.dst.setWidth 3) f.rm] ++ f.tail

/-- The bytes of an instruction, in address order (R70). -/
def encode : Instr → List Byte
  | .vfnmadd132sdVex o => encodeVex .o132 o
  | .vfnmadd213sdVex o => encodeVex .o213 o
  | .vfnmadd231sdVex o => encodeVex .o231 o
  | .vfnmadd132sdEvex o => encodeEvex .o132 o
  | .vfnmadd213sdEvex o => encodeEvex .o213 o
  | .vfnmadd231sdEvex o => encodeEvex .o231 o

/-! ## Words of the opcode table -/

/-- The first 15 bytes of an instruction given as a number of the opcode table: byte k is bits 8k+7:8k,
and every bit from `nbits` up is 0. -/
def tableBytes (nbits w : Nat) : List Byte :=
  (List.range 15).map fun k => BitVec.ofNat 8 ((w % 2 ^ nbits) >>> (8 * k))

/-- The instruction the decoder reads from an opcode-table word. -/
def decodeTableWord (nbits w : Nat) : Option Instr :=
  match decode (tableBytes nbits w) with
  | .form i => some i
  | .ud => none
  | .tooLong _ _ => none
  | .refused _ => none
  | .truncated => none

end Sys2Proof
end

