-- ==== Sys2Proof/Machine/State.lean ====
section
/-! DEFINITION. The state of the machine (10_state.md), the ways a step can stop, and the state after
reset (R38, R240 to R242). -/

namespace Sys2Proof.Machine

/-- The memory's bytes by physical location: locations strictly rising; a location not listed holds no
byte (R38 "unspecified", U17; log 9). -/
abbrev Memory := List Host.Cell

/-- The kinds of access `Translate` is asked about (R63). -/
inductive Access
  | dataRead | fetch
  deriving DecidableEq, Repr

/-- Who may make one kind of access (R63): the privilege levels whose bit is set in `levels`. The others get a page
fault with `code`, whose bits 1, 2 and 4 are settled by the access (`pfErrorCode`). -/
structure AccessRight where
  levels : BitVec 4
  code : BitVec 32
  deriving DecidableEq, Repr

/-- One line of the parameter `Translate` (R7, R63): the linear address `la` of the range `lo` to `hi` inclusive is at
location `base + (la - lo)`, for a data read and for a fetch alike (R53), where the right to the access is given. -/
structure TransEntry where
  lo : Word
  hi : Word
  base : Word
  read : AccessRight
  fetch : AccessRight
  deriving DecidableEq, Repr

/-- The code segment: selector and base (R240), the bits L and D (R34, R243). The base counts as 0 in
64-bit mode (R22). -/
structure CodeSegment where
  selector : BitVec 16
  base : Word
  l : Bool
  d : Bool
  deriving DecidableEq, Repr

/-- The x87/MMX registers and their control, status and tag words, which no instruction in scope touches
(R36). PRESUMED widths (log 8). -/
structure X87 where
  st : Vector (BitVec 80) 8
  control : BitVec 16
  status : BitVec 16
  tag : BitVec 16
  deriving DecidableEq, Repr

/-- The machine's state. -/
structure State where
  /-- General registers (R20). -/
  gpr : Vector Word 16
  /-- RIP: the address of the first byte of the instruction (R22). -/
  pc : Word
  /-- Vector registers (R24, R25), 512 bits held; bits from MAXVL up do not exist and are 0 (log 7). -/
  vreg : Vector (BitVec 512) 32
  /-- Opmask registers (R29), 64 bits held; bits from KL up do not exist and are 0 (log 7). -/
  kreg : Vector (BitVec 64) 8
  /-- MXCSR (R31). -/
  mxcsr : BitVec 32
  /-- RFLAGS (R33, R34). -/
  rflags : Word
  /-- CR0, CR4, EFER, XCR0 (R34). -/
  cr0 : Word
  cr4 : Word
  efer : Word
  xcr0 : Word
  /-- CR2: the faulting linear address of a #PF (R63, R200). -/
  cr2 : Word
  /-- The current privilege level (R34, R218). -/
  cpl : BitVec 2
  /-- The code segment (R34, R240). -/
  cs : CodeSegment
  /-- FS.base and GS.base (R35). -/
  fsBase : Word
  gsBase : Word
  /-- DR0 to DR3 and DR7 (R223). -/
  dr : Vector Word 4
  dr7 : Word
  /-- The x87 unit (R36). -/
  x87 : X87
  /-- The parameters of R7, constant over a run (R243). -/
  params : Config.Params
  /-- The parameter `Translate` of R7 and R63: the first entry whose range holds the address answers (log 10). -/
  xlat : List TransEntry
  /-- Memory (R50, R62). -/
  mem : Memory
  /-- The model's own: how many free values have been consumed (log 28). -/
  draws : Nat
  deriving DecidableEq, Repr

/-- The exceptions of R200. -/
inductive Exception
  /-- #UD, invalid opcode. -/
  | ud
  /-- #NM, device not available. -/
  | nm
  /-- #SS(0), stack-segment fault. -/
  | ss
  /-- #GP(0), general protection. -/
  | gp
  /-- #PF with its error code and the faulting linear address (R63). -/
  | pf (code : BitVec 32) (la : Word)
  /-- #AC(0), alignment check. -/
  | ac
  /-- #XM, SIMD floating-point exception. -/
  | xm
  deriving DecidableEq, Repr

/-- Why the machine stops with a fault. -/
inductive Fault
  /-- R215: an exception was raised: the terminal outcome Fault(X, e), with the state of R214. Raised by
  every instruction and by fetching one, through `raise`. Safe: the hardware goes on in a handler, which
  R6(c) leaves out (log 1). -/
  | exception (x : Exception) (s : State)
  /-- U17, R60, D8: a fetch or an operand read needs the byte of a location the launch memory does not
  hold: no step. Raised by fetching and by `memRead`. Safe (log 9). -/
  | outsideLaunchMemory (la : Word)
  deriving DecidableEq, Repr

/-- Why a step gives no meaning. -/
inductive Refusal
  /-- An instruction of the table whose arm has no meaning yet: none is left. Safe. -/
  | notModelled (mnemonic : String)
  /-- R110, U13: the bytes at `pc` are another instruction or an encoding the spec knows nothing of. Raised
  by `step`. Safe. -/
  | otherInstruction (why : DecodeRefusal)
  /-- R6(b), D1, U16: a mode other than 64-bit mode. Raised by `step` and every meaning. Safe (log 2). -/
  | notLongMode
  /-- R223, R243, D18: RFLAGS.TF = 1 or DR7 enables a breakpoint, which breaks a launch premise. Raised by
  `step` and every meaning. Safe (log 21). -/
  | debugTrapArmed
  /-- U9, R243: MXCSR bits 31:16 are not 0. Raised by `step` and every meaning. Safe (log 22). -/
  | mxcsrReservedSet
  deriving DecidableEq, Repr

/-- Every level may make the access. -/
def AccessRight.all : AccessRight := ⟨BitVec.allOnes 4, 0⟩

/-- `Translate` at reset: every linear address is the location of the same number, for reads and fetches at
every level. DESIGN CHOICE (log 10): paging is off at reset, and the spec gives no map. -/
def State.identityMap : List TransEntry := [⟨0, BitVec.allOnes 64, 0, .all, .all⟩]

/-- The machine right after power-up or RESET (R38, R240 to R242). What the spec gives no value for is
named in logs 4, 5, 6, 10 and 28. -/
def State.reset : State where
  gpr := (Vector.replicate 16 0).set 2 Config.processorSignature
  pc := 0xFFF0
  vreg := Vector.replicate 32 0
  kreg := Vector.replicate 8 0
  mxcsr := 0x1F80
  rflags := 0x2
  cr0 := 0x60000010
  cr4 := 0
  efer := 0
  xcr0 := 1
  cr2 := 0
  cpl := 0
  cs := { selector := 0xF000, base := 0xFFFF0000, l := false, d := false }
  fsBase := 0
  gsBase := 0
  dr := Vector.replicate 4 0
  dr7 := 0x400
  x87 := { st := Vector.replicate 8 0, control := 0x40, status := 0, tag := 0x5555 }
  params := { hasFMA := true, hasAVX512F := true, maxvl := .v512, kl := .k64, vaBits := .va48 }
  xlat := State.identityMap
  mem := []
  draws := 0

end Sys2Proof.Machine
end

