-- ==== Sys2Proof/Machine/Flags.lean ====
section
/-! DEFINITION. MXCSR: its fields (R31), what the instructions read of it and write to it (R32), and the
causes a handler reads from it (R202). -/

namespace Sys2Proof.Machine

/-- The SIMD floating-point exceptions of one evaluation (R123, R201). ZE is not among them. -/
structure FpFlags where
  /-- invalid operation -/
  ie : Bool := false
  /-- denormal operand -/
  de : Bool := false
  /-- overflow -/
  oe : Bool := false
  /-- underflow -/
  ue : Bool := false
  /-- precision (inexact) -/
  pe : Bool := false
  deriving DecidableEq, Repr

/-- The flags at their places in MXCSR[5:0] (R31); bit 2, ZE, is 0. -/
def FpFlags.bits (f : FpFlags) : BitVec 6 :=
  BitVec.ofBool f.pe ++ BitVec.ofBool f.ue ++ BitVec.ofBool f.oe ++ 0#1 ++ BitVec.ofBool f.de ++
    BitVec.ofBool f.ie

/-- `MXCSR[5:0] <- MXCSR[5:0] OR flags` (R32): the flags are sticky, no other bit changes. -/
def orFlags (m : BitVec 32) (f : FpFlags) : BitVec 32 := m ||| f.bits.setWidth 32

/-- The control record of R123: DAZ, FTZ and the five masks. -/
structure FpControl where
  daz : Bool
  ftz : Bool
  im : Bool
  dm : Bool
  om : Bool
  um : Bool
  pm : Bool
  deriving DecidableEq, Repr

/-- The controls MXCSR holds (R31). -/
def mxcsrControl (m : BitVec 32) : FpControl where
  daz := m.getLsbD 6
  ftz := m.getLsbD 15
  im := m.getLsbD 7
  dm := m.getLsbD 8
  om := m.getLsbD 10
  um := m.getLsbD 11
  pm := m.getLsbD 12

/-- The controls under suppress-all-exceptions (R149): every mask 1, DAZ and FTZ from MXCSR. -/
def saeControl (m : BitVec 32) : FpControl :=
  { mxcsrControl m with im := true, dm := true, om := true, um := true, pm := true }

/-- MXCSR.RC, bits 14:13 (R31). -/
def mxcsrRounding (m : BitVec 32) : RoundingMode := RoundingMode.ofBits (m.extractLsb' 13 2)

/-- MXCSR[31:16], which the launch premises say is 0 (R31, R243, U9). -/
def mxcsrReserved (m : BitVec 32) : BitVec 16 := m.extractLsb' 16 16

/-- R202: what a handler takes as the causes of #XM: the flags in MXCSR[5:0] whose mask in MXCSR[12:7] is 0. -/
def simdCauses (m : BitVec 32) : BitVec 6 := m.extractLsb' 0 6 &&& ~~~ (m.extractLsb' 7 6)

end Sys2Proof.Machine
end

