-- ==== Sys2Proof/Machine/Fnmadd.lean ====
section
/-! DEFINITION. The fused negative multiply-add on binary64, `FNMAdd64(x, y, z, rm, ctl)` of R133, with the
rules R120 to R150 it rests on. A real value is held exactly, as an Int in units of 2^-2148: the product of
two binary64 values is a multiple of that unit (R142). -/

namespace Sys2Proof.Machine

/-! ## The format (R120, R121) -/

/-- The sign bit. -/
def fSign (w : Word) : Bool := w.getLsbD 63
/-- The biased exponent. -/
def fExp (w : Word) : Nat := (w.extractLsb' 52 11).toNat
/-- The fraction. -/
def fFrac (w : Word) : Nat := (w.extractLsb' 0 52).toNat

def isZero (w : Word) : Bool := fExp w == 0 && fFrac w == 0
def isDenormal (w : Word) : Bool := fExp w == 0 && fFrac w != 0
def isInf (w : Word) : Bool := fExp w == 2047 && fFrac w == 0
def isNaN (w : Word) : Bool := fExp w == 2047 && fFrac w != 0
/-- A NaN whose fraction bit 51 is 0. -/
def isSNaN (w : Word) : Bool := isNaN w && !w.getLsbD 51
/-- Zero, denormal or normal. -/
def isFinite (w : Word) : Bool := fExp w != 2047

/-- The default NaN of an invalid operation. -/
def qnanIndefinite : Word := 0xFFF8000000000000
/-- `quiet(w)`: fraction bit 51 set, all else kept. -/
def quiet (w : Word) : Word := w ||| 0x0008000000000000

/-- The zero of a sign. -/
def signedZero (neg : Bool) : Word := BitVec.ofBool neg ++ 0#63
/-- The infinity of a sign. -/
def signedInf (neg : Bool) : Word := BitVec.ofBool neg ++ 0x7FF#11 ++ 0#52
/-- `MaxFinite` with a sign. -/
def signedMax (neg : Bool) : Word := BitVec.ofBool neg ++ 0x7FE#11 ++ BitVec.allOnes 52

/-- The magnitude of a finite value in units of 2^-1074 (R120). -/
def fMag (w : Word) : Nat :=
  if fExp w = 0 then fFrac w else (2 ^ 52 + fFrac w) * 2 ^ (fExp w - 1)

/-- The real value of a finite pattern in units of 2^-1074. -/
def fVal (w : Word) : Int := if fSign w then -(fMag w : Int) else fMag w

/-- `-(X*Y) + Z` exactly, in units of 2^-2148 (R133 step 6). -/
def exactSum (x y z : Word) : Int := -(fVal x * fVal y) + fVal z * 2 ^ 1074

/-! ## Rounding (R122) -/

/-- `RoundTo` on the magnitude of a value of the sign `neg`: to a multiple of 2^k units. -/
def roundTo (rm : RoundingMode) (neg : Bool) (mag k : Nat) : Nat :=
  let q := 2 ^ k
  let lo := q * (mag / q)
  let hi := lo + q
  if mag = lo then mag
  else
    match rm with
    | .rn =>
      if mag - lo < hi - mag then lo
      else if hi - mag < mag - lo then hi
      else if mag / q % 2 = 0 then lo else hi
    | .rz => lo
    | .ru => if neg then lo else hi
    | .rd => if neg then hi else lo

/-- `RoundUnbounded`: to 53 significant bits. A magnitude below 2^53 units is on that grid already, and the
truncated subtraction gives the spacing of one unit. -/
def roundUnbounded (rm : RoundingMode) (neg : Bool) (mag : Nat) : Nat :=
  roundTo rm neg mag (mag.log2 - 52)

/-- 2^1024 in units of 2^-2148: the overflow threshold (R143). -/
def overflowMag : Nat := 2 ^ 3172
/-- 2^-1022 in units of 2^-2148: the tininess threshold (R144). -/
def minNormalMag : Nat := 2 ^ 1126
/-- The denormal grid 2^-1074 is 2^1074 units (R145). -/
def denormalShift : Nat := 1074

/-- The pattern of a magnitude on the denormal grid, up to and including MinNormal (R133 step 10). -/
def encodeDenormal (neg : Bool) (mag : Nat) : Word :=
  BitVec.ofBool neg ++ BitVec.ofNat 63 (mag / 2 ^ denormalShift)

/-- The pattern of a normal magnitude of 53 significant bits (R133 step 11): with leading bit at place `p`,
the biased exponent is p - 1125 (2^-1022, place 1126, has exponent 1). -/
def encodeNormal (neg : Bool) (mag : Nat) : Word :=
  BitVec.ofBool neg ++ BitVec.ofNat 11 (mag.log2 - 1125) ++ BitVec.ofNat 52 (mag / 2 ^ (mag.log2 - 52))

/-! ## The cases of R133 -/

/-- What `FNMAdd64` returns (R123). -/
inductive FmaResult
  | value (r : Word) (f : FpFlags)
  | trap (f : FpFlags)
  deriving DecidableEq, Repr

/-- R134, step 1: with DAZ a denormal is read as the zero of its sign. -/
def applyDaz (ctl : FpControl) (w : Word) : Word :=
  if ctl.daz && isDenormal w then signedZero (fSign w) else w

/-- The sign of the negated product, `ps` of R133. -/
def productSign (x y : Word) : Bool := !(fSign x ^^ fSign y)

/-- R136: the first NaN in the order x, y, z. -/
def firstNaN (x y z : Word) : Word := if isNaN x then x else if isNaN y then y else z

/-- R133 step 2 (R135, R136). -/
def nanResult (ctl : FpControl) (x y z : Word) : FmaResult :=
  let ie := isSNaN x || isSNaN y || isSNaN z
  if ie && !ctl.im then .trap { ie := true } else .value (quiet (firstNaN x y z)) { ie := ie }

/-- R133 step 3 (R137, R138): infinity times zero, or infinity minus infinity. -/
def invalidOp (x y z : Word) : Bool :=
  (isInf x && isZero y) || (isZero x && isInf y) ||
    ((isInf x || isInf y) && isInf z && (fSign z != productSign x y))

/-- R141: the sign of an exact zero sum. -/
def zeroSumSign (rm : RoundingMode) (x y z : Word) : Bool :=
  if (isZero x || isZero y) && (productSign x y == fSign z) then fSign z else rm == .rd

/-- R143: the masked overflow result. -/
def overflowResult (rm : RoundingMode) (neg : Bool) : Word :=
  match rm with
  | .rn => signedInf neg
  | .rz => signedMax neg
  | .ru => if neg then signedMax neg else signedInf neg
  | .rd => if neg then signedInf neg else signedMax neg

/-- R133 step 12. -/
def precisionStep (ctl : FpControl) (r : Word) (f : FpFlags) : FmaResult :=
  if f.pe && !ctl.pm then .trap f else .value r f

/-- R133 step 9 (R143, R147). `pe` is the draw `TrapPEWithOU`. -/
def overflowStep (rm : RoundingMode) (ctl : FpControl) (pe de neg : Bool) : FmaResult :=
  if ctl.om then precisionStep ctl (overflowResult rm neg) { de := de, oe := true, pe := true }
  else .trap { de := de, oe := true, pe := pe }

/-- R133 step 10 (R145, R146, R147), for a tiny result of exact magnitude `mag`. -/
def tinyStep (rm : RoundingMode) (ctl : FpControl) (pe de neg : Bool) (mag : Nat) : FmaResult :=
  let r := roundTo rm neg mag denormalShift
  let inexact := r != mag
  if !ctl.um then .trap { de := de, ue := true, pe := inexact && pe }
  else if ctl.ftz then precisionStep ctl (signedZero neg) { de := de, ue := true, pe := true }
  else precisionStep ctl (encodeDenormal neg r) { de := de, ue := inexact, pe := inexact }

/-- R133 steps 8 to 12: a non-zero exact sum of sign `neg` and magnitude `mag`. -/
def roundStep (rm : RoundingMode) (ctl : FpControl) (pe de neg : Bool) (mag : Nat) : FmaResult :=
  let u := roundUnbounded rm neg mag
  if overflowMag ≤ u then overflowStep rm ctl pe de neg
  else if u < minNormalMag then tinyStep rm ctl pe de neg mag
  else precisionStep ctl (encodeNormal neg u) { de := de, pe := u != mag }

/-- R133 steps 6 to 12: finite operands. -/
def finiteStep (rm : RoundingMode) (ctl : FpControl) (pe de : Bool) (x y z : Word) : FmaResult :=
  let v := exactSum x y z
  if v = 0 then .value (signedZero (zeroSumSign rm x y z)) { de := de }
  else roundStep rm ctl pe de (decide (v < 0)) v.natAbs

/-- R133 steps 4 and 5 on: no NaN operand and no invalid operation. -/
def numericStep (rm : RoundingMode) (ctl : FpControl) (pe : Bool) (x y z : Word) : FmaResult :=
  let de := isDenormal x || isDenormal y || isDenormal z
  if de && !ctl.dm then .trap { de := true }
  else if isInf x || isInf y then .value (signedInf (productSign x y)) { de := de }
  else if isInf z then .value z { de := de }
  else finiteStep rm ctl pe de x y z

/-- R133 steps 2 on, DAZ having been applied. -/
def fnmaddRead (rm : RoundingMode) (ctl : FpControl) (pe : Bool) (x y z : Word) : FmaResult :=
  if isNaN x || isNaN y || isNaN z then nanResult ctl x y z
  else if invalidOp x y z then
    if ctl.im then .value qnanIndefinite { ie := true } else .trap { ie := true }
  else numericStep rm ctl pe x y z

/-- `FNMAdd64(x, y, z, rm, ctl)` of R133: `-(x*y) + z`. `pe` is the draw `TrapPEWithOU` (R147, D14). -/
def fnmadd64 (x y z : Word) (rm : RoundingMode) (ctl : FpControl) (pe : Bool) : FmaResult :=
  fnmaddRead rm ctl pe (applyDaz ctl x) (applyDaz ctl y) (applyDaz ctl z)

end Sys2Proof.Machine
end

