-- ==== Sys2Proof/Machine/Ops.lean ====
section
/-! DEFINITION. The shared operations over registers and memory: views and writes of registers, memory by
location, translation, the operand read of R55, the instruction fetch, the checks before an
instruction runs, raising an exception, and completing an instruction. -/

namespace Sys2Proof.Machine

/-! ## Registers -/

/-- `gpr[n]` (R20). -/
def State.gprAt (s : State) (n : GprNum) : Word := s.gpr[n.toNat]'n.isLt

/-- `vreg[n]`, all bits held (R24). -/
def State.vregAt (s : State) (n : VregNum) : BitVec 512 := s.vreg[n.toNat]'n.isLt

/-- `kreg[n]` (R29). -/
def State.kregAt (s : State) (n : KregNum) : BitVec 64 := s.kreg[n.toNat]'n.isLt

/-- XMM`n`, bits 127:0 (R25). -/
def State.xmm (s : State) (n : VregNum) : BitVec 128 := (s.vregAt n).extractLsb' 0 128

/-- YMM`n`, bits 255:0 (R25). -/
def State.ymm (s : State) (n : VregNum) : BitVec 256 := (s.vregAt n).extractLsb' 0 256

/-- ZMM`n`, bits 511:0 (R25). -/
def State.zmm (s : State) (n : VregNum) : BitVec 512 := s.vregAt n

/-- `vreg[n][63:0]`: the scalar element (R24). -/
def State.low (s : State) (n : VregNum) : Word := (s.vregAt n).extractLsb' 0 64

/-- The three ranges of R27: bits 63:0 receive `r`, bits 127:64 are kept, the bits above are zeroed. -/
def scalarWrite (old : BitVec 512) (r : Word) : BitVec 512 := (old.extractLsb' 64 64 ++ r).setWidth 512

/-- The write of the destination register (R27). -/
def State.writeScalar (s : State) (d : VregNum) (r : Word) : State :=
  { s with vreg := s.vreg.set d.toNat (scalarWrite (s.vregAt d) r) d.isLt }

/-! ## Memory by location -/

/-- The byte at a location, if the memory holds one. -/
def Memory.read : Memory → Nat → Option Byte
  | [], _ => none
  | c :: m, a => if c.1 = a then some c.2 else Memory.read m a

/-- One byte stored, keeping the locations in rising order. -/
def Memory.insert : Memory → Nat → Byte → Memory
  | [], a, b => [(a, b)]
  | c :: m, a, b =>
    if a < c.1 then (a, b) :: c :: m
    else if a = c.1 then (a, b) :: m
    else c :: Memory.insert m a b

/-- One byte stored at a location. No instruction in scope stores (R10, R51); the loader does. -/
def Memory.write (m : Memory) (loc : Word) (b : Byte) : Memory := m.insert loc.toNat b

/-- The canonical form: locations strictly rising, all below 2^64. -/
def Memory.wf : Memory → Bool
  | [] => true
  | [c] => c.1 < 2 ^ 64
  | c :: d :: m => c.1 < d.1 && Memory.wf (d :: m)

/-! ## Addresses and translation -/

/-- R57: bits 63:VA_BITS-1 are all equal. -/
def State.canonical (s : State) (a : Word) : Bool :=
  (a.setWidth s.params.vaBits.bits).signExtend 64 == a

/-- The error code of a #PF (R63): bit 1 is 0, bit 2 tells CPL = 3, bit 4 is 1 only for a fetch; the other
bits are what `Translate` gave (log 11). -/
def pfErrorCode (raw : BitVec 32) (access : Access) (cpl : BitVec 2) : BitVec 32 :=
  (raw &&& ~~~ 0x16#32) ||| (if cpl = 3#2 then 4#32 else 0#32) |||
    (match access with
      | .fetch => raw &&& 0x10#32
      | .dataRead => 0#32)

/-- Is the address in the entry's range? -/
def TransEntry.covers (e : TransEntry) (la : Word) : Bool :=
  decide (e.lo.toNat ≤ la.toNat) && decide (la.toNat ≤ e.hi.toNat)

/-- The right an entry gives to a kind of access. -/
def TransEntry.right (e : TransEntry) : Access → AccessRight
  | .dataRead => e.read
  | .fetch => e.fetch

/-- Where an entry puts an address, whatever the access (R53). -/
def TransEntry.location (e : TransEntry) (la : Word) : Word := e.base + (la - e.lo)

/-- `Translate(la, access, CPL)` (R63): a location, or the error code of a #PF. An address no entry covers
is not present, with I/D set for a fetch (log 11). -/
def State.translate (s : State) (la : Word) (access : Access) : Except (BitVec 32) Word :=
  match s.xlat.find? (·.covers la) with
  | none => .error (pfErrorCode 0x10#32 access s.cpl)
  | some e =>
    if (e.right access).levels.getLsbD s.cpl.toNat then .ok (e.location la)
    else .error (pfErrorCode (e.right access).code access s.cpl)

/-! ## Taking an exception -/

/-- The vector number (R200). -/
def Exception.vector : Exception → Nat
  | .ud => 6
  | .nm => 7
  | .ss => 12
  | .gp => 13
  | .pf _ _ => 14
  | .ac => 17
  | .xm => 19

/-- The error code, where there is one (R200). -/
def Exception.errorCode : Exception → Option (BitVec 32)
  | .ud => none
  | .nm => none
  | .ss => some 0
  | .gp => some 0
  | .pf code _ => some code
  | .ac => some 0
  | .xm => none

/-- What an exception records beside its error code: CR2 for a #PF (R200, R214). -/
def Exception.record (x : Exception) (s : State) : State :=
  match x with
  | .pf _ la => { s with cr2 := la }
  | .ud => s
  | .nm => s
  | .ss => s
  | .gp => s
  | .ac => s
  | .xm => s

/-- The outcome Fault(X, e) of R215, with the state of R214: `pc` and every register as they were. -/
def faultOf (x : Exception) (s : State) : Fault := .exception x (x.record s)

/-- `raise X(e)` (R215): the step ends there. The spec delivers no exception and has no return from one
(R6(c), R215, R216; log 1). -/
def raise (x : Exception) (s : State) : Host.Outcome State Fault Refusal := .fault (faultOf x s)

/-- A free value has been consumed (log 28). -/
def State.consumeDraw (s : State) : State := { s with draws := s.draws + 1 }

/-! ## The operand read -/

/-- One byte at a linear address: translated, then read where the memory holds it (R55 steps 3 and 4, U17). -/
def byteAt (la : Word) (access : Access) (s : State) : Except Fault Byte :=
  match s.translate la access with
  | .error code => .error (faultOf (.pf code la) s)
  | .ok loc =>
    match Memory.read s.mem loc.toNat with
    | none => .error (.outsideLaunchMemory la)
    | some b => .ok b

/-- The bytes at the addresses given, or the first stop among them. -/
def bytesAt (access : Access) (s : State) : List Word → Except Fault (List Byte)
  | [] => .ok []
  | a :: as =>
    match byteAt a access s with
    | .error f => .error f
    | .ok b =>
      match bytesAt access s as with
      | .error f => .error f
      | .ok bs => .ok (b :: bs)

/-- Little-endian assembly (R52): the first byte holds the lowest bits. -/
def leWord : List Byte → Word
  | [] => 0
  | b :: bs => (leWord bs <<< 8) ||| b.setWidth 64

/-- The 8 byte addresses of an operand (R52). -/
def operandAddrs (la : Word) : List Word := (List.range 8).map fun k => la + BitVec.ofNat 64 k

/-- R55 step 1: none of `la .. la+7` is non-canonical, and `la + 7` is below 2^64. -/
def State.canonicalOperand (s : State) (la : Word) : Bool :=
  decide (la.toNat + 7 < 2 ^ 64) && (operandAddrs la).all s.canonical

/-- Alignment checking is in force: CR0.AM, RFLAGS.AC and CPL = 3 (R59, R209). -/
def State.alignmentChecked (s : State) : Bool :=
  s.cr0.getLsbD 18 && s.rflags.getLsbD 18 && s.cpl == 3#2

/-- R55 step 2: alignment checking is in force and `la mod 8 != 0`. -/
def State.misaligned (s : State) (la : Word) : Bool :=
  s.alignmentChecked && la.toNat % 8 != 0

/-- The first of some data bytes that `Translate` denies: its error code and its address (R63). -/
def State.firstDenied (s : State) : List Word → Option (BitVec 32 × Word)
  | [] => none
  | a :: as =>
    match s.translate a .dataRead with
    | .error code => some (code, a)
    | .ok _ => s.firstDenied as

/-- Two addresses in the same page (R55, log 12). -/
def samePage (a b : Word) : Bool := a.toNat / Config.pageSize == b.toNat / Config.pageSize

/-- The page faults of an operand's lower and higher page (R55 step 3). -/
def State.pageFaults (s : State) (la : Word) : Option (BitVec 32 × Word) × Option (BitVec 32 × Word) :=
  (s.firstDenied ((operandAddrs la).filter (samePage la)),
    s.firstDenied ((operandAddrs la).filter fun a => !samePage la a))

/-- The page fault reported, and whether a free value chose it: when both pages fault, which one is a draw
(R55, R211, U11; log 14). -/
def State.pageFault (s : State) (la : Word) : Option (BitVec 32 × Word × Bool) :=
  match s.pageFaults la with
  | (none, none) => none
  | (some lo, none) => some (lo.1, lo.2, false)
  | (none, some hi) => some (hi.1, hi.2, false)
  | (some lo, some hi) =>
    if Config.drawHighPage s.draws then some (hi.1, hi.2, true) else some (lo.1, lo.2, true)

/-- R55 steps 2 and 3: the #AC or #PF of an operand. When both apply, which is reported is a draw (R211,
U11; log 13). -/
def accessFault (la : Word) (s : State) : Option Fault :=
  match s.pageFault la, s.misaligned la with
  | none, false => none
  | none, true => some (faultOf .ac s)
  | some (code, a, drawn), false =>
    some (faultOf (.pf code a) (if drawn then s.consumeDraw else s))
  | some (code, a, _), true =>
    if Config.drawAcOverPf s.draws then some (faultOf .ac s.consumeDraw)
    else some (faultOf (.pf code a) s.consumeDraw)

/-- `MemRead(la, 8)` (R55): canonical check, then #AC or #PF, then the bytes, little-endian. `stack` tells a
stack-segment access (R58). -/
def memRead (la : Word) (stack : Bool) (s : State) : Except Fault Word :=
  if s.canonicalOperand la then
    match accessFault la s with
    | some f => .error f
    | none =>
      match bytesAt .dataRead s (operandAddrs la) with
      | .error f => .error f
      | .ok bs => .ok (leWord bs)
  else .error (faultOf (if stack then .ss else .gp) s)

/-! ## The instruction fetch -/

/-- The instruction byte at `pc + k` (R53, R210 item 1): #GP(0) where that address is not canonical or
would be 2^64 or more (log 19), #PF(fetch code) where it cannot be fetched. -/
def fetchByte (k : Nat) (s : State) : Except Fault Byte :=
  if s.pc.toNat + k < 2 ^ 64 ∧ s.canonical (s.pc + BitVec.ofNat 64 k) = true then
    byteAt (s.pc + BitVec.ofNat 64 k) .fetch s
  else .error (faultOf .gp s)

/-- The bytes that can be fetched from `pc + k` on, at most `n`, and what stops the fetch before `n`. -/
def fetchFrom (s : State) : Nat → Nat → List Byte × Option Fault
  | _, 0 => ([], none)
  | k, n + 1 =>
    match fetchByte k s with
    | .error f => ([], some f)
    | .ok b => (b :: (fetchFrom s (k + 1) n).1, (fetchFrom s (k + 1) n).2)

/-- How many prefix bytes stand from `pc + k` on, of at most `n` bytes (R108 step 1). -/
def prefixRun (s : State) : Nat → Nat → Nat
  | _, 0 => 0
  | k, n + 1 =>
    match fetchByte k s with
    | .error _ => 0
    | .ok b => if (prefixOf b).isSome then prefixRun s (k + 1) n + 1 else 0

/-- The bytes the decoder is shown, or as many as can be fetched: every prefix, however many there are up to the end
of the address space (R108 step 1; log 17), and then the longest form, 11 bytes (R70, R71). -/
def fetchWindow (s : State) : List Byte × Option Fault :=
  fetchFrom s 0 (prefixRun s 0 (2 ^ 64 - s.pc.toNat) + 11)

/-- The instruction does not end within the bytes fetched: the fetch fault of the next byte (R210 item 1). There is
one: a window without a fault holds a whole instruction (`fetchWindow_stop`), so the other arm is never taken. -/
def fetchStop (stop : Option Fault) (s : State) : Host.Outcome State Fault Refusal :=
  match stop with
  | some f => .fault f
  | none => raise .gp s

/-! ## Before an instruction runs -/

/-- 64-bit mode (R34, R243): CR0.PE, CR0.PG, EFER.LMA and CS.L are 1, CS.D is 0. -/
def State.longMode (s : State) : Bool :=
  s.cr0.getLsbD 0 && s.cr0.getLsbD 31 && s.efer.getLsbD 10 && s.cs.l && !s.cs.d

/-- RFLAGS.TF = 1, or DR7 enables a breakpoint (R223, R243). -/
def State.debugArmed (s : State) : Bool :=
  s.rflags.getLsbD 8 || s.dr7.extractLsb' 0 8 != 0#8

/-- What puts the whole machine outside the spec (R6(b), R223, R243, D1, D18, U9). -/
def State.scopeRefusal (s : State) : Option Refusal :=
  if !s.longMode then some .notLongMode
  else if s.debugArmed then some .debugTrapArmed
  else if mxcsrReserved s.mxcsr != 0#16 then some .mxcsrReservedSet
  else none

/-- The feature flag a form needs (R2, R205). -/
def State.hasFeature (s : State) : EncKind → Bool
  | .vex => s.params.hasFMA
  | .evex => s.params.hasAVX512F

/-- The XCR0 bits a form needs (R205): bits 2:1, and for EVEX also bits 7:5. -/
def State.xcr0Enables (s : State) : EncKind → Bool
  | .vex => s.xcr0.extractLsb' 1 2 == 3#2
  | .evex => s.xcr0.extractLsb' 1 2 == 3#2 && s.xcr0.extractLsb' 5 3 == 7#3

/-- R205: the feature flag, CR4.OSXSAVE and XCR0 allow the form. -/
def State.enabled (s : State) (k : EncKind) : Bool :=
  s.hasFeature k && s.cr4.getLsbD 18 && s.xcr0Enables k

/-- R205 then R206: #UD when the form is not enabled, #NM when CR0.TS = 1. -/
def State.enableFault (s : State) (k : EncKind) : Option Exception :=
  if !s.enabled k then some .ud
  else if s.cr0.getLsbD 3 then some .nm
  else none

/-- R106: an instruction longer than 15 bytes raises #GP(0). If it is illegal or not enabled as well, whether
#UD or #GP(0) is reported is a draw (R210, U15; log 16). -/
def raiseTooLong (k : EncKind) (illegal : Bool) (s : State) : Host.Outcome State Fault Refusal :=
  if illegal || !s.enabled k then
    if Config.drawUdOverGp s.draws then raise .ud s.consumeDraw else raise .gp s.consumeDraw
  else raise .gp s

/-! ## After the arithmetic -/

/-- The state a SIMD trap leaves (R208): the flags OR-ed into MXCSR, nothing else. Each trap is offered one draw
(R147), which is then consumed. -/
def State.trapped (s : State) (f : FpFlags) : State :=
  { s with mxcsr := orFlags s.mxcsr f, draws := s.draws + 1 }

/-- R208: an unmasked SIMD floating-point exception: #XM, or #UD when CR4.OSXMMEXCPT = 0. -/
def raiseSimd (f : FpFlags) (s : State) : Host.Outcome State Fault Refusal :=
  raise (if s.cr4.getLsbD 10 then .xm else .ud) (s.trapped f)

/-- The state after an instruction (R160 step 8, R170 step 8): the destination written (R27), the flags OR-ed into
MXCSR (R32), `pc` advanced by the length (R23). -/
def State.completed (s : State) (d : VregNum) (r : Word) (f : FpFlags) (len : Nat) : State :=
  { s.writeScalar d r with
    mxcsr := orFlags s.mxcsr f
    pc := s.pc + BitVec.ofNat 64 len }

/-- The instruction completes. -/
def complete (d : VregNum) (r : Word) (f : FpFlags) (len : Nat) (s : State) :
    Host.Outcome State Fault Refusal := .next (s.completed d r f len)

end Sys2Proof.Machine
end

