-- ==== Sys2Proof/Machine/Operands.lean ====
section
/-! DEFINITION. The operands: effective addresses (R97 to R102), the linear address and its segment (R54, R58,
R79), operand 3 (R90, R96), and the order in which the mnemonic hands the operands to the arithmetic (R124). -/

namespace Sys2Proof.Machine

/-! ## Prefixes that bear on a memory operand -/

/-- The segment whose base is added to an address (R35, R79). -/
inductive SegOverride
  | fs | gs
  deriving DecidableEq, Repr

/-- The segment a prefix selects: the overrides other than 64H and 65H are ignored (R79). -/
def prefixSegment : LegacyPrefix → Option SegOverride
  | .fs => some .fs
  | .gs => some .gs
  | .es => none
  | .cs => none
  | .ss => none
  | .ds => none
  | .addrSize => none
  | .opSize => none
  | .repne => none
  | .rep => none
  | .lock => none
  | .rex _ => none

/-- R79: 64H or 65H, the last one wins. -/
def segOverride : List LegacyPrefix → Option SegOverride
  | [] => none
  | p :: ps => (segOverride ps).or (prefixSegment p)

/-- R100: 67H selects 32-bit address arithmetic. -/
def addrSize32 (pfx : List LegacyPrefix) : Bool := pfx.contains .addrSize

/-- The base added to the effective address (R54). -/
def State.segBase (s : State) : Option SegOverride → Word
  | none => 0
  | some .fs => s.fsBase
  | some .gs => s.gsBase

/-! ## Effective address -/

/-- A general register at the address size: `gpr[n]`, or `gpr[n][31:0]` under 67H (R21, R97, R100). -/
def State.addrReg (s : State) (w : Nat) (n : GprNum) : BitVec w := (s.gprAt n).setWidth w

/-- A displacement, sign-extended to the address size; an 8-bit one is multiplied by `n8`, which is 1 in a VEX
form and 8 in an EVEX form (R101, R102). -/
def dispValue (w : Nat) (n8 : Nat) : Disp → BitVec w
  | .none => 0
  | .d8 d => d.signExtend w * BitVec.ofNat w n8
  | .d32 d => d.signExtend w

/-- `IndexPart` of R99: register number 4 means no index. -/
def State.indexPart (s : State) (w : Nat) (index : GprNum) (scale : BitVec 2) : BitVec w :=
  if index = 4#4 then 0 else s.addrReg w index <<< scale.toNat

/-- The effective address at address size `w` (R97 to R100): sums modulo 2^w; `len` is the instruction's length
(R98). -/
def effAddrAt (w : Nat) (n8 : Nat) (len : Nat) (s : State) : MemAddr → BitVec w
  | .ripRel d => (s.pc + BitVec.ofNat 64 len + d.signExtend 64).setWidth w
  | .base b d => s.addrReg w b + dispValue w n8 d
  | .sib b i sc d => s.addrReg w b + s.indexPart w i sc + dispValue w n8 d
  | .sibNoBase i sc d => d.signExtend w + s.indexPart w i sc

/-- The effective address (R97), or with 67H the 32-bit one, zero-extended (R100). -/
def effAddr (pfx : List LegacyPrefix) (n8 : Nat) (len : Nat) (a : MemAddr) (s : State) : Word :=
  if addrSize32 pfx then (effAddrAt 32 n8 len s a).setWidth 64 else effAddrAt 64 n8 len s a

/-- The linear address (R54). -/
def linearAddr (pfx : List LegacyPrefix) (n8 : Nat) (len : Nat) (a : MemAddr) (s : State) : Word :=
  s.segBase (segOverride pfx) + effAddr pfx n8 len a s

/-- R58: the base register is RSP/ESP or RBP/EBP, after extension. -/
def MemAddr.stackBase : MemAddr → Bool
  | .ripRel _ => false
  | .base b _ => b == 4#4 || b == 5#4
  | .sib b _ _ _ => b == 4#4 || b == 5#4
  | .sibNoBase _ _ _ => false

/-- R58: a stack-segment access: no FS or GS override, and a stack base register. -/
def stackAccess (pfx : List LegacyPrefix) (a : MemAddr) : Bool :=
  (segOverride pfx).isNone && MemAddr.stackBase a

/-! ## Operand 3 -/

/-- The 8 bytes of a memory operand 3 (R51, R55). -/
def memOperand (pfx : List LegacyPrefix) (n8 : Nat) (len : Nat) (a : MemAddr) (s : State) :
    Except Fault Word :=
  memRead (linearAddr pfx n8 len a s) (stackAccess pfx a) s

/-- A VEX register number names one of registers 0 to 15 (R26). -/
def vexReg (n : BitVec 4) : VregNum := n.setWidth 5

/-- `SRC3[63:0]` of a VEX form (R160 step 4): 8-bit displacements are not scaled (R101). -/
def readVexSrc3 (o : VexOperands) (s : State) : Except Fault Word :=
  match o.src3 with
  | .reg n => .ok (s.low (vexReg n))
  | .mem a => memOperand o.pfx 1 o.length a s

/-- `SRC3[63:0]` of an EVEX form (R170 step 4): 8-bit displacements are multiplied by 8 (R101). -/
def readEvexSrc3 (o : EvexOperands) (s : State) : Except Fault Word :=
  match o.src3 with
  | .reg n _ => .ok (s.low n)
  | .mem a _ => memOperand o.pfx 8 o.length a s

/-- The embedded rounding mode, where there is one (R94, R171). -/
def embeddedRounding (o : EvexOperands) : Option RoundingMode :=
  match o.src3 with
  | .reg _ er => er
  | .mem _ _ => none

/-- The mask bit of R170 step 5: 1 with no write mask, else bit 0 of the register aaa names (R30). -/
def maskBit (o : EvexOperands) (s : State) : Bool :=
  if o.mask = 0#3 then true else (s.kregAt o.mask).getLsbD 0

/-! ## Roles -/

/-- The arguments of `FNMAdd64`: multiplicand, multiplier, addend (R123). -/
structure FmaArgs where
  x : Word
  y : Word
  z : Word
  deriving DecidableEq, Repr

/-- R124: which of the operands 1, 2, 3 (`a`, `b`, `c`) is multiplicand, multiplier and addend. -/
def roles (ord : FmaOrder) (a b c : Word) : FmaArgs :=
  match ord with
  | .o132 => ⟨a, c, b⟩
  | .o213 => ⟨b, a, c⟩
  | .o231 => ⟨b, c, a⟩

/-! ## Views of an instruction -/

/-- Which enable conditions an instruction is under (R205). -/
def kindOf : Instr → EncKind
  | .vfnmadd132sdVex _ => .vex
  | .vfnmadd213sdVex _ => .vex
  | .vfnmadd231sdVex _ => .vex
  | .vfnmadd132sdEvex _ => .evex
  | .vfnmadd213sdEvex _ => .evex
  | .vfnmadd231sdEvex _ => .evex

/-- The destination register, operand 1 (R88). -/
def destOf : Instr → VregNum
  | .vfnmadd132sdVex o => vexReg o.dst
  | .vfnmadd213sdVex o => vexReg o.dst
  | .vfnmadd231sdVex o => vexReg o.dst
  | .vfnmadd132sdEvex o => o.dst
  | .vfnmadd213sdEvex o => o.dst
  | .vfnmadd231sdEvex o => o.dst

/-- `SRC3[63:0]`, or the fault its read raises. -/
def src3Of (s : State) : Instr → Except Fault Word
  | .vfnmadd132sdVex o => readVexSrc3 o s
  | .vfnmadd213sdVex o => readVexSrc3 o s
  | .vfnmadd231sdVex o => readVexSrc3 o s
  | .vfnmadd132sdEvex o => readEvexSrc3 o s
  | .vfnmadd213sdEvex o => readEvexSrc3 o s
  | .vfnmadd231sdEvex o => readEvexSrc3 o s

/-- The memory operand 3, if the form has one (R51, R96). -/
def memOf : Instr → Option MemAddr
  | .vfnmadd132sdVex o => vexMem o
  | .vfnmadd213sdVex o => vexMem o
  | .vfnmadd231sdVex o => vexMem o
  | .vfnmadd132sdEvex o => evexMem o
  | .vfnmadd213sdEvex o => evexMem o
  | .vfnmadd231sdEvex o => evexMem o
where
  vexMem (o : VexOperands) : Option MemAddr :=
    match o.src3 with
    | .reg _ => none
    | .mem a => some a
  evexMem (o : EvexOperands) : Option MemAddr :=
    match o.src3 with
    | .reg _ _ => none
    | .mem a _ => some a

/-- What an 8-bit displacement is multiplied by (R101). -/
def dispScale : EncKind → Nat
  | .vex => 1
  | .evex => 8

/-- The linear address of an instruction's memory operand `a` (R54). -/
def linearAddrOf (i : Instr) (a : MemAddr) (s : State) : Word :=
  linearAddr i.pfx (dispScale (kindOf i)) i.length a s

end Sys2Proof.Machine
end

