-- ==== Sys2Proof/Machine/Evex.lean ====
section
/-! DEFINITION. The EVEX-encoded forms (42_vfnmadd_sd_evex.md): write mask, zeroing, embedded rounding. -/

namespace Sys2Proof.Machine

/-- R170 step 6 (R171): the rounding mode. -/
def evexRounding (o : EvexOperands) (s : State) : RoundingMode :=
  match embeddedRounding o with
  | some rm => rm
  | none => mxcsrRounding s.mxcsr

/-- R170 steps 6 and 7 (R149, R172): the controls; embedded rounding suppresses all exceptions. -/
def evexControl (o : EvexOperands) (s : State) : FpControl :=
  match embeddedRounding o with
  | some _ => saeControl s.mxcsr
  | none => mxcsrControl s.mxcsr

/-- What `FNMAdd64` computes for an EVEX form whose operand 3 holds `c` (R170 steps 4 to 7). -/
def evexResult (ord : FmaOrder) (o : EvexOperands) (c : Word) (s : State) : FmaResult :=
  let p := roles ord (s.low o.dst) (s.low o.src2) c
  fnmadd64 p.x p.y p.z (evexRounding o s) (evexControl o s) (Config.drawTrapPE s.draws)

/-- R170 step 7: the flags OR-ed into MXCSR; none under suppress-all-exceptions (R172). -/
def evexFlags (o : EvexOperands) (f : FpFlags) : FpFlags :=
  match embeddedRounding o with
  | some _ => {}
  | none => f

/-- R170 step 7, mask bit 0 (R173): zeroing or merging; MXCSR is unchanged. -/
def evexMaskedOff (o : EvexOperands) (s : State) : Host.Outcome State Fault Refusal :=
  complete o.dst (if o.zeroing then 0 else s.low o.dst) {} o.length s

/-- R170 steps 2 to 8. Operand 3 is read, and may fault, also when the element is masked off (R174, D13,
`MASKED_OFF_MEM_FAULTS` = true; log 24). -/
def execEvex (ord : FmaOrder) (o : EvexOperands) (s : State) : Host.Outcome State Fault Refusal :=
  match s.scopeRefusal with
  | some r => .refused r
  | none =>
    match s.enableFault .evex with
    | some x => raise x s
    | none =>
      match readEvexSrc3 o s with
      | .error f => .fault f
      | .ok c =>
        if maskBit o s then
          match evexResult ord o c s with
          | .trap f => raiseSimd f s
          | .value r f => complete o.dst r (evexFlags o f) o.length s
        else evexMaskedOff o s

/-- VFNMADD132SD, EVEX (R175): `-(op1 * op3) + op2`. -/
def execVfnmadd132sdEvex (o : EvexOperands) (s : State) : Host.Outcome State Fault Refusal :=
  execEvex .o132 o s

/-- VFNMADD213SD, EVEX (R176): `-(op2 * op1) + op3`. -/
def execVfnmadd213sdEvex (o : EvexOperands) (s : State) : Host.Outcome State Fault Refusal :=
  execEvex .o213 o s

/-- VFNMADD231SD, EVEX (R177): `-(op2 * op3) + op1`. -/
def execVfnmadd231sdEvex (o : EvexOperands) (s : State) : Host.Outcome State Fault Refusal :=
  execEvex .o231 o s

end Sys2Proof.Machine
end

