-- ==== Sys2Proof/Machine/Vex.lean ====
section
/-! DEFINITION. The VEX-encoded forms (41_vfnmadd_sd_vex.md). -/

namespace Sys2Proof.Machine

/-- What `FNMAdd64` computes for a VEX form whose operand 3 holds `c` (R160 steps 4 to 6). -/
def vexResult (ord : FmaOrder) (o : VexOperands) (c : Word) (s : State) : FmaResult :=
  let p := roles ord (s.low (vexReg o.dst)) (s.low (vexReg o.src2)) c
  fnmadd64 p.x p.y p.z (mxcsrRounding s.mxcsr) (mxcsrControl s.mxcsr) (Config.drawTrapPE s.draws)

/-- R160 steps 2 to 8. -/
def execVex (ord : FmaOrder) (o : VexOperands) (s : State) : Host.Outcome State Fault Refusal :=
  match s.scopeRefusal with
  | some r => .refused r
  | none =>
    match s.enableFault .vex with
    | some x => raise x s
    | none =>
      match readVexSrc3 o s with
      | .error f => .fault f
      | .ok c =>
        match vexResult ord o c s with
        | .trap f => raiseSimd f s
        | .value r f => complete (vexReg o.dst) r f o.length s

/-- VFNMADD132SD, VEX (R161): `-(op1 * op3) + op2`. -/
def execVfnmadd132sdVex (o : VexOperands) (s : State) : Host.Outcome State Fault Refusal :=
  execVex .o132 o s

/-- VFNMADD213SD, VEX (R162): `-(op2 * op1) + op3`. -/
def execVfnmadd213sdVex (o : VexOperands) (s : State) : Host.Outcome State Fault Refusal :=
  execVex .o213 o s

/-- VFNMADD231SD, VEX (R163): `-(op2 * op3) + op1`. -/
def execVfnmadd231sdVex (o : VexOperands) (s : State) : Host.Outcome State Fault Refusal :=
  execVex .o231 o s

end Sys2Proof.Machine
end

