-- ==== Sys2Proof/Machine/Dispatch.lean ====
section
/-! DEFINITION. One arm per instruction. -/

namespace Sys2Proof.Machine

def exec (i : Instr) (s : State) : Host.Outcome State Fault Refusal :=
  match i with
  | .vfnmadd132sdVex o => Sys2Proof.Machine.execVfnmadd132sdVex o s
  | .vfnmadd213sdVex o => Sys2Proof.Machine.execVfnmadd213sdVex o s
  | .vfnmadd231sdVex o => Sys2Proof.Machine.execVfnmadd231sdVex o s
  | .vfnmadd132sdEvex o => Sys2Proof.Machine.execVfnmadd132sdEvex o s
  | .vfnmadd213sdEvex o => Sys2Proof.Machine.execVfnmadd213sdEvex o s
  | .vfnmadd231sdEvex o => Sys2Proof.Machine.execVfnmadd231sdEvex o s

end Sys2Proof.Machine
end

