-- ==== Sys2Proof/Machine/Launch.lean ====
section
/-! DEFINITION. The launch of a run (R243, R244) and the load of its program text: no in-scope instruction can
establish them, so they come from outside the machine (log 3). -/

namespace Sys2Proof.Machine

/-- The premises of R243 and the enables of R244 on a state: 64-bit mode, no debug trap, OSXSAVE and
OSXMMEXCPT set, CR0.TS clear, XCR0 bit 0 and the bits of both kinds of form, MXCSR bits 31:16 clear, and `pc` at the
launch address 0. DESIGN CHOICE: the address, and that CR4.PAE and EFER.LME, which R241 names on the way to 64-bit mode
and R243 gives no value for, are left as they were (log 3). -/
def State.launch (s : State) : State :=
  { s with
    cr0 := (s.cr0 ||| 0x80000001#64) &&& ~~~ 0x8#64
    cr4 := s.cr4 ||| 0x40400#64
    efer := s.efer ||| 0x400#64
    xcr0 := s.xcr0 ||| 0xE7#64
    cs := { s.cs with l := true, d := false }
    rflags := s.rflags &&& ~~~ 0x100#64
    dr7 := s.dr7 &&& ~~~ 0xFF#64
    mxcsr := s.mxcsr &&& 0xFFFF#32
    pc := 0 }

/-- Room for the longest instruction, 15 bytes (R106), at canonical addresses from `pc` on. -/
def State.textRoom (s : State) : Bool :=
  decide (s.pc.toNat + 15 ≤ 2 ^ 64) &&
    (List.range 15).all fun k => s.canonical (s.pc + BitVec.ofNat 64 k)

/-- The state as it is where a run can go on from it, else launched. -/
def State.launchedForText (s : State) : State :=
  if s.scopeRefusal.isNone && s.textRoom then s else s.launch

/-- Bytes stored at rising locations. -/
def Memory.load (m : Memory) (loc : Word) : List Byte → Memory
  | [] => m
  | b :: bs => Memory.load (Memory.write m loc b) (loc + 1) bs

/-- Program text at `pc` (R67, R243): those addresses are mapped to the locations of the same number, for fetches and
reads alike (R53), and the bytes stored there (log 3). -/
def State.loadText (s : State) (bs : List Byte) : State :=
  { s with
    xlat := ⟨s.pc, s.pc + BitVec.ofNat 64 (bs.length - 1), s.pc, .all, .all⟩ :: s.xlat
    mem := Memory.load s.mem s.pc bs }

end Sys2Proof.Machine
end

