-- ==== Sys2Proof/Machine/Step.lean ====
section
/-! DEFINITION. One step (R16): the scope, the fetch, the decoder's verdict, the instruction. -/

namespace Sys2Proof.Machine

/-- One step of the machine (R16, R108, R210). -/
def step (s : State) : Host.Outcome State Fault Refusal :=
  match s.scopeRefusal with
  | some r => .refused r
  | none =>
    match decode (fetchWindow s).1 with
    | .form i => exec i s
    | .ud => raise .ud s
    | .tooLong k illegal => raiseTooLong k illegal s
    | .refused why => .refused (.otherInstruction why)
    | .truncated => fetchStop (fetchWindow s).2 s

/-- The machine with an opcode-table word as its next instruction (R243; log 3): launched first unless it is in
scope with room at `pc`, then the 15 bytes stored where the fetch reads them. -/
def State.withFetchWord (s : State) (nbits w : Nat) : State :=
  s.launchedForText.loadText (tableBytes nbits w)

end Sys2Proof.Machine
end

