-- ==== Sys2Proof/Safety.lean ====
section
/-! DEFINITION. What counts as a safe run, in the terms the statements use: legal states, reachable states, how a
run ends (R248), what it means that an instruction completes, and the real numbers that patterns stand for. -/

namespace Sys2Proof.Machine

/-! ## Legal states -/

/-- What the spec says holds of a machine whatever it runs: bits that do not exist read as 0. -/
structure State.Legal (s : State) : Prop where
  /-- The memory is in its canonical form. -/
  memory : Memory.wf s.mem = true
  /-- R7: MAXVL is 512 whenever AVX512F is present. -/
  parameters : s.params.legal = true
  /-- R24: a vector register is MAXVL bits wide. -/
  vectorWidth : ∀ n, s.vregAt n >>> s.params.maxvl.bits = 0
  /-- R7, R25: NVREG vector registers exist. -/
  vectorCount : ∀ n, s.params.nvreg ≤ n.toNat → s.vregAt n = 0
  /-- R29: an opmask register is KL bits wide. -/
  opmaskWidth : ∀ n, s.kregAt n >>> s.params.kl.bits = 0
  /-- R29: opmask registers exist only with AVX512F. -/
  opmaskCount : s.params.hasAVX512F = false → ∀ n, s.kregAt n = 0
  /-- R31: MXCSR bits 31:16 read 0. -/
  mxcsrReserved : mxcsrReserved s.mxcsr = 0

/-- One state leads to another by steps that answer next. -/
inductive Reaches : State → State → Prop
  | refl (s : State) : Reaches s s
  | step {s t u : State} : Reaches s t → Machine.step t = .next u → Reaches s u

/-! ## The end of a run (R248) -/

/-- How a run ends: at the end address of the program text, with a fault, with a refusal; or it is still going. -/
inductive RunEnd
  | completed (s : State)
  | faulted (f : Fault)
  | refused (r : Refusal)
  | running (s : State)
  deriving DecidableEq, Repr

/-- At most `n` steps towards the end address (R248, D23). -/
def runTo (endAddr : Word) : Nat → State → RunEnd
  | 0, s => if s.pc = endAddr then .completed s else .running s
  | n + 1, s =>
    if s.pc = endAddr then .completed s
    else
      match step s with
      | .next t => runTo endAddr n t
      | .fault f => .faulted f
      | .refused r => .refused r

/-! ## Completion -/

/-- The state may run a form of this kind (R205, R206, R243): in scope, enabled, CR0.TS = 0. -/
structure State.Ready (s : State) (k : EncKind) : Prop where
  scope : s.scopeRefusal = none
  enabled : s.enabled k = true
  available : s.cr0.getLsbD 3 = false

/-- `t` is `s` after an instruction that delivered `r` to register `d` with flags `f` and length `len`: the three
ranges of R27, the sticky flags of R32, the advance of R23, and nothing else. -/
structure Completion (d : VregNum) (r : Word) (f : BitVec 6) (len : Nat) (s t : State) : Prop where
  low : t.low d = r
  high : (t.vregAt d).extractLsb' 64 64 = (s.vregAt d).extractLsb' 64 64
  upper : t.vregAt d >>> 128 = 0
  others : ∀ n, n ≠ d → t.vregAt n = s.vregAt n
  mxcsr : t.mxcsr = s.mxcsr ||| f.setWidth 32
  pc : t.pc = s.pc + BitVec.ofNat 64 len
  rest : t = { s with vreg := t.vreg, mxcsr := t.mxcsr, pc := t.pc }

/-- The bytes that can be fetched at `pc` begin with `bs`. -/
def TextAt (s : State) (bs : List Byte) : Prop :=
  ∀ k, (h : k < bs.length) → fetchByte k s = .ok bs[k]

/-- The 8 bytes of an operand can be read and are `b` (R55): canonical, not an alignment fault, translated, and
held by the memory. -/
structure OperandReadable (la : Word) (b : Fin 8 → Byte) (s : State) : Prop where
  canonical : s.canonicalOperand la = true
  aligned : s.misaligned la = false
  mapped : ∀ k : Fin 8, ∃ loc,
    s.translate (la + BitVec.ofNat 64 k) .dataRead = .ok loc ∧ Memory.read s.mem loc.toNat = some (b k)

/-- Operand 3 of a VEX form holds `c` (R160 step 4): a register's bits 63:0, or 8 readable bytes at the linear address
with an unscaled 8-bit displacement. -/
def VexOperand3 (o : VexOperands) (c : Word) (s : State) : Prop :=
  match o.src3 with
  | .reg n => c = s.low (vexReg n)
  | .mem a => ∃ b, OperandReadable (linearAddr o.pfx 1 o.length a s) b s ∧ c = leWord (List.ofFn b)

/-- Operand 3 of an EVEX form holds `c` (R170 step 4): as above, an 8-bit displacement being multiplied by 8. -/
def EvexOperand3 (o : EvexOperands) (c : Word) (s : State) : Prop :=
  match o.src3 with
  | .reg n _ => c = s.low n
  | .mem a _ => ∃ b, OperandReadable (linearAddr o.pfx 8 o.length a s) b s ∧ c = leWord (List.ofFn b)

/-- The registers an instruction reads as operands 1, 2 and 3 (R88 to R90). -/
def operandRegs : Instr → List VregNum
  | .vfnmadd132sdVex o => vexRegs o
  | .vfnmadd213sdVex o => vexRegs o
  | .vfnmadd231sdVex o => vexRegs o
  | .vfnmadd132sdEvex o => evexRegs o
  | .vfnmadd213sdEvex o => evexRegs o
  | .vfnmadd231sdEvex o => evexRegs o
where
  vexRegs (o : VexOperands) : List VregNum :=
    match o.src3 with
    | .reg n => [vexReg o.dst, vexReg o.src2, vexReg n]
    | .mem _ => [vexReg o.dst, vexReg o.src2]
  evexRegs (o : EvexOperands) : List VregNum :=
    match o.src3 with
    | .reg n _ => [o.dst, o.src2, n]
    | .mem _ _ => [o.dst, o.src2]

/-! ## Comparing outcomes -/

/-- An outcome with another view of every state in it: the next state and the state an exception carries. -/
def onStates (g : State → State) : Host.Outcome State Fault Refusal → Host.Outcome State Fault Refusal
  | .next t => .next (g t)
  | .fault (.exception x t) => .fault (.exception x (g t))
  | .fault (.outsideLaunchMemory la) => .fault (.outsideLaunchMemory la)
  | .refused r => .refused r

/-- An outcome whose next state alone is changed. -/
def onNext (g : State → State) : Host.Outcome State Fault Refusal → Host.Outcome State Fault Refusal
  | .next t => .next (g t)
  | .fault f => .fault f
  | .refused r => .refused r

/-- What follows the prefixes begins none of the six encodings (R108 steps 2 to 4, R110): another instruction or nothing
the spec knows of. -/
inductive Neighbour : List Byte → DecodeRefusal → Prop
  /-- R108 step 2: any byte that is no prefix and neither C4H nor 62H, the two-byte VEX prefix C5H of R73 among them. -/
  | otherFirst (b : Byte) (rest : List Byte) (hp : prefixOf b = none) (h : b ≠ 0xC4#8 ∧ b ≠ 0x62#8) :
      Neighbour (b :: rest) .notVexEvex
  /-- R75: another map, pp or W of VEX. -/
  | vexPayload (b1 b2 : Byte) (rest : List Byte)
      (h : b1.extractLsb' 0 5 ≠ 2#5 ∨ b2.extractLsb' 0 2 ≠ 1#2 ∨ b2.getLsbD 7 = false) :
      Neighbour (0xC4#8 :: b1 :: b2 :: rest) .otherVex
  /-- R78: another map, pp or W of EVEX, the reserved bits being right. -/
  | evexPayload (p0 p1 p2 : Byte) (rest : List Byte)
      (hr : p0.extractLsb' 2 2 = 0#2 ∧ p1.getLsbD 2 = true)
      (h : p0.extractLsb' 0 2 ≠ 2#2 ∨ p1.extractLsb' 0 2 ≠ 1#2 ∨ p1.getLsbD 7 = false) :
      Neighbour (0x62#8 :: p0 :: p1 :: p2 :: rest) .otherEvex
  /-- R110: another opcode of the map, VEX. -/
  | vexOpcode (b1 b2 op : Byte) (rest : List Byte)
      (hp : b1.extractLsb' 0 5 = 2#5 ∧ b2.extractLsb' 0 2 = 1#2 ∧ b2.getLsbD 7 = true)
      (h : op ≠ 0x9D#8 ∧ op ≠ 0xAD#8 ∧ op ≠ 0xBD#8) :
      Neighbour (0xC4#8 :: b1 :: b2 :: op :: rest) .otherOpcode
  /-- R110: another opcode of the map, EVEX. -/
  | evexOpcode (p0 p1 p2 op : Byte) (rest : List Byte)
      (hp : p0.extractLsb' 0 4 = 2#4 ∧ p1.extractLsb' 0 3 = 5#3 ∧ p1.getLsbD 7 = true)
      (h : op ≠ 0x9D#8 ∧ op ≠ 0xAD#8 ∧ op ≠ 0xBD#8) :
      Neighbour (0x62#8 :: p0 :: p1 :: p2 :: op :: rest) .otherOpcode

/-! ## Bits of an encoding that name nothing -/

/-- The ignored extension bits of a memory operand, in the byte after C4H or 62H: X (bit 6) without an index and B
(bit 5) without a base register (R97, R99, R109). -/
def ignoredMemBits : MemAddr → Byte
  | .ripRel _ => 0x60#8
  | .base _ _ => 0x40#8
  | .sib _ _ _ _ => 0#8
  | .sibNoBase _ _ _ => 0x20#8

/-- The same of operand 3 of a VEX form: the register form reads no X (R90). -/
def ignoredVexBits : VexSrc3 → Byte
  | .reg _ => 0x40#8
  | .mem a => ignoredMemBits a

/-- The same of operand 3 of an EVEX form: the register form reads both (R90). -/
def ignoredEvexBits : EvexSrc3 → Byte
  | .reg _ _ => 0#8
  | .mem a _ => ignoredMemBits a

/-- The ignored bits of an instruction's encoding, byte by byte (R74, R77, R90, R97, R109): VEX.L, VEX.X of a register
form, EVEX.L'L without embedded rounding, and those of a memory operand. -/
def ignoredBits : Instr → List Byte
  | .vfnmadd132sdVex o => vexIgnored o
  | .vfnmadd213sdVex o => vexIgnored o
  | .vfnmadd231sdVex o => vexIgnored o
  | .vfnmadd132sdEvex o => evexIgnored o
  | .vfnmadd213sdEvex o => evexIgnored o
  | .vfnmadd231sdEvex o => evexIgnored o
where
  vexIgnored (o : VexOperands) : List Byte :=
    o.pfx.map (fun _ => 0#8) ++
      [0#8, ignoredVexBits o.src3, 4#8, 0#8, 0#8] ++
      List.replicate o.src3.tailBytes 0#8
  evexIgnored (o : EvexOperands) : List Byte :=
    o.pfx.map (fun _ => 0#8) ++
      [0#8, ignoredEvexBits o.src3, 0#8, (if (embeddedRounding o).isSome then 0#8 else 0x60#8), 0#8, 0#8] ++
      List.replicate o.src3.tailBytes 0#8

/-- Two byte strings of one length that differ at most in the bits of a mask of that length. -/
def SameUpTo : List Byte → List Byte → List Byte → Prop
  | [], [], [] => True
  | m :: ms, a :: as, b :: bs => a &&& ~~~ m = b &&& ~~~ m ∧ SameUpTo ms as bs
  | _, _, _ => False

/-! ## The arithmetic's outcomes -/

/-- Every SIMD floating-point exception is masked. -/
def FpControl.AllMasked (c : FpControl) : Prop :=
  c.im = true ∧ c.dm = true ∧ c.om = true ∧ c.um = true ∧ c.pm = true

/-- The flags an evaluation reports, with its value or with its trap. -/
def FmaResult.flags : FmaResult → FpFlags
  | .value _ f => f
  | .trap f => f

/-- `i` delivers `FNMAdd64(x, y, z, rm, ctl)`: it completes wherever that is a value, with the flags `keep` of it, and
with every exception masked that is a value. -/
def Computes (i : Instr) (x y z : Word) (rm : RoundingMode) (ctl : FpControl) (keep : FpFlags → FpFlags)
    (s : State) : Prop :=
  (∀ r f, fnmadd64 x y z rm ctl (Config.drawTrapPE s.draws) = .value r f →
    ∃ t, exec i s = .next t ∧ Completion (destOf i) r (keep f).bits i.length s t) ∧
  (ctl.AllMasked → ∃ r f, fnmadd64 x y z rm ctl (Config.drawTrapPE s.draws) = .value r f)

/-- `i` takes the trap of `FNMAdd64(x, y, z, rm, ctl)` (R208): wherever that is a trap, #XM, or #UD with
CR4.OSXMMEXCPT = 0, is raised with its flags OR-ed into MXCSR, and nothing else of the spec's state changes. -/
def TrapsAs (i : Instr) (x y z : Word) (rm : RoundingMode) (ctl : FpControl) (s : State) : Prop :=
  ∀ f, fnmadd64 x y z rm ctl (Config.drawTrapPE s.draws) = .trap f →
    ∃ t, exec i s = .fault (.exception (if s.cr4.getLsbD 10 then .xm else .ud) t) ∧
      t.mxcsr = s.mxcsr ||| f.bits.setWidth 32 ∧ t = { s with mxcsr := t.mxcsr, draws := t.draws }

/-! ## Real values (R120) -/

/-- The real value of a finite pattern, by the table of R120. -/
def realValue (w : Word) : ℚ :=
  (if fSign w then -1 else 1) *
    (if fExp w = 0 then (fFrac w : ℚ) * 2 ^ (-1074 : ℤ)
     else (2 ^ 52 + (fFrac w : ℚ)) * 2 ^ ((fExp w : ℤ) - 1075))

/-- `-(X*Y) + Z` as a real number (R133 step 6). -/
def exactReal (x y z : Word) : ℚ := -(realValue x * realValue y) + realValue z

/-- The finite pattern `r` is `v` rounded in the mode `rm` to the finite patterns (R122): the nearest one, ties to
the even fraction, or the neighbour on the side the mode names. -/
def RoundsTo (rm : RoundingMode) (v : ℚ) (r : Word) : Prop :=
  match rm with
  | .rn => ∀ w, isFinite w = true → |realValue r - v| ≤ |realValue w - v| ∧
      (realValue w ≠ realValue r → |realValue w - v| = |realValue r - v| → r.getLsbD 0 = false)
  | .rd => realValue r ≤ v ∧ ∀ w, isFinite w = true → realValue w ≤ v → realValue w ≤ realValue r
  | .ru => v ≤ realValue r ∧ ∀ w, isFinite w = true → v ≤ realValue w → realValue r ≤ realValue w
  | .rz => |realValue r| ≤ |v| ∧ 0 ≤ realValue r * v ∧
      ∀ w, isFinite w = true → |realValue w| ≤ |v| → |realValue w| ≤ |realValue r|

/-- The rounding of `v` to 53 significant bits with no limit on the exponent reaches 2^1024 (R143), told by the
threshold of each mode: 2^1024 - 2^970 is half way from MaxFinite to 2^1024, and a tie goes to the even 2^1024. -/
def OverflowsReal (rm : RoundingMode) (v : ℚ) : Prop :=
  match rm with
  | .rn => 2 ^ 1024 - 2 ^ 970 ≤ |v|
  | .rz => 2 ^ 1024 ≤ |v|
  | .ru => 2 ^ 1024 - 2 ^ 971 < v ∨ v ≤ -2 ^ 1024
  | .rd => 2 ^ 1024 ≤ v ∨ v < -(2 ^ 1024 - 2 ^ 971)

/-- `v` is non-zero and its rounding to 53 significant bits with no limit on the exponent is below 2^-1022 in
magnitude (R144), told by the threshold of each mode: the 53-bit numbers below 2^-1022 are 2^-1075 apart. -/
def TinyReal (rm : RoundingMode) (v : ℚ) : Prop :=
  v ≠ 0 ∧
    match rm with
    | .rn => |v| < 2 ^ (-1022 : ℤ) - 2 ^ (-1076 : ℤ)
    | .rz => |v| < 2 ^ (-1022 : ℤ)
    | .ru => v ≤ 2 ^ (-1022 : ℤ) - 2 ^ (-1075 : ℤ) ∧ -2 ^ (-1022 : ℤ) < v
    | .rd => v < 2 ^ (-1022 : ℤ) ∧ -(2 ^ (-1022 : ℤ) - 2 ^ (-1075 : ℤ)) ≤ v

/-! ## Operands as the arithmetic reads them (R134) -/

/-- A zero, or with DAZ a denormal. -/
def readsAsZero (ctl : FpControl) (w : Word) : Prop :=
  isZero w = true ∨ (ctl.daz = true ∧ isDenormal w = true)

/-- One of the operands is denormal and DAZ does not hide it: the condition of DE (R139). -/
def denormalOperand (ctl : FpControl) (x y z : Word) : Bool :=
  !ctl.daz && (isDenormal x || isDenormal y || isDenormal z)

/-- DE is masked or does not arise. -/
def denormalPasses (ctl : FpControl) (x y z : Word) : Prop :=
  denormalOperand ctl x y z = true → ctl.dm = true

end Sys2Proof.Machine
end

