-- ==== Sys2Proof/Certificates/Slice0/Obligations.lean ====
section
/-! DEFINITION. The statements for the provers. Each docstring names the rules of spec/ it formalises. A statement that
rests on a free value of Config says the same whatever that value is. -/

section

open Sys2Proof Sys2Proof.Machine

/-! ## Reset and launch -/

/-- R38, R240 to R242: the machine right after reset, for everything those rules give a value. -/
def Obligations.ResetState : Prop :=
  let s := State.reset
  s.mxcsr = 0x1F80#32 ∧ (∀ n, s.vregAt n = 0) ∧ (∀ n, s.kregAt n = 0) ∧ (∀ n, n ≠ 2#4 → s.gprAt n = 0) ∧
    s.pc = 0xFFF0#64 ∧ s.cs.selector = 0xF000#16 ∧ s.cs.base = 0xFFFF0000#64 ∧ s.cr0 = 0x60000010#64 ∧
    s.cr4 = 0 ∧ s.efer = 0 ∧ s.xcr0 = 1 ∧ s.rflags = 2 ∧ s.fsBase = 0 ∧ s.gsBase = 0 ∧ s.cpl = 0

/-- The state after reset is legal: see `StepKeepsLegal`. Its parameters are the model's choice (log 6). -/
def Obligations.ResetIsLegal : Prop := State.Legal State.reset

/-- R7, R24, R25, R29, R31: register bits and registers that do not exist read 0, MXCSR bits 31:16 read 0 and the
memory stays canonical, through every step from every state that has these properties. -/
def Obligations.StepKeepsLegal : Prop :=
  ∀ s t, s.Legal → step s = .next t → t.Legal

/-- R243, R244: a launched state meets the premises, a canonical `pc` and XCR0 bit 0 = 1 among them, enables every form
whose feature is there, delivers SIMD exceptions as #XM, and keeps the registers and the memory. The launch and its
address are the model's choice (log 3); 64-bit mode and the debug premise rest on bit places taken from the family
(PRESUMED, log 8). -/
def Obligations.LaunchMeetsPremises : Prop :=
  ∀ s : State,
    s.launch.longMode = true ∧ s.launch.debugArmed = false ∧ mxcsrReserved s.launch.mxcsr = 0 ∧
      s.launch.canonical s.launch.pc = true ∧ s.launch.xcr0.getLsbD 0 = true ∧
      (∀ k, s.hasFeature k = true → s.launch.Ready k) ∧ s.launch.cr4.getLsbD 10 = true ∧
      s.launch.gpr = s.gpr ∧ s.launch.vreg = s.vreg ∧ s.launch.kreg = s.kreg ∧ s.launch.mem = s.mem ∧
      s.launch.mxcsr.extractLsb' 0 16 = s.mxcsr.extractLsb' 0 16

/-- R6(b), R110, R223, R243, U9: outside 64-bit mode, with a debug trap armed or with MXCSR bits 31:16 set, every step
and every instruction is refused. The model's own here: the two last refusals read launch premises (logs 21, 22), the
places of RFLAGS.TF, of the DR7 enables and of the mode bits are the family's (PRESUMED, log 8), and an instruction
refuses by itself (DESIGN CHOICE, log 30). -/
def Obligations.OutOfScopeRefused : Prop :=
  ∀ s i,
    (s.longMode = false → step s = .refused .notLongMode ∧ exec i s = .refused .notLongMode) ∧
    (s.longMode = true → s.rflags.getLsbD 8 = true ∨ s.dr7.extractLsb' 0 8 ≠ 0 →
      step s = .refused .debugTrapArmed ∧ exec i s = .refused .debugTrapArmed) ∧
    (s.longMode = true → s.rflags.getLsbD 8 = false → s.dr7.extractLsb' 0 8 = 0 → s.mxcsr.extractLsb' 16 16 ≠ 0 →
      step s = .refused .mxcsrReservedSet ∧ exec i s = .refused .mxcsrReservedSet)

/-! ## Encoding -/

/-- R70 to R105: the decoder reads a well-formed instruction back from its encoding, whatever bytes follow. -/
def Obligations.EncodeDecodeAgree : Prop :=
  ∀ (i : Instr) (rest : List Byte), i.wf = true → decode (encode i ++ rest) = .form i

/-- R105, R106, R108, R109: what the decoder reads is well-formed, lies within the bytes it was shown, and is settled
by its own `L` bytes alone, which are its encoding but for ignored bits; and whatever byte string is a well-formed
instruction's encoding but for ignored bits decodes to it. That those bits are ignored is log 25. -/
def Obligations.DecodedIsWellFormed : Prop :=
  ∀ bs i,
    (decode bs = .form i →
      i.wf = true ∧ i.length ≤ bs.length ∧ decode (bs.take i.length) = .form i ∧
        SameUpTo (ignoredBits i) (bs.take i.length) (encode i)) ∧
    (i.wf = true → SameUpTo (ignoredBits i) (bs.take i.length) (encode i) → decode bs = .form i)

/-- R118, which the spec marks as derived from R72 to R102: the worked encodings. -/
def Obligations.WorkedEncodingsDecode : Prop :=
  decode [0xC4, 0xE2, 0xF1, 0x9D, 0xC2] = .form (.vfnmadd132sdVex ⟨[], 0, 1, .reg 2⟩) ∧
  decode [0xC4, 0x42, 0x81, 0xAD, 0xC1] = .form (.vfnmadd213sdVex ⟨[], 8, 15, .reg 9⟩) ∧
  decode [0xC4, 0xE2, 0xE9, 0xBD, 0x08] = .form (.vfnmadd231sdVex ⟨[], 1, 2, .mem (.base 0 .none)⟩) ∧
  decode [0xC4, 0xE2, 0xD9, 0xBD, 0x5C, 0xCB, 0x10] =
    .form (.vfnmadd231sdVex ⟨[], 3, 4, .mem (.sib 3 1 3 (.d8 0x10))⟩) ∧
  decode [0xC4, 0xE2, 0xF1, 0x9D, 0x05, 0x00, 0x01, 0x00, 0x00] =
    .form (.vfnmadd132sdVex ⟨[], 0, 1, .mem (.ripRel 0x100)⟩) ∧
  decode [0xC4, 0xC2, 0xE1, 0xAD, 0x55, 0x00] =
    .form (.vfnmadd213sdVex ⟨[], 2, 3, .mem (.base 13 (.d8 0))⟩) ∧
  decode [0xC4, 0xC2, 0xE1, 0xAD, 0x14, 0x24] =
    .form (.vfnmadd213sdVex ⟨[], 2, 3, .mem (.sib 12 4 0 .none)⟩) ∧
  decode [0xC4, 0xE2, 0xE1, 0xAD, 0x54, 0x24, 0x08] =
    .form (.vfnmadd213sdVex ⟨[], 2, 3, .mem (.sib 4 4 0 (.d8 8))⟩) ∧
  decode [0xC4, 0xE2, 0xC9, 0xBD, 0x2C, 0x25, 0x00, 0x10, 0x00, 0x00] =
    .form (.vfnmadd231sdVex ⟨[], 5, 6, .mem (.sibNoBase 4 0 0x1000)⟩) ∧
  decode [0x64, 0xC4, 0xE2, 0xC9, 0xBD, 0x28] =
    .form (.vfnmadd231sdVex ⟨[.fs], 5, 6, .mem (.base 0 .none)⟩) ∧
  decode [0x67, 0xC4, 0xE2, 0xC9, 0xBD, 0x28] =
    .form (.vfnmadd231sdVex ⟨[.addrSize], 5, 6, .mem (.base 0 .none)⟩) ∧
  decode [0x62, 0xF2, 0xED, 0x89, 0xAD, 0xCB] =
    .form (.vfnmadd213sdEvex ⟨[], 1, 2, 1, true, .reg 3 none⟩) ∧
  decode [0x62, 0xF2, 0xED, 0x78, 0xBD, 0xCB] =
    .form (.vfnmadd231sdEvex ⟨[], 1, 2, 0, false, .reg 3 (some .rz)⟩) ∧
  decode [0x62, 0xF2, 0xF5, 0x38, 0xAD, 0xC2] =
    .form (.vfnmadd213sdEvex ⟨[], 0, 1, 0, false, .reg 2 (some .rd)⟩) ∧
  decode [0x62, 0xF2, 0xE5, 0x5F, 0xBD, 0xD4] =
    .form (.vfnmadd231sdEvex ⟨[], 2, 3, 7, false, .reg 4 (some .ru)⟩) ∧
  decode [0x62, 0xF2, 0xF5, 0x08, 0x9D, 0x40, 0x02] =
    .form (.vfnmadd132sdEvex ⟨[], 0, 1, 0, false, .mem (.base 0 (.d8 2)) false⟩) ∧
  decode [0x62, 0x82, 0x8D, 0x02, 0x9D, 0xC9] =
    .form (.vfnmadd132sdEvex ⟨[], 17, 30, 2, false, .reg 25 none⟩) ∧
  decode [0x62, 0x82, 0xFD, 0x08, 0xAD, 0x44, 0x88, 0xFF] =
    .form (.vfnmadd213sdEvex ⟨[], 16, 0, 0, false, .mem (.sib 8 9 2 (.d8 0xFF)) false⟩) ∧
  decode [0x62, 0xF2, 0xF5, 0x09, 0xBD, 0x47, 0x7F] =
    .form (.vfnmadd231sdEvex ⟨[], 0, 1, 1, false, .mem (.base 7 (.d8 0x7F)) false⟩) ∧
  decode [0x62, 0xF2, 0xF5, 0x09, 0xBD, 0x87, 0x00, 0x04, 0x00, 0x00] =
    .form (.vfnmadd231sdEvex ⟨[], 0, 1, 1, false, .mem (.base 7 (.d32 0x400)) false⟩)

/-- R74: VEX.L is ignored. Inverting it, bit 2 of byte 2, changes no verdict; the rule's two byte strings are the same
instruction; and each VEX form zeroes the bits from 128 up, whatever L was. -/
def Obligations.VexLengthBitIgnored : Prop :=
  (∀ (pfx : List LegacyPrefix) (b1 b2 : Byte) (rest : List Byte),
    decode (pfx.map LegacyPrefix.byte ++ 0xC4#8 :: b1 :: (b2 ^^^ 4#8) :: rest) =
      decode (pfx.map LegacyPrefix.byte ++ 0xC4#8 :: b1 :: b2 :: rest)) ∧
  decode [0xC4, 0xE2, 0xF1, 0x9D, 0xC2] = .form (.vfnmadd132sdVex ⟨[], 0, 1, .reg 2⟩) ∧
  decode [0xC4, 0xE2, 0xF5, 0x9D, 0xC2] = .form (.vfnmadd132sdVex ⟨[], 0, 1, .reg 2⟩) ∧
  ∀ (ord : FmaOrder) (o : VexOperands) (s t : State),
    exec (ord.vex o) s = .next t → t.vregAt (vexReg o.dst) >>> 128 = 0

/-- R77: with b = 0 the field L'L, bits 6:5 of P2, changes no verdict, and each EVEX form zeroes the bits from 128 up;
with b = 1 and a register operand 3 it is the rounding mode of R94. For L'L = 11b this is decision D25 (log 25). -/
def Obligations.EvexLengthBits : Prop :=
  (∀ (pfx : List LegacyPrefix) (p0 p1 p2 : Byte) (ll : BitVec 2) (rest : List Byte), p2.getLsbD 4 = false →
    decode (pfx.map LegacyPrefix.byte ++ 0x62#8 :: p0 :: p1 :: ((p2 &&& 0x9F#8) ||| (ll.setWidth 8 <<< 5)) :: rest) =
      decode (pfx.map LegacyPrefix.byte ++ 0x62#8 :: p0 :: p1 :: p2 :: rest)) ∧
  (∀ (ord : FmaOrder) (o : EvexOperands) (s t : State),
    exec (ord.evex o) s = .next t → t.vregAt o.dst >>> 128 = 0) ∧
  ∀ (pfx : List LegacyPrefix) (p0 p1 p2 op m : Byte) (rest : List Byte) (ord : FmaOrder) (o : EvexOperands),
    p2.getLsbD 4 = true → m.extractLsb' 6 2 = 3#2 →
    decode (pfx.map LegacyPrefix.byte ++ 0x62#8 :: p0 :: p1 :: p2 :: op :: m :: rest) = .form (ord.evex o) →
    ∃ n rm, o.src3 = .reg n (some rm) ∧
      (p2.extractLsb' 5 2 = 0#2 → rm = .rn) ∧ (p2.extractLsb' 5 2 = 1#2 → rm = .rd) ∧
      (p2.extractLsb' 5 2 = 2#2 → rm = .ru) ∧ (p2.extractLsb' 5 2 = 3#2 → rm = .rz)

/-- R84, R95, R109 items 1, 2, 3, 5: an illegal encoding of at most 15 bytes, whatever its ignored bits (L'L with b = 1
and memory among them), and reserved EVEX bits within the first 15 bytes, raise #UD with nothing changed, in every state
in scope (for longer ones: `OverlongRaisesGp`). That b = 1 with memory is one is decision D12 (log 23); that every byte is
fetched first is the model's inference (log 18), as is which bits are ignored (log 25). -/
def Obligations.IllegalEncodingsAreUd : Prop :=
  (∀ (s : State) (i : Instr) (bs : List Byte), s.scopeRefusal = none → i.encodable = true → i.length ≤ 15 →
    i.legal = false → SameUpTo (ignoredBits i) bs (encode i) → TextAt s bs → step s = .fault (.exception .ud s)) ∧
  ∀ (s : State) (pfx : List LegacyPrefix) (p0 p1 p2 : Byte), s.scopeRefusal = none → pfx.length + 4 ≤ 15 →
    p0.extractLsb' 2 2 ≠ 0#2 ∨ p1.getLsbD 2 = false →
    TextAt s (pfx.map LegacyPrefix.byte ++ [0x62#8, p0, p1, p2]) → step s = .fault (.exception .ud s)

/-- R106, R210: an instruction longer than 15 bytes, whatever its ignored bits (log 25), raises #GP(0); if it is illegal
or not enabled as well, #UD or #GP(0), and nothing of the spec's state changes (which one is free, log 16); so for reserved
EVEX bits with more than 15 bytes up to P2. That every byte is fetched first, however many prefixes stand, is the model's
inference (log 17). -/
def Obligations.OverlongRaisesGp : Prop :=
  (∀ (s : State) (i : Instr) (bs : List Byte), s.scopeRefusal = none → i.encodable = true → 15 < i.length →
    SameUpTo (ignoredBits i) bs (encode i) → TextAt s bs →
    (i.legal = true → s.enabled (kindOf i) = true → step s = .fault (.exception .gp s)) ∧
    ∃ x t, step s = .fault (.exception x t) ∧ (x = .gp ∨ x = .ud) ∧ t = { s with draws := t.draws }) ∧
  ∀ (s : State) (pfx : List LegacyPrefix) (p0 p1 p2 : Byte), s.scopeRefusal = none → 15 < pfx.length + 4 →
    p0.extractLsb' 2 2 ≠ 0#2 ∨ p1.getLsbD 2 = false →
    TextAt s (pfx.map LegacyPrefix.byte ++ [0x62#8, p0, p1, p2]) →
    ∃ x t, step s = .fault (.exception x t) ∧ (x = .gp ∨ x = .ud) ∧ t = { s with draws := t.draws }

/-- R73, R75, R78, R108 steps 2 to 4, R110: behind any number of prefixes, every byte but C4H and 62H, every other VEX or
EVEX payload and every other opcode are refused by name: no effect, not even #UD. -/
def Obligations.NeighboursRefused : Prop :=
  ∀ (s : State) (pfx : List LegacyPrefix) (tail : List Byte) (why : DecodeRefusal), s.scopeRefusal = none →
    Neighbour tail why → TextAt s (pfx.map LegacyPrefix.byte ++ tail) →
    step s = .refused (.otherInstruction why)

/-! ## One step -/

/-- R16: when the bytes at `pc` decode to an instruction, the step is that instruction. -/
def Obligations.StepRunsDecoded : Prop :=
  ∀ s i, s.scopeRefusal = none → decode (fetchWindow s).1 = .form i → step s = exec i s

/-- R16, R53: when the encoding of a well-formed instruction, with any ignored bits (log 25), stands at `pc`, the step is
that instruction, whatever stands after it and whether or not that can be fetched; and a fetch and a data read of one
address that both answer see the same byte. -/
def Obligations.EncodedInstructionRuns : Prop :=
  (∀ (s : State) (i : Instr) (bs : List Byte), s.scopeRefusal = none → i.wf = true →
    SameUpTo (ignoredBits i) bs (encode i) → TextAt s bs → step s = exec i s) ∧
  ∀ (s : State) (la : Word) (b c : Byte), byteAt la .fetch s = .ok b → byteAt la .dataRead s = .ok c → b = c

/-- R67, R243: a program loaded from outside runs. Loading an encoding, or an opcode-table word, makes the next step
that instruction. How the load is done is the model's choice (log 3). -/
def Obligations.LoadedInstructionRuns : Prop :=
  (∀ (s : State) (i : Instr), i.wf = true →
    step (s.launchedForText.loadText (encode i)) = exec i (s.launchedForText.loadText (encode i))) ∧
  ∀ (s : State) (nbits w : Nat) (i : Instr), decodeTableWord nbits w = some i →
    step (s.withFetchWord nbits w) = exec i (s.withFetchWord nbits w)

/-- R210 item 1, R63, R200: the fetch of an instruction that has not ended, however many bytes it has, stops with the
fault of the first byte that cannot be fetched; #GP(0) for a non-canonical `pc`, #PF with the address in CR2, W/R = 0, and
U/S = 1 exactly at CPL 3. The model's inferences (DEDUCED): R210 speaks of `pc` alone, and that a later byte at a
non-canonical address or past 2^64 - 1 is #GP(0) is log 19; that a sixteenth or later byte is fetched before the length is
checked is log 17. That a byte no location holds stops the fetch is the model's choice (log 9). -/
def Obligations.FetchFaults : Prop :=
  ∀ s : State, s.scopeRefusal = none →
    (∀ bs f, TextAt s bs → decode bs = .truncated → fetchByte bs.length s = .error f →
      step s = .fault f) ∧
    (s.canonical s.pc = false → step s = .fault (.exception .gp s)) ∧
    ∀ code, s.canonical s.pc = true → s.translate s.pc .fetch = .error code →
      step s = .fault (.exception (.pf code s.pc) { s with cr2 := s.pc }) ∧
      code.getLsbD 1 = false ∧ (code.getLsbD 2 = true ↔ s.cpl = 3#2)

/-- R23, R98: a completed step advances `pc` by the instruction's length modulo 2^64, an exception leaves it, a
non-canonical `pc` makes the fetch raise #GP(0), and RIP-relative addresses start from `pc + L`. -/
def Obligations.PcAdvance : Prop :=
  (∀ s t, step s = .next t →
    ∃ i, decode (fetchWindow s).1 = .form i ∧ t.pc = s.pc + BitVec.ofNat 64 i.length) ∧
  (∀ s x t, step s = .fault (.exception x t) → t.pc = s.pc) ∧
  (∀ s i t, exec i s = .next t → t.pc = s.pc + BitVec.ofNat 64 i.length) ∧
  (∀ s : State, s.scopeRefusal = none → s.canonical s.pc = false → step s = .fault (.exception .gp s)) ∧
  ∀ (s : State) (pfx : List LegacyPrefix) n8 len d, .addrSize ∉ pfx →
    effAddr pfx n8 len (.ripRel d) s = s.pc + BitVec.ofNat 64 len + d.signExtend 64

/-! ## Completion of the instructions -/

/-- R160 to R163, R124: each VEX form delivers `FNMAdd64` of its operands in the order of its mnemonic, with MXCSR's
rounding mode and controls, and completes; with every exception masked it always does. -/
def Obligations.VexFormsComplete : Prop :=
  ∀ (o : VexOperands) (s : State) (c : Word), s.Ready .vex → VexOperand3 o c s →
    let a := s.low (vexReg o.dst)
    let b := s.low (vexReg o.src2)
    let rm := mxcsrRounding s.mxcsr
    let ctl := mxcsrControl s.mxcsr
    Computes (.vfnmadd132sdVex o) a c b rm ctl id s ∧
      Computes (.vfnmadd213sdVex o) b a c rm ctl id s ∧
      Computes (.vfnmadd231sdVex o) b c a rm ctl id s

/-- R170, R175 to R177, R124: each EVEX form with no mask or with its mask bit 1, and without embedded rounding,
delivers `FNMAdd64` of its operands in the order of its mnemonic, and completes. -/
def Obligations.EvexFormsComplete : Prop :=
  ∀ (o : EvexOperands) (s : State) (c : Word), s.Ready .evex → EvexOperand3 o c s →
    (o.mask = 0#3 ∨ (s.kregAt o.mask).getLsbD 0 = true) → embeddedRounding o = none →
    let a := s.low o.dst
    let b := s.low o.src2
    let rm := mxcsrRounding s.mxcsr
    let ctl := mxcsrControl s.mxcsr
    Computes (.vfnmadd132sdEvex o) a c b rm ctl id s ∧
      Computes (.vfnmadd213sdEvex o) b a c rm ctl id s ∧
      Computes (.vfnmadd231sdEvex o) b c a rm ctl id s

/-- R172, R149: with embedded rounding an EVEX form always completes with MXCSR unchanged. With its mask bit 1 it
delivers `FNMAdd64` under its own rounding mode with every exception masked, DAZ and FTZ being MXCSR's. MXCSR's
rounding mode and masks are not read: with others the same values are written. The suppression is decision D20 of the
spec, read as log 27 says (DEDUCED). -/
def Obligations.EmbeddedRoundingSuppresses : Prop :=
  ∀ (o : EvexOperands) (n : VregNum) (rm : RoundingMode) (s : State), s.Ready .evex →
    o.src3 = .reg n (some rm) →
    (∀ ord : FmaOrder, ∃ t, exec (ord.evex o) s = .next t ∧ t.mxcsr = s.mxcsr ∧
      ∀ m : BitVec 32, m.getLsbD 6 = s.mxcsr.getLsbD 6 → m.getLsbD 15 = s.mxcsr.getLsbD 15 →
        m.extractLsb' 16 16 = 0#16 →
        exec (ord.evex o) { s with mxcsr := m } = .next { t with mxcsr := m }) ∧
    ((o.mask = 0#3 ∨ (s.kregAt o.mask).getLsbD 0 = true) →
      let a := s.low o.dst
      let b := s.low o.src2
      let c := s.low n
      let ctl : FpControl :=
        { daz := s.mxcsr.getLsbD 6, ftz := s.mxcsr.getLsbD 15,
          im := true, dm := true, om := true, um := true, pm := true }
      Computes (.vfnmadd132sdEvex o) a c b rm ctl (fun _ => {}) s ∧
        Computes (.vfnmadd213sdEvex o) b a c rm ctl (fun _ => {}) s ∧
        Computes (.vfnmadd231sdEvex o) b c a rm ctl (fun _ => {}) s)

/-- R173, which the spec marks as derived from D0's pseudocode: a masked-off form performs no arithmetic. It
completes whatever the operands hold, with no flag set and bits 63:0 kept (merging) or all zero (zeroing). -/
def Obligations.MaskedOffCompletes : Prop :=
  ∀ (ord : FmaOrder) (o : EvexOperands) (s : State) (c : Word), s.Ready .evex → EvexOperand3 o c s →
    o.mask ≠ 0#3 → (s.kregAt o.mask).getLsbD 0 = false →
    ∃ t, exec (ord.evex o) s = .next t ∧ t.mxcsr = s.mxcsr ∧
      Completion o.dst (if o.zeroing then 0 else s.low o.dst) 0 o.length s t

/-- R174, decision D13 (log 24): a masked-off form with a memory operand performs the read, lets it fault, and discards
the value read. -/
def Obligations.MaskedOffStillFaults : Prop :=
  ∀ (ord : FmaOrder) (o : EvexOperands) (a : MemAddr) (b : Bool) (s : State), s.Ready .evex →
    o.src3 = .mem a b → o.mask ≠ 0#3 → (s.kregAt o.mask).getLsbD 0 = false →
    (∀ f, memRead (linearAddr o.pfx 8 o.length a s) (stackAccess o.pfx a) s = .error f →
      exec (ord.evex o) s = .fault f) ∧
    ∀ w, memRead (linearAddr o.pfx 8 o.length a s) (stackAccess o.pfx a) s = .ok w →
      exec (ord.evex o) s = .next (s.completed o.dst (if o.zeroing then 0 else s.low o.dst) {} o.length)

/-- R30: an EVEX form reads one bit of opmask state: bit 0 of the register aaa names, and none with aaa = 000b, which
counts as a mask bit 1. With any other opmask registers that agree on it, the outcome is the same. -/
def Obligations.MaskReadsOneBit : Prop :=
  ∀ (ord : FmaOrder) (o : EvexOperands) (s : State) (k : Vector (BitVec 64) 8),
    (o.mask ≠ 0#3 → ({ s with kreg := k } : State).kregAt o.mask &&& 1 = s.kregAt o.mask &&& 1) →
    exec (ord.evex o) { s with kreg := k } = onStates (fun t => { t with kreg := k }) (exec (ord.evex o) s) ∧
      (o.mask = 0#3 → maskBit o s = true)

/-! ## What an instruction changes -/

/-- R36, R32, R33, the first and last of which the spec marks as derived from D0's operand table: the frame. A
completing instruction changes no general, opmask, control, debug, segment or x87 register, not RFLAGS, no byte of
memory, and no vector register but its destination; of MXCSR it can only set the flags IE, DE, OE, UE, PE. -/
def Obligations.InstructionFrame : Prop :=
  ∀ (i : Instr) (s t : State), exec i s = .next t →
    (∀ n, t.gprAt n = s.gprAt n) ∧ (∀ n, n ≠ destOf i → t.vregAt n = s.vregAt n) ∧
      (∀ n, t.kregAt n = s.kregAt n) ∧ t.rflags = s.rflags ∧
      t.cr0 = s.cr0 ∧ t.cr4 = s.cr4 ∧ t.efer = s.efer ∧ t.xcr0 = s.xcr0 ∧ t.cr2 = s.cr2 ∧
      t.cpl = s.cpl ∧ t.cs = s.cs ∧ t.fsBase = s.fsBase ∧ t.gsBase = s.gsBase ∧
      t.dr = s.dr ∧ t.dr7 = s.dr7 ∧ t.x87 = s.x87 ∧ t.params = s.params ∧ t.xlat = s.xlat ∧
      t.mxcsr &&& ~~~ 0x3B#32 = s.mxcsr &&& ~~~ 0x3B#32 ∧ t.mxcsr &&& s.mxcsr = s.mxcsr ∧
      ∀ a, Memory.read t.mem a = Memory.read s.mem a

/-- R27: the three ranges of the destination. Bits 63:0 receive the result (masked off: their value or 0), bits 127:64
keep theirs, the bits above are zeroed; a fault writes none of them. -/
def Obligations.DestinationRanges : Prop :=
  (∀ (i : Instr) (s t : State), exec i s = .next t →
    (t.vregAt (destOf i)).extractLsb' 64 64 = (s.vregAt (destOf i)).extractLsb' 64 64 ∧
      t.vregAt (destOf i) >>> 128 = 0) ∧
  (∀ (ord : FmaOrder) (o : VexOperands) (s t : State), exec (ord.vex o) s = .next t →
    ∃ c f, readVexSrc3 o s = .ok c ∧ vexResult ord o c s = .value (t.low (vexReg o.dst)) f) ∧
  (∀ (ord : FmaOrder) (o : EvexOperands) (s t : State), exec (ord.evex o) s = .next t →
    ∃ c, readEvexSrc3 o s = .ok c ∧
      ((maskBit o s = true ∧ ∃ f, evexResult ord o c s = .value (t.low o.dst) f) ∨
        (maskBit o s = false ∧ t.low o.dst = if o.zeroing then 0 else s.low o.dst))) ∧
  ∀ (i : Instr) (s t : State) (x : Exception), exec i s = .fault (.exception x t) → t.vreg = s.vreg

/-- R36, R28, R245, R67: over any number of steps, from any state, only vector registers, MXCSR flags and `pc` change:
flags are only set, bits 127:64 of every vector register stay, and a register that has changed has nothing above. -/
def Obligations.RunKeepsEverythingElse : Prop :=
  ∀ s t, Reaches s t →
    t = { s with vreg := t.vreg, mxcsr := t.mxcsr, pc := t.pc } ∧
      t.mxcsr &&& ~~~ 0x3B#32 = s.mxcsr &&& ~~~ 0x3B#32 ∧ t.mxcsr &&& s.mxcsr = s.mxcsr ∧
      ∀ n, (t.vregAt n).extractLsb' 64 64 = (s.vregAt n).extractLsb' 64 64 ∧
        (t.vregAt n = s.vregAt n ∨ t.vregAt n >>> 128 = 0)

/-- R214, R200, R202: every exception leaves the state before the instruction, but for CR2 of a #PF and the flags a
SIMD exception sets, among which a handler finds an unmasked cause of #XM. -/
def Obligations.FaultsArePrecise : Prop :=
  ∀ s x t, step s = .fault (.exception x t) →
    t = { s with mxcsr := t.mxcsr, cr2 := t.cr2, draws := t.draws } ∧
      t.mxcsr &&& ~~~ 0x3B#32 = s.mxcsr &&& ~~~ 0x3B#32 ∧ t.mxcsr &&& s.mxcsr = s.mxcsr ∧
      (t.mxcsr ≠ s.mxcsr → x = .xm ∨ x = .ud) ∧
      (∀ code la, x = .pf code la → t.cr2 = la) ∧
      ((∀ code la, x ≠ .pf code la) → t.cr2 = s.cr2) ∧
      (x = .xm → simdCauses t.mxcsr ≠ 0)

/-! ## What an instruction depends on -/

/-- R51, and R164(d), which the spec marks as derived: memory is read only by a memory form, and only the 8 bytes
from its linear address: with any other memory and translation that agree there, the outcome is the same. -/
def Obligations.OnlyEightBytesRead : Prop :=
  ∀ (i : Instr) (s : State) (m : Memory) (xl : List TransEntry),
    let u : State := { s with mem := m, xlat := xl }
    (∀ a, memOf i = some a → ∀ k : Fin 8,
      let la := linearAddrOf i a s + BitVec.ofNat 64 k
      u.translate la .dataRead = s.translate la .dataRead ∧
        ∀ loc, s.translate la .dataRead = .ok loc → Memory.read m loc.toNat = Memory.read s.mem loc.toNat) →
    exec i u = onStates (fun t => { t with mem := m, xlat := xl }) (exec i s)

/-- R89, R90, and R164(b), which the spec marks as derived: of the operand registers only bits 63:0 are read, and of
the other vector registers nothing: with any other vector registers that agree there, a completing instruction
delivers the same value and flags. -/
def Obligations.OnlyLowBitsRead : Prop :=
  ∀ (i : Instr) (s t : State) (v : Vector (BitVec 512) 32),
    let u : State := { s with vreg := v }
    (∀ n ∈ operandRegs i, u.low n = s.low n) → exec i s = .next t →
    ∃ t', exec i u = .next t' ∧ t'.low (destOf i) = t.low (destOf i) ∧ t'.mxcsr = t.mxcsr ∧ t'.pc = t.pc

/-- R218: the privilege level matters only through alignment checking and translation: where these answer alike, an
instruction does the same at every level. -/
def Obligations.PrivilegeIndependent : Prop :=
  ∀ (i : Instr) (s : State) (c : BitVec 2),
    let u : State := { s with cpl := c }
    (∀ a, memOf i = some a → u.alignmentChecked = s.alignmentChecked ∧
      ∀ la, u.translate la .dataRead = s.translate la .dataRead) →
    exec i u = onStates (fun t => { t with cpl := c }) (exec i s)

/-- R179, which the spec marks as derived from R170 and R160: an EVEX form without mask, zeroing or embedded
rounding does what the VEX form of the same mnemonic does on the same registers or the same address; only the length
by which `pc` advances is its own. -/
def Obligations.EvexEqualsVex : Prop :=
  ∀ (ord : FmaOrder) (v : VexOperands) (e : EvexOperands) (s : State), s.Ready .vex → s.Ready .evex →
    e.dst = vexReg v.dst → e.src2 = vexReg v.src2 → e.mask = 0#3 →
    ((∃ n, v.src3 = .reg n ∧ e.src3 = .reg (vexReg n) none) ∨
      (∃ a a', v.src3 = .mem a ∧ e.src3 = .mem a' false ∧
        linearAddr e.pfx 8 e.length a' s = linearAddr v.pfx 1 v.length a s ∧
        stackAccess e.pfx a' = stackAccess v.pfx a)) →
    exec (ord.evex e) s =
      onNext (fun t => { t with pc := s.pc + BitVec.ofNat 64 e.length }) (exec (ord.vex v) s)

/-! ## Exceptions of the instruction itself -/

/-- R205: the conditions for #UD of each kind of form; XCR0[7:5] is not read for a VEX form, and neither CR0.EM
nor CR4.OSFXSR is read: inverting either or both changes no outcome. -/
def Obligations.FeatureUd : Prop :=
  (∀ (ord : FmaOrder) (o : VexOperands) (s : State), s.scopeRefusal = none →
    s.params.hasFMA = false ∨ s.cr4.getLsbD 18 = false ∨ s.xcr0.extractLsb' 1 2 ≠ 3#2 →
    exec (ord.vex o) s = .fault (.exception .ud s)) ∧
  (∀ (ord : FmaOrder) (o : EvexOperands) (s : State), s.scopeRefusal = none →
    s.params.hasAVX512F = false ∨ s.cr4.getLsbD 18 = false ∨ s.xcr0.extractLsb' 1 2 ≠ 3#2 ∨
      s.xcr0.extractLsb' 5 3 ≠ 7#3 →
    exec (ord.evex o) s = .fault (.exception .ud s)) ∧
  (∀ (ord : FmaOrder) (o : VexOperands) (s : State) (b : BitVec 3),
    let x := s.xcr0 ^^^ (b.setWidth 64 <<< 5)
    exec (ord.vex o) { s with xcr0 := x } = onStates (fun t => { t with xcr0 := x }) (exec (ord.vex o) s)) ∧
  ∀ (i : Instr) (s : State) (em fxsr : BitVec 1),
    let c0 := s.cr0 ^^^ (em.setWidth 64 <<< 2)
    let c4 := s.cr4 ^^^ (fxsr.setWidth 64 <<< 9)
    exec i { s with cr0 := c0, cr4 := c4 } = onStates (fun t => { t with cr0 := c0, cr4 := c4 }) (exec i s)

/-- R206: with CR0.TS = 1 an enabled form raises #NM, vector 7 with no error code, before it reads any operand; a form
that is not enabled raises #UD first; and no step completes. -/
def Obligations.DeviceNotAvailable : Prop :=
  Exception.vector .nm = 7 ∧ Exception.errorCode .nm = none ∧
  ∀ s : State, s.cr0.getLsbD 3 = true →
    (∀ i, s.scopeRefusal = none → s.enabled (kindOf i) = true → exec i s = .fault (.exception .nm s)) ∧
    (∀ i, s.scopeRefusal = none → s.enabled (kindOf i) = false → exec i s = .fault (.exception .ud s)) ∧
    ∀ t, step s ≠ .next t

/-- R208: when `FNMAdd64` of a form's operands, in the order of its mnemonic and with MXCSR's rounding mode and controls,
traps, its flags are OR-ed into MXCSR and #XM (vector 19) or, with CR4.OSXMMEXCPT = 0, #UD (vector 6) is raised; no
register and not `pc` changes. It does not happen masked off or under embedded rounding. -/
def Obligations.UnmaskedSimdException : Prop :=
  Exception.vector .xm = 19 ∧ Exception.errorCode .xm = none ∧
  Exception.vector .ud = 6 ∧ Exception.errorCode .ud = none ∧
  (∀ (o : VexOperands) (s : State) (c : Word), s.Ready .vex → VexOperand3 o c s →
    let a := s.low (vexReg o.dst)
    let b := s.low (vexReg o.src2)
    let rm := mxcsrRounding s.mxcsr
    let ctl := mxcsrControl s.mxcsr
    TrapsAs (.vfnmadd132sdVex o) a c b rm ctl s ∧ TrapsAs (.vfnmadd213sdVex o) b a c rm ctl s ∧
      TrapsAs (.vfnmadd231sdVex o) b c a rm ctl s) ∧
  (∀ (o : EvexOperands) (s : State) (c : Word), s.Ready .evex → EvexOperand3 o c s →
    (o.mask = 0#3 ∨ (s.kregAt o.mask).getLsbD 0 = true) → embeddedRounding o = none →
    let a := s.low o.dst
    let b := s.low o.src2
    let rm := mxcsrRounding s.mxcsr
    let ctl := mxcsrControl s.mxcsr
    TrapsAs (.vfnmadd132sdEvex o) a c b rm ctl s ∧ TrapsAs (.vfnmadd213sdEvex o) b a c rm ctl s ∧
      TrapsAs (.vfnmadd231sdEvex o) b c a rm ctl s) ∧
  ∀ (ord : FmaOrder) (o : EvexOperands) (s t : State) (x : Exception),
    maskBit o s = false ∨ (embeddedRounding o).isSome = true → exec (ord.evex o) s = .fault (.exception x t) →
    x ≠ .xm ∧ t.mxcsr = s.mxcsr

/-! ## Memory operands -/

/-- R52: a memory operand is assembled little-endian: the byte at `la + k` holds bits 8k+7:8k, in every state; and an
operand whose checks all pass is read, wherever it starts (R59). -/
def Obligations.OperandBytesLittleEndian : Prop :=
  (∀ (s : State) (la : Word) (stack : Bool) (w : Word), memRead la stack s = .ok w → ∀ k : Fin 8, ∃ loc,
    s.translate (la + BitVec.ofNat 64 k) .dataRead = .ok loc ∧
      Memory.read s.mem loc.toNat = some (w.extractLsb' (8 * k) 8)) ∧
  ∀ (s : State) (la : Word) (stack : Bool) (b : Fin 8 → Byte), OperandReadable la b s →
    ∃ w, memRead la stack s = .ok w ∧ ∀ k : Fin 8, w.extractLsb' (8 * k) 8 = b k

/-- R58, R55 step 1, R207: an operand with a byte that is not canonical raises #SS(0) for a stack-segment access, else
#GP(0), whatever else is wrong with it. The access is one to the stack segment exactly when no FS or GS prefix stands
and the base register is number 4 or 5; it shows in nothing else. -/
def Obligations.StackSegmentAccess : Prop :=
  (∀ (pfx : List LegacyPrefix) (a : MemAddr), stackAccess pfx a = true ↔
    .fs ∉ pfx ∧ .gs ∉ pfx ∧
      ∃ b, (b = 4#4 ∨ b = 5#4) ∧ ((∃ d, a = .base b d) ∨ ∃ n sc d, a = .sib b n sc d)) ∧
  (∀ (i : Instr) (a : MemAddr) (s : State), s.Ready (kindOf i) → memOf i = some a →
    let la := linearAddrOf i a s
    (2 ^ 64 ≤ la.toNat + 7 ∨ ∃ k : Fin 8, s.canonical (la + BitVec.ofNat 64 k) = false) →
    exec i s = .fault (.exception (if stackAccess i.pfx a then .ss else .gp) s)) ∧
  ∀ (la : Word) (s : State), la.toNat + 7 < 2 ^ 64 →
    (∀ k : Fin 8, s.canonical (la + BitVec.ofNat 64 k) = true) → memRead la true s = memRead la false s

/-- R63, R55 step 3, R207, R200: when a byte of the operand does not translate, a #PF is raised for the first such byte
of its page, with that address in CR2 and W/R = 0, I/D = 0, and U/S = 1 exactly at CPL 3. Which page it is when both
fault is free (log 14); that a page has 4096 bytes, in `samePage`, is the family's (PRESUMED, log 12). -/
def Obligations.OperandPageFault : Prop :=
  ∀ (i : Instr) (a : MemAddr) (s : State), s.Ready (kindOf i) → memOf i = some a →
    let la := linearAddrOf i a s
    s.canonicalOperand la = true → s.misaligned la = false →
    (∃ k : Fin 8, ∃ code, s.translate (la + BitVec.ofNat 64 k) .dataRead = .error code) →
    ∃ (k : Fin 8) (code : BitVec 32) (t : State),
      s.translate (la + BitVec.ofNat 64 k) .dataRead = .error code ∧
        (∀ j : Fin 8, j < k → samePage (la + BitVec.ofNat 64 j) (la + BitVec.ofNat 64 k) = true →
          ∃ loc, s.translate (la + BitVec.ofNat 64 j) .dataRead = .ok loc) ∧
        exec i s = .fault (.exception (.pf code (la + BitVec.ofNat 64 k)) t) ∧
        t = { s with cr2 := la + BitVec.ofNat 64 k, draws := t.draws } ∧
        code.getLsbD 1 = false ∧ code.getLsbD 4 = false ∧ (code.getLsbD 2 = true ↔ s.cpl = 3#2)

/-- R209: #AC, vector 17 with error code 0, exactly when CR0.AM, RFLAGS.AC and CPL = 3 hold and the address is not a
multiple of 8 (the operand being canonical and translated). With an enable clear a misaligned operand is read. -/
def Obligations.AlignmentCheck : Prop :=
  Exception.vector .ac = 17 ∧ Exception.errorCode .ac = some 0 ∧
  (∀ (i : Instr) (a : MemAddr) (s : State), s.Ready (kindOf i) → memOf i = some a →
    let la := linearAddrOf i a s
    s.canonicalOperand la = true →
    (∀ k : Fin 8, ∃ loc, s.translate (la + BitVec.ofNat 64 k) .dataRead = .ok loc) →
    s.cr0.getLsbD 18 = true → s.rflags.getLsbD 18 = true → s.cpl = 3#2 → la.toNat % 8 ≠ 0 →
    exec i s = .fault (.exception .ac s)) ∧
  (∀ (i : Instr) (s t : State), exec i s = .fault (.exception .ac t) →
    s.cr0.getLsbD 18 = true ∧ s.rflags.getLsbD 18 = true ∧ s.cpl = 3#2 ∧
      ∃ a, memOf i = some a ∧ (linearAddrOf i a s).toNat % 8 ≠ 0) ∧
  ∀ (la : Word) (stack : Bool) (s : State),
    s.cr0.getLsbD 18 = false ∨ s.rflags.getLsbD 18 = false ∨ s.cpl ≠ 3#2 → s.canonicalOperand la = true →
    (∀ k : Fin 8, ∃ loc b, s.translate (la + BitVec.ofNat 64 k) .dataRead = .ok loc ∧
      Memory.read s.mem loc.toNat = some b) →
    ∃ w, memRead la stack s = .ok w

/-- R211: when an operand is misaligned with alignment checking in force and on a page that faults, #AC or the #PF of a
byte that does not translate is raised; which one is free (log 13). -/
def Obligations.PageFaultOrAlignment : Prop :=
  ∀ (i : Instr) (a : MemAddr) (s : State), s.Ready (kindOf i) → memOf i = some a →
    let la := linearAddrOf i a s
    s.canonicalOperand la = true → s.misaligned la = true →
    (∃ k : Fin 8, ∃ code, s.translate (la + BitVec.ofNat 64 k) .dataRead = .error code) →
    ∃ x t, exec i s = .fault (.exception x t) ∧
      ((x = .ac ∧ t = { s with draws := t.draws }) ∨
        ∃ (k : Fin 8) (code : BitVec 32), x = .pf code (la + BitVec.ofNat 64 k) ∧
          s.translate (la + BitVec.ofNat 64 k) .dataRead = .error code ∧
          t = { s with cr2 := la + BitVec.ofNat 64 k, draws := t.draws })

/-- R97, R98, R99: the effective address that each `mod`, `r/m` and SIB byte stands for, read from the bytes after
ModRM, whatever prefixes but 67H stand before; `n8` is what an 8-bit displacement is multiplied by (R101). -/
def Obligations.EffectiveAddressForms : Prop :=
  ∀ (s : State) (pfx : List LegacyPrefix) (n8 len : Nat) (x b : Bool) (mod : BitVec 2) (rm : BitVec 3)
    (tail : List Byte) (a : MemAddr), .addrSize ∉ pfx → mod ≠ 3#2 → decodeMem x b mod rm tail = some a →
    let ea := effAddr pfx n8 len a s
    (mod = 0#2 → rm ≠ 4#3 → rm ≠ 5#3 → ea = s.gprAt (ext4 b rm)) ∧
    (mod = 0#2 → rm = 5#3 → ∃ d, takeDisp32 tail = some d ∧
      ea = s.pc + BitVec.ofNat 64 len + d.signExtend 64) ∧
    (mod = 1#2 → rm ≠ 4#3 → ∃ d, tail.head? = some d ∧
      ea = s.gprAt (ext4 b rm) + d.signExtend 64 * BitVec.ofNat 64 n8) ∧
    (mod = 2#2 → rm ≠ 4#3 → ∃ d, takeDisp32 tail = some d ∧ ea = s.gprAt (ext4 b rm) + d.signExtend 64) ∧
    (rm = 4#3 → ∃ sib rest, tail = sib :: rest ∧
      let idx := ext4 x (sib.extractLsb' 3 3)
      let indexPart : Word := if idx = 4#4 then 0 else s.gprAt idx <<< (sib.extractLsb' 6 2).toNat
      let base := sib.extractLsb' 0 3
      (mod = 0#2 → base = 5#3 → ∃ d, takeDisp32 rest = some d ∧ ea = d.signExtend 64 + indexPart) ∧
      (mod = 0#2 → base ≠ 5#3 → ea = s.gprAt (ext4 b base) + indexPart) ∧
      (mod = 1#2 → ∃ d, rest.head? = some d ∧
        ea = s.gprAt (ext4 b base) + indexPart + d.signExtend 64 * BitVec.ofNat 64 n8) ∧
      (mod = 2#2 → ∃ d, takeDisp32 rest = some d ∧
        ea = s.gprAt (ext4 b base) + indexPart + d.signExtend 64))

/-- R100: with 67H the effective address is the 64-bit one modulo 2^32, zero-extended. -/
def Obligations.AddressSize32 : Prop :=
  ∀ (pfx : List LegacyPrefix) (n8 len : Nat) (a : MemAddr) (s : State), .addrSize ∈ pfx →
    effAddr pfx n8 len a s = ((effAddr [] n8 len a s).setWidth 32).setWidth 64

/-- R54, R79: the last FS or GS prefix adds that segment's base to the effective address modulo 2^64; without one, and
whatever other segment prefixes stand, nothing is added. That the last one wins is decision D19 of the spec. -/
def Obligations.SegmentOverride : Prop :=
  ∀ (pfx rest : List LegacyPrefix) (n8 len : Nat) (a : MemAddr) (s : State), .fs ∉ rest → .gs ∉ rest →
    linearAddr (pfx ++ .fs :: rest) n8 len a s = s.fsBase + effAddr (pfx ++ .fs :: rest) n8 len a s ∧
      linearAddr (pfx ++ .gs :: rest) n8 len a s = s.gsBase + effAddr (pfx ++ .gs :: rest) n8 len a s ∧
      linearAddr rest n8 len a s = effAddr rest n8 len a s

/-- R101: an 8-bit displacement is taken as it is in a VEX form and times 8 in an EVEX form; a 32-bit one is never
scaled. -/
def Obligations.DisplacementScaling : Prop :=
  (∀ (o : VexOperands) (s : State) (b : GprNum) (d : BitVec 8), .fs ∉ o.pfx → .gs ∉ o.pfx → .addrSize ∉ o.pfx →
    o.src3 = .mem (.base b (.d8 d)) →
    readVexSrc3 o s = memRead (s.gprAt b + d.signExtend 64) (stackAccess o.pfx (.base b (.d8 d))) s) ∧
  (∀ (o : EvexOperands) (s : State) (b : GprNum) (d : BitVec 8), .fs ∉ o.pfx → .gs ∉ o.pfx → .addrSize ∉ o.pfx →
    o.src3 = .mem (.base b (.d8 d)) false →
    readEvexSrc3 o s = memRead (s.gprAt b + d.signExtend 64 * 8) (stackAccess o.pfx (.base b (.d8 d))) s) ∧
  (∀ (o : VexOperands) (s : State) (b : GprNum) (d : BitVec 32), .fs ∉ o.pfx → .gs ∉ o.pfx → .addrSize ∉ o.pfx →
    o.src3 = .mem (.base b (.d32 d)) →
    readVexSrc3 o s = memRead (s.gprAt b + d.signExtend 64) (stackAccess o.pfx (.base b (.d32 d))) s) ∧
  ∀ (o : EvexOperands) (s : State) (b : GprNum) (d : BitVec 32), .fs ∉ o.pfx → .gs ∉ o.pfx → .addrSize ∉ o.pfx →
    o.src3 = .mem (.base b (.d32 d)) false →
    readEvexSrc3 o s = memRead (s.gprAt b + d.signExtend 64) (stackAccess o.pfx (.base b (.d32 d))) s

/-- R57: an address is canonical when its bits from VA_BITS - 1 up are all equal; with 48 bits, when it is below
0000_8000_0000_0000H or from FFFF_8000_0000_0000H on. -/
def Obligations.CanonicalAddress : Prop :=
  ∀ (s : State) (a : Word),
    (s.canonical a = true ↔ ∀ j, s.params.vaBits.bits - 1 ≤ j → j < 64 →
      a.getLsbD j = a.getLsbD (s.params.vaBits.bits - 1)) ∧
    (s.params.vaBits = .va48 →
      (s.canonical a = true ↔ a.toNat < 0x0000800000000000 ∨ 0xFFFF800000000000 ≤ a.toNat))

/-! ## Arithmetic -/

/-- R135, R136: with a NaN operand the result is the first NaN in the order x, y, z, made quiet, its sign and payload
kept; IE exactly when some operand is signalling, whichever supplies the result; nothing else is flagged. That a NaN
suppresses DE is R139, decision D21, the sub-case U7 (log 27, DEDUCED). -/
def Obligations.NanSelection : Prop :=
  ∀ (x y z : Word) (rm : RoundingMode) (ctl : FpControl) (pe : Bool),
    let n := if isNaN x then x else if isNaN y then y else z
    let snan := isSNaN x || isSNaN y || isSNaN z
    isNaN x = true ∨ isNaN y = true ∨ isNaN z = true →
    (snan = false ∨ ctl.im = true → fnmadd64 x y z rm ctl pe = .value (n ||| 0x0008000000000000#64) { ie := snan }) ∧
    (snan = true → ctl.im = false → fnmadd64 x y z rm ctl pe = .trap { ie := true }) ∧
    (n ||| 0x0008000000000000#64).getLsbD 63 = n.getLsbD 63 ∧
    (n ||| 0x0008000000000000#64).extractLsb' 0 51 = n.extractLsb' 0 51 ∧
    isNaN (n ||| 0x0008000000000000#64) = true ∧ isSNaN (n ||| 0x0008000000000000#64) = false

/-- R137, R138: with no NaN, infinity times zero whatever z is, and an infinite product against an infinity of the
opposite sign, are invalid: IE and the default NaN, or a trap; an infinity of the product's own sign is the result.
With DAZ a denormal counts as a zero. That an invalid operation suppresses DE and an infinite result does not is R139,
decision D21, the sub-cases U7 (log 27, DEDUCED). -/
def Obligations.InvalidOperations : Prop :=
  ∀ (x y z : Word) (rm : RoundingMode) (ctl : FpControl) (pe : Bool),
    isNaN x = false → isNaN y = false → isNaN z = false →
    let invalid : FmaResult :=
      if ctl.im then .value 0xFFF8000000000000#64 { ie := true } else .trap { ie := true }
    let ps := !(x.getLsbD 63 ^^ y.getLsbD 63)
    ((isInf x = true ∧ readsAsZero ctl y) ∨ (readsAsZero ctl x ∧ isInf y = true) →
      fnmadd64 x y z rm ctl pe = invalid) ∧
    ((isInf x = true ∧ ¬ readsAsZero ctl y) ∨ (¬ readsAsZero ctl x ∧ isInf y = true) → isInf z = true →
      (z.getLsbD 63 ≠ ps → fnmadd64 x y z rm ctl pe = invalid) ∧
      (z.getLsbD 63 = ps → denormalPasses ctl x y z →
        fnmadd64 x y z rm ctl pe = .value z { de := denormalOperand ctl x y z }))

/-- R140: infinite results are exact: an infinite product with a finite addend gives infinity with the negated
product's sign, a finite product with an infinite addend gives the addend; no OE, no PE, and DE by R139 alone. That
infinity times a denormal flags DE is its decision D21, the sub-case U7 (log 27, DEDUCED). -/
def Obligations.InfiniteResultsExact : Prop :=
  ∀ (x y z : Word) (rm : RoundingMode) (ctl : FpControl) (pe : Bool), denormalPasses ctl x y z →
    let ps := !(x.getLsbD 63 ^^ y.getLsbD 63)
    ((isInf x = true ∧ isNaN y = false ∧ ¬ readsAsZero ctl y) ∨
        (isInf y = true ∧ isNaN x = false ∧ ¬ readsAsZero ctl x) → isFinite z = true →
      fnmadd64 x y z rm ctl pe =
        .value (if ps then 0xFFF0000000000000#64 else 0x7FF0000000000000#64)
          { de := denormalOperand ctl x y z }) ∧
    (isFinite x = true → isFinite y = true → isInf z = true →
      fnmadd64 x y z rm ctl pe = .value z { de := denormalOperand ctl x y z })

/-- R139: with no NaN and no invalid operation DE is flagged exactly when an operand is denormal and DAZ = 0, along
with whatever else is flagged; with DM = 0 it traps alone. With a NaN or an invalid operation it is not flagged.
(Decision D21, log 27.) -/
def Obligations.DenormalOperandFlag : Prop :=
  ∀ (x y z : Word) (rm : RoundingMode) (ctl : FpControl) (pe : Bool),
    let special := isNaN x || isNaN y || isNaN z ||
      invalidOp (applyDaz ctl x) (applyDaz ctl y) (applyDaz ctl z)
    let f := (fnmadd64 x y z rm ctl pe).flags
    (special = true → f.de = false) ∧
    (special = false → f.de = denormalOperand ctl x y z) ∧
    (special = false → denormalOperand ctl x y z = true → ctl.dm = false →
      fnmadd64 x y z rm ctl pe = .trap { de := true })

/-- R134: with DAZ a denormal operand is the zero of its sign in everything that follows, and DE is not raised; with no
denormal operand DAZ changes nothing. -/
def Obligations.DenormalsAreZeros : Prop :=
  ∀ (x y z : Word) (rm : RoundingMode) (ctl : FpControl) (pe : Bool),
    (ctl.daz = true →
      (isDenormal x = true →
        fnmadd64 x y z rm ctl pe = fnmadd64 (x &&& 0x8000000000000000#64) y z rm ctl pe) ∧
      (isDenormal y = true →
        fnmadd64 x y z rm ctl pe = fnmadd64 x (y &&& 0x8000000000000000#64) z rm ctl pe) ∧
      (isDenormal z = true →
        fnmadd64 x y z rm ctl pe = fnmadd64 x y (z &&& 0x8000000000000000#64) rm ctl pe) ∧
      (fnmadd64 x y z rm ctl pe).flags.de = false) ∧
    (isDenormal x = false → isDenormal y = false → isDenormal z = false →
      fnmadd64 x y z rm ctl pe = fnmadd64 x y z rm { ctl with daz := false } pe)

/-- R141: the sign of an exact zero sum of finite operands: two zeros of one sign keep it; otherwise +0, and -0 when
rounding down; nothing is flagged but DE. That DE is flagged beside an exact zero is R139, decision D21 (log 27,
DEDUCED). -/
def Obligations.ExactZeroSign : Prop :=
  ∀ (x y z : Word) (rm : RoundingMode) (ctl : FpControl) (pe : Bool),
    isFinite x = true → isFinite y = true → isFinite z = true → denormalPasses ctl x y z →
    let x' := applyDaz ctl x
    let y' := applyDaz ctl y
    let z' := applyDaz ctl z
    let ps := !(x.getLsbD 63 ^^ y.getLsbD 63)
    let zero : Bool → Word := fun neg => if neg then 0x8000000000000000#64 else 0
    exactReal x' y' z' = 0 →
    (realValue x' * realValue y' = 0 → ps = z.getLsbD 63 →
      fnmadd64 x y z rm ctl pe = .value (zero ps) { de := denormalOperand ctl x y z }) ∧
    (realValue x' * realValue y' ≠ 0 ∨ ps ≠ z.getLsbD 63 →
      fnmadd64 x y z rm ctl pe = .value (zero (rm == .rd)) { de := denormalOperand ctl x y z })

/-- R125, R142, R122, R145: a finite result of finite operands, without FTZ, is the exact sum rounded once, in the mode
given, to the binary64 values, denormal ones included. -/
def Obligations.CorrectRounding : Prop :=
  ∀ (x y z : Word) (rm : RoundingMode) (ctl : FpControl) (pe : Bool) (r : Word) (f : FpFlags),
    isFinite x = true → isFinite y = true → isFinite z = true → ctl.ftz = false →
    fnmadd64 x y z rm ctl pe = .value r f → isFinite r = true →
    RoundsTo rm (exactReal (applyDaz ctl x) (applyDaz ctl y) (applyDaz ctl z)) r

/-- R142, R143, R145: without FTZ, PE is flagged with a delivered value exactly when that value is not the exact sum. -/
def Obligations.PrecisionFlagTellsInexact : Prop :=
  ∀ (x y z : Word) (rm : RoundingMode) (ctl : FpControl) (pe : Bool) (r : Word) (f : FpFlags),
    isFinite x = true → isFinite y = true → isFinite z = true → ctl.ftz = false →
    fnmadd64 x y z rm ctl pe = .value r f →
    (f.pe = true ↔ isFinite r = false ∨
      realValue r ≠ exactReal (applyDaz ctl x) (applyDaz ctl y) (applyDaz ctl z))

/-- R143, R147: overflow, told by the thresholds of `OverflowsReal`: masked, the result of the rule's table with OE and
PE; unmasked, a trap with OE, PE being free (log 15). Without it OE is not flagged. The thresholds are the model's
inference from R143 (log 27). -/
def Obligations.OverflowResult : Prop :=
  ∀ (x y z : Word) (rm : RoundingMode) (ctl : FpControl) (pe : Bool),
    isFinite x = true → isFinite y = true → isFinite z = true → denormalPasses ctl x y z →
    let v := exactReal (applyDaz ctl x) (applyDaz ctl y) (applyDaz ctl z)
    let de := denormalOperand ctl x y z
    let r : Word :=
      match rm with
      | .rn => if v < 0 then 0xFFF0000000000000#64 else 0x7FF0000000000000#64
      | .rz => if v < 0 then 0xFFEFFFFFFFFFFFFF#64 else 0x7FEFFFFFFFFFFFFF#64
      | .ru => if v < 0 then 0xFFEFFFFFFFFFFFFF#64 else 0x7FF0000000000000#64
      | .rd => if v < 0 then 0xFFF0000000000000#64 else 0x7FEFFFFFFFFFFFFF#64
    (OverflowsReal rm v → ctl.om = true → ctl.pm = true →
      fnmadd64 x y z rm ctl pe = .value r { de := de, oe := true, pe := true }) ∧
    (OverflowsReal rm v → ctl.om = true → ctl.pm = false →
      fnmadd64 x y z rm ctl pe = .trap { de := de, oe := true, pe := true }) ∧
    (OverflowsReal rm v → ctl.om = false →
      ∃ p, fnmadd64 x y z rm ctl pe = .trap { de := de, oe := true, pe := p }) ∧
    (¬ OverflowsReal rm v → (fnmadd64 x y z rm ctl pe).flags.oe = false)

/-- R144, R145, R147: tininess after rounding, told by the thresholds of `TinyReal`: masked, without FTZ, the exact sum
rounded once, with its sign, UE and PE flagged together exactly when it is inexact; unmasked, a trap with UE even when
it is exact. A result that is not tiny flags no UE. The thresholds are the model's inference from R144 (log 27). -/
def Obligations.UnderflowResult : Prop :=
  ∀ (x y z : Word) (rm : RoundingMode) (ctl : FpControl) (pe : Bool),
    isFinite x = true → isFinite y = true → isFinite z = true → denormalPasses ctl x y z →
    let v := exactReal (applyDaz ctl x) (applyDaz ctl y) (applyDaz ctl z)
    let de := denormalOperand ctl x y z
    (TinyReal rm v → ctl.um = true → ctl.ftz = false →
      ∃ r, RoundsTo rm v r ∧ isFinite r = true ∧ fSign r = decide (v < 0) ∧
        fnmadd64 x y z rm ctl pe =
          (if realValue r = v then .value r { de := de }
          else if ctl.pm then .value r { de := de, ue := true, pe := true }
          else .trap { de := de, ue := true, pe := true })) ∧
    (TinyReal rm v → ctl.um = false →
      ∃ p, fnmadd64 x y z rm ctl pe = .trap { de := de, ue := true, pe := p } ∧
        (p = true → ∃ r, RoundsTo rm v r ∧ isFinite r = true ∧ realValue r ≠ v)) ∧
    (¬ TinyReal rm v → (fnmadd64 x y z rm ctl pe).flags.ue = false)

/-- R146, tininess being told by `TinyReal` (log 27): with UM = 1 and FTZ = 1 a tiny result, exact or not, is the
zero of its sign with UE and PE; FTZ changes no other result, and nothing when UM = 0. -/
def Obligations.FlushToZero : Prop :=
  ∀ (x y z : Word) (rm : RoundingMode) (ctl : FpControl) (pe : Bool),
    isFinite x = true → isFinite y = true → isFinite z = true → denormalPasses ctl x y z →
    let v := exactReal (applyDaz ctl x) (applyDaz ctl y) (applyDaz ctl z)
    let de := denormalOperand ctl x y z
    (TinyReal rm v → ctl.um = true → ctl.ftz = true →
      fnmadd64 x y z rm ctl pe =
        (if ctl.pm then
          .value (if v < 0 then 0x8000000000000000#64 else 0) { de := de, ue := true, pe := true }
        else .trap { de := de, ue := true, pe := true })) ∧
    (¬ TinyReal rm v ∨ ctl.um = false →
      fnmadd64 x y z rm ctl pe = fnmadd64 x y z rm { ctl with ftz := false } pe)

/-- R147, R201: an evaluation traps exactly when it detects a cause whose mask is 0: a value carries only masked
causes, a trap carries an unmasked one, and a trap on IE or DE reports only that; ZE is never reported. -/
def Obligations.UnmaskedCauseTraps : Prop :=
  ∀ (x y z : Word) (rm : RoundingMode) (ctl : FpControl) (pe : Bool),
    (∀ r f, fnmadd64 x y z rm ctl pe = .value r f →
      (f.ie = true → ctl.im = true) ∧ (f.de = true → ctl.dm = true) ∧ (f.oe = true → ctl.om = true) ∧
        (f.ue = true → ctl.um = true) ∧ (f.pe = true → ctl.pm = true)) ∧
    ∀ f, fnmadd64 x y z rm ctl pe = .trap f →
      ((f.ie = true ∧ ctl.im = false) ∨ (f.de = true ∧ ctl.dm = false) ∨ (f.oe = true ∧ ctl.om = false) ∨
        (f.ue = true ∧ ctl.um = false) ∨ (f.pe = true ∧ ctl.pm = false)) ∧
      (f.ie = true → f = { ie := true }) ∧ (f.de = true → ctl.dm = false → f = { de := true }) ∧
      f.bits.getLsbD 2 = false

/-- R149: with every exception masked the function never traps, and the free value of R147 does not show. -/
def Obligations.AllMaskedNeverTraps : Prop :=
  ∀ (x y z : Word) (rm : RoundingMode) (ctl : FpControl), ctl.AllMasked →
    ∃ r f, ∀ pe, fnmadd64 x y z rm ctl pe = .value r f

/-- R152, which the spec marks as derived from R133 and R136: exchanging the multiplicands changes nothing unless both
are NaN. -/
def Obligations.MultiplicandsCommute : Prop :=
  ∀ (x y z : Word) (rm : RoundingMode) (ctl : FpControl) (pe : Bool), (isNaN x && isNaN y) = false →
    fnmadd64 x y z rm ctl pe = fnmadd64 y x z rm ctl pe

/-- R153, which the spec marks as derived from R133: the worked values, and what an unfused multiply and subtraction
would give. -/
def Obligations.WorkedValues : Prop :=
  let ctl : FpControl := mxcsrControl 0x1F80#32
  ∀ pe,
    fnmadd64 0x4008000000000000 0x4000000000000000 0x4024000000000000 .rn ctl pe =
      .value 0x4010000000000000 {} ∧
    fnmadd64 0x3FF0000000000001 0x3FF0000000000001 0x3FF0000000000002 .rn ctl pe =
      .value 0xB970000000000000 {} ∧
    fnmadd64 0x3FF0000000000001 0x3FF0000000000001 0 .rn ctl pe =
      .value 0xBFF0000000000002 { pe := true } ∧
    fnmadd64 0x3FF0000000000002 0x3FF0000000000000 0x3FF0000000000002 .rn ctl pe = .value 0 {}

end
end

