-- ==== Sys2Proof/Laws/Decode.lean ====
section
/-! SUPPORT. The decoder's parts undo the encoder's: prefixes, displacements, register fields. -/

namespace Sys2Proof

@[simp] theorem prefixOf_byte (p : LegacyPrefix) : prefixOf p.byte = some p := by
  cases p with
  | rex w => revert w; decide
  | _ => rfl

theorem prefixOf_vex : prefixOf 0xC4#8 = none := by decide

theorem prefixOf_evex : prefixOf 0x62#8 = none := by decide

/-- Prefixes followed by another byte are consumed, and nothing else. -/
theorem takePrefixes_append (ps : List LegacyPrefix) {b : Byte} (h : prefixOf b = none) (rest : List Byte) :
    takePrefixes (ps.map LegacyPrefix.byte ++ b :: rest) = (ps, b :: rest) := by
  induction ps with
  | nil => simp [takePrefixes, h]
  | cons p ps ih => simp [takePrefixes, ih]

/-- The bytes that `takePrefixes` counts are prefixes. -/
theorem takePrefixes_getElem (bs : List Byte) (j : Nat) (hj : j < (takePrefixes bs).1.length) :
    ∃ h : j < bs.length, (prefixOf bs[j]).isSome = true := by
  induction bs generalizing j with
  | nil => simp [takePrefixes] at hj
  | cons b bs ih =>
    cases hp : prefixOf b with
    | none => simp [takePrefixes, hp] at hj
    | some p =>
      cases j with
      | zero => exact ⟨by simp, by simp [hp]⟩
      | succ j =>
        obtain ⟨h, hs⟩ := ih j (by simpa [takePrefixes, hp] using hj)
        exact ⟨by simpa using h, by simpa using hs⟩

/-- The byte of the prefix a byte is. -/
theorem byte_of_prefixOf {b : Byte} {p : LegacyPrefix} (h : prefixOf b = some p) : p.byte = b := by
  have all : ∀ b : Byte, ((prefixOf b).map LegacyPrefix.byte).getD b = b := by decide +kernel
  have := all b
  rwa [h] at this

/-- `takePrefixes` splits its bytes: the prefixes, and the rest, which begins with none. -/
theorem takePrefixes_split (bs : List Byte) :
    bs = (takePrefixes bs).1.map LegacyPrefix.byte ++ (takePrefixes bs).2 ∧
      ∀ b, (takePrefixes bs).2.head? = some b → prefixOf b = none := by
  induction bs with
  | nil => simp [takePrefixes]
  | cons b bs ih =>
    cases hp : prefixOf b with
    | none => simp [takePrefixes, hp]
    | some p =>
      simp only [takePrefixes, hp, List.map_cons, List.cons_append, byte_of_prefixOf hp, List.cons.injEq, true_and]
      exact ih

@[simp] theorem bytes32_length (d : BitVec 32) : (bytes32 d).length = 4 := rfl

/-- The four bytes of a displacement give it back. -/
@[simp] theorem takeDisp32_bytes32 (d : BitVec 32) (rest : List Byte) :
    takeDisp32 (bytes32 d ++ rest) = some d := by
  simp only [bytes32, List.cons_append, takeDisp32, le32, Option.some.injEq]
  apply BitVec.eq_of_getLsbD_eq
  intro i hi
  simp only [BitVec.getLsbD_append, BitVec.getLsbD_extractLsb']
  split
  · rename_i h
    simp [h]
  · split
    · rename_i h1 h2
      simp [h2, show 8 + (i - 8) = i by omega]
    · split
      · rename_i h1 h2 h3
        simp [h3, show 16 + (i - 8 - 8) = i by omega]
      · rename_i h1 h2 h3
        simp [show i - 8 - 8 - 8 < 8 by omega, show 24 + (i - 8 - 8 - 8) = i by omega]

@[simp] theorem Disp.encode_length (d : Disp) : d.encode.length = d.bytes := by
  cases d <;> rfl

/-- A displacement is read back from its bytes. -/
@[simp] theorem decodeDisp_encode (d : Disp) (rest : List Byte) :
    decodeDisp d.mod (d.encode ++ rest) = some d := by
  cases d with
  | none => rfl
  | d8 d => rfl
  | d32 d => simp [decodeDisp, Disp.mod, Disp.encode]

@[simp] theorem orderOf_opcode (ord : FmaOrder) : orderOf ord.opcode = some ord := by
  cases ord <;> rfl

@[simp] theorem RoundingMode.ofBits_bits (m : RoundingMode) : RoundingMode.ofBits m.bits = m := by
  cases m <;> rfl

/-! ## Register fields -/

theorem ext4_split (n : BitVec 4) : ext4 (n.getLsbD 3) (n.setWidth 3) = n := by
  revert n; decide

theorem ext5_split (n : BitVec 5) : ext5 (n.getLsbD 4) (n.setWidth 4) = n := by
  revert n; decide

@[simp] theorem ext4_split_getElem (n : BitVec 4) : ext4 n[3] (n.setWidth 3) = n := ext4_split n

@[simp] theorem ext5_split_getElem (n : BitVec 5) : ext5 n[4] (n.setWidth 4) = n := ext5_split n

/-- The bits of VEX byte 1 (R72), upright in, inverted in the byte. -/
theorem vexByte1_fields (r x b : Bool) (v : Byte)
    (h : v = BitVec.ofBool (!r) ++ BitVec.ofBool (!x) ++ BitVec.ofBool (!b) ++ 2#5) :
    v.extractLsb' 0 5 = 2#5 ∧ v.getLsbD 7 = !r ∧ v.getLsbD 6 = !x ∧ v.getLsbD 5 = !b := by
  subst h; revert r x b; decide

/-- The bits of VEX byte 2 (R72). -/
theorem vexByte2_fields (n : BitVec 4) (v : Byte) (h : v = 1#1 ++ ~~~ n ++ 0#1 ++ 1#2) :
    v.extractLsb' 0 2 = 1#2 ∧ v.getLsbD 7 = true ∧ vvvvOf v = n := by
  subst h; revert n; decide

/-- The bits of EVEX P0 (R76). -/
theorem evexP0_fields (r x b r' : Bool) (v : Byte)
    (h : v = BitVec.ofBool (!r) ++ BitVec.ofBool (!x) ++ BitVec.ofBool (!b) ++ BitVec.ofBool (!r') ++ 0#2 ++ 2#2) :
    v.extractLsb' 2 2 = 0#2 ∧ v.extractLsb' 0 2 = 2#2 ∧ v.getLsbD 7 = !r ∧ v.getLsbD 6 = !x ∧
      v.getLsbD 5 = !b ∧ v.getLsbD 4 = !r' := by
  subst h; revert r x b r'; decide

/-- The bits of EVEX P1 (R76). -/
theorem evexP1_fields (n : BitVec 4) (v : Byte) (h : v = 1#1 ++ ~~~ n ++ 1#1 ++ 1#2) :
    v.extractLsb' 0 2 = 1#2 ∧ v.getLsbD 2 = true ∧ v.getLsbD 7 = true ∧ vvvvOf v = n := by
  subst h; revert n; decide

/-- The bits of EVEX P2 (R76). -/
theorem evexP2_fields (z b v' : Bool) (ll : BitVec 2) (aaa : BitVec 3) (v : Byte)
    (h : v = BitVec.ofBool z ++ ll ++ BitVec.ofBool b ++ BitVec.ofBool (!v') ++ aaa) :
    v.getLsbD 7 = z ∧ v.extractLsb' 5 2 = ll ∧ v.getLsbD 4 = b ∧ v.getLsbD 3 = !v' ∧ low3 v = aaa := by
  subst h; revert z b v' ll aaa; decide

theorem sibByte_fields (s : BitVec 2) (i b : BitVec 3) :
    hi2 (sibByte s i b) = s ∧ mid3 (sibByte s i b) = i ∧ low3 (sibByte s i b) = b := by
  revert s i b; decide

theorem modrmByte_fields (m : BitVec 2) (r n : BitVec 3) :
    hi2 (modrmByte m r n) = m ∧ mid3 (modrmByte m r n) = r ∧ low3 (modrmByte m r n) = n :=
  sibByte_fields m r n

/-! ## Bytes the decoder still needs -/

theorem takeDisp32_none {bs : List Byte} (h : takeDisp32 bs = none) : bs.length < 4 := by
  unfold takeDisp32 at h
  split at h
  · cases h
  · rename_i hn
    match bs, hn with
    | [], _ => simp
    | [_], _ => simp
    | [_, _], _ => simp
    | [_, _, _], _ => simp
    | a :: b :: c :: d :: r, hn => exact absurd rfl (hn a b c d r)

theorem decodeDisp_none {mod : BitVec 2} {bs : List Byte} (h : decodeDisp mod bs = none) : bs.length < 4 := by
  unfold decodeDisp at h
  split at h
  · cases h
  · split at h
    · cases bs with
      | nil => simp
      | cons b bs => simp at h
    · exact takeDisp32_none (by simpa using h)

theorem decodeMem_none {x b : Bool} {mod : BitVec 2} {rm : BitVec 3} {bs : List Byte}
    (h : decodeMem x b mod rm bs = none) : bs.length < 5 := by
  unfold decodeMem at h
  split at h
  · split at h
    · simp
    · rename_i sib rest
      split at h
      · have := takeDisp32_none (bs := rest) (by simpa using h)
        simp
        omega
      · have := decodeDisp_none (bs := rest) (by simpa using h)
        simp
        omega
  · split at h
    · have := takeDisp32_none (bs := bs) (by simpa using h)
      omega
    · have := decodeDisp_none (bs := bs) (by simpa using h)
      omega

theorem verdictOf_ne_truncated {k : EncKind} {i : Instr} : verdictOf k i ≠ .truncated := by
  unfold verdictOf
  split
  · split <;> nofun
  · nofun

/-- The decoder needs more bytes only where fewer than 11 stand after the prefixes (R71). -/
theorem decode_truncated_length {bs : List Byte} (h : decode bs = .truncated) :
    bs.length < (takePrefixes bs).1.length + 11 := by
  have hs := congrArg List.length (takePrefixes_split bs).1
  simp only [List.length_append, List.length_map] at hs
  suffices (takePrefixes bs).2.length < 11 by omega
  clear hs
  unfold decode at h
  split at h
  · rename_i e
    simp [e]
  · rename_i b rest e
    rw [e]
    simp only [List.length_cons]
    split at h
    · unfold decodeVex at h
      split at h
      · split at h
        · split at h
          · simp
          · split at h
            · cases h
            · unfold decodeVexTail at h
              split at h
              · simp
              · rename_i m tail
                dsimp only at h
                split at h
                · rename_i hn
                  split at hn
                  · cases hn
                  · have := decodeMem_none (bs := tail) (by simpa using hn)
                    simp
                    omega
                · exact absurd h verdictOf_ne_truncated
        · cases h
      · rename_i hn
        match rest, hn with
        | [], _ => simp
        | [_], _ => simp
        | a :: c :: r, hn => exact absurd rfl (hn a c r)
    · split at h
      · unfold decodeEvex at h
        split at h
        · split at h
          · split at h <;> cases h
          · split at h
            · split at h
              · simp
              · split at h
                · cases h
                · unfold decodeEvexTail at h
                  split at h
                  · simp
                  · rename_i m tail
                    dsimp only at h
                    split at h
                    · rename_i hn
                      split at hn
                      · cases hn
                      · have := decodeMem_none (bs := tail) (by simpa using hn)
                        simp
                        omega
                    · exact absurd h verdictOf_ne_truncated
            · cases h
        · rename_i hn
          match rest, hn with
          | [], _ => simp
          | [_], _ => simp
          | [_, _], _ => simp
          | a :: c :: d :: r, hn => exact absurd rfl (hn a c d r)
      · cases h

/-! ## Lengths (R105) -/

@[simp] theorem MemAddr.fields_tail_length (a : MemAddr) : a.fields.tail.length = a.tailBytes := by
  cases a <;> simp [MemAddr.fields, MemAddr.tailBytes, Nat.add_comm]

@[simp] theorem VexSrc3.fields_tail_length (a : VexSrc3) : a.fields.tail.length = a.tailBytes := by
  cases a with
  | reg n => rfl
  | mem a => exact a.fields_tail_length

@[simp] theorem EvexSrc3.fields_tail_length (a : EvexSrc3) : a.fields.tail.length = a.tailBytes := by
  cases a with
  | reg n er => rfl
  | mem a b => exact a.fields_tail_length

theorem encodeVex_length (ord : FmaOrder) (o : VexOperands) : (encodeVex ord o).length = o.length := by
  simp [encodeVex, VexOperands.length]
  omega

theorem encodeEvex_length (ord : FmaOrder) (o : EvexOperands) : (encodeEvex ord o).length = o.length := by
  simp [encodeEvex, EvexOperands.length]
  omega

end Sys2Proof
end

