-- ==== Sys2Proof/Laws/PerInstr.lean ====
section
/-! SUPPORT. Facts about instructions as syntax, one lemma per constructor. EncodeLength: an instruction's encoding
has the length of R105, and it never has fewer than the bytes of R71. -/

namespace Sys2Proof.Laws.EncodeLength

/-- The encoding of `i` is `i.length` bytes: at least 5, at most 11 beside its prefixes (R71). -/
def Statement (i : Instr) : Prop :=
  (encode i).length = i.length ∧ i.pfx.length + 5 ≤ i.length ∧ i.length ≤ i.pfx.length + 11

theorem disp_le (d : Disp) : d.bytes ≤ 4 := by cases d <;> simp [Disp.bytes]

theorem mem_le (a : MemAddr) : a.tailBytes ≤ 5 := by
  cases a with
  | ripRel d => simp [MemAddr.tailBytes]
  | base n d => have := disp_le d; simp only [MemAddr.tailBytes]; omega
  | sib b i s d => have := disp_le d; simp only [MemAddr.tailBytes]; omega
  | sibNoBase i s d => simp [MemAddr.tailBytes]

theorem vex_bounds (o : VexOperands) : o.pfx.length + 5 ≤ o.length ∧ o.length ≤ o.pfx.length + 11 := by
  have : o.src3.tailBytes ≤ 5 := by
    cases h : o.src3 with
    | reg n => simp [VexSrc3.tailBytes]
    | mem a => exact mem_le a
  simp only [VexOperands.length]
  omega

theorem evex_bounds (o : EvexOperands) : o.pfx.length + 5 ≤ o.length ∧ o.length ≤ o.pfx.length + 11 := by
  have : o.src3.tailBytes ≤ 5 := by
    cases h : o.src3 with
    | reg n er => simp [EvexSrc3.tailBytes]
    | mem a b => exact mem_le a
  simp only [EvexOperands.length]
  omega

theorem vfnmadd132sdVex (o : VexOperands) : Statement (.vfnmadd132sdVex o) :=
  ⟨encodeVex_length _ o, vex_bounds o⟩

theorem vfnmadd213sdVex (o : VexOperands) : Statement (.vfnmadd213sdVex o) :=
  ⟨encodeVex_length _ o, vex_bounds o⟩

theorem vfnmadd231sdVex (o : VexOperands) : Statement (.vfnmadd231sdVex o) :=
  ⟨encodeVex_length _ o, vex_bounds o⟩

theorem vfnmadd132sdEvex (o : EvexOperands) : Statement (.vfnmadd132sdEvex o) :=
  ⟨encodeEvex_length _ o, evex_bounds o⟩

theorem vfnmadd213sdEvex (o : EvexOperands) : Statement (.vfnmadd213sdEvex o) :=
  ⟨encodeEvex_length _ o, evex_bounds o⟩

theorem vfnmadd231sdEvex (o : EvexOperands) : Statement (.vfnmadd231sdEvex o) :=
  ⟨encodeEvex_length _ o, evex_bounds o⟩

end Sys2Proof.Laws.EncodeLength
end

