-- ==== Sys2Proof/Laws/Encoding.lean ====
section
/-! SUPPORT. Encodings compared up to their ignored bits: `SameUpTo`, the masks, what the decoder's parts read in the
words of the encoder, and the bytes the encoder gives for what the decoder read. -/

namespace Sys2Proof.Machine

/-! ## SameUpTo -/

@[simp] theorem sameUpTo_nil : SameUpTo [] [] [] := trivial

@[simp] theorem sameUpTo_cons {m a b : Byte} {ms as bs : List Byte} :
    SameUpTo (m :: ms) (a :: as) (b :: bs) ↔ a &&& ~~~ m = b &&& ~~~ m ∧ SameUpTo ms as bs := Iff.rfl

/-- Strings compared have one length, that of the mask. -/
theorem SameUpTo.length : ∀ {ms as bs : List Byte}, SameUpTo ms as bs → as.length = ms.length ∧ bs.length = ms.length
  | [], [], [], _ => ⟨rfl, rfl⟩
  | _ :: _, _ :: _, _ :: _, h => by
    have := SameUpTo.length h.2
    simp only [List.length_cons]
    omega

/-- Where the mask is 0 the strings are equal. -/
theorem sameUpTo_zeros {α : Type} : ∀ (l : List α) (as bs : List Byte),
    SameUpTo (l.map fun _ => 0#8) as bs ↔ as.length = l.length ∧ as = bs
  | [], [], [] => by simp
  | [], [], _ :: _ => by simp [SameUpTo]
  | [], _ :: _, _ => by simp [SameUpTo]
  | _ :: _, [], _ => by simp [SameUpTo]
  | _ :: _, _ :: _, [] => by simp [SameUpTo]
  | _ :: l, a :: as, b :: bs => by
    rw [List.map_cons, sameUpTo_cons, sameUpTo_zeros l as bs]
    have h : ∀ x : Byte, x &&& ~~~ 0#8 = x := by decide
    simp only [h, List.length_cons, List.cons.injEq, Nat.add_right_cancel_iff]
    tauto

theorem sameUpTo_replicate (n : Nat) (as bs : List Byte) :
    SameUpTo (List.replicate n 0#8) as bs ↔ as.length = n ∧ as = bs := by
  have := sameUpTo_zeros (List.range n) as bs
  rwa [List.map_const', List.length_range] at this

/-- A comparison along a concatenation. -/
theorem sameUpTo_append : ∀ (ms : List Byte) {ms' as bs bs' : List Byte}, bs.length = ms.length →
    (SameUpTo (ms ++ ms') as (bs ++ bs') ↔
      ∃ a a', as = a ++ a' ∧ SameUpTo ms a bs ∧ SameUpTo ms' a' bs')
  | [], ms', as, [], bs', _ => by
    constructor
    · exact fun h => ⟨[], as, rfl, trivial, h⟩
    · rintro ⟨a, a', rfl, h, h'⟩
      cases a with
      | nil => exact h'
      | cons _ _ => exact h.elim
  | m :: ms, ms', as, b :: bs, bs', hl => by
    cases as with
    | nil =>
      constructor
      · exact fun h => h.elim
      · rintro ⟨a, a', h0, h, -⟩
        cases a with
        | nil => exact h.elim
        | cons _ _ => cases h0
    | cons x as =>
      rw [List.cons_append, List.cons_append, sameUpTo_cons, sameUpTo_append ms (by simpa using hl)]
      constructor
      · rintro ⟨h, a, a', rfl, h1, h2⟩
        exact ⟨x :: a, a', rfl, ⟨h, h1⟩, h2⟩
      · rintro ⟨a, a', h0, h1, h2⟩
        cases a with
        | nil => exact h1.elim
        | cons y a =>
          cases h0
          exact ⟨h1.1, a, a', rfl, h1.2, h2⟩

/-- A string is the same as itself under any mask of its length. -/
theorem sameUpTo_refl : ∀ {ms as : List Byte}, ms.length = as.length → SameUpTo ms as as
  | [], [], _ => trivial
  | _ :: _, _ :: _, h => ⟨rfl, sameUpTo_refl (by simpa using h)⟩

/-- The mask has a byte for each byte of the instruction. -/
theorem ignoredBits_length (i : Instr) : (ignoredBits i).length = i.length := by
  have vex : ∀ o, (ignoredBits.vexIgnored o).length = o.length := fun o => by
    simp [ignoredBits.vexIgnored, VexOperands.length]
    omega
  have evex : ∀ o, (ignoredBits.evexIgnored o).length = o.length := fun o => by
    simp [ignoredBits.evexIgnored, EvexOperands.length]
    omega
  cases i with
  | vfnmadd132sdVex o => exact vex o
  | vfnmadd213sdVex o => exact vex o
  | vfnmadd231sdVex o => exact vex o
  | vfnmadd132sdEvex o => exact evex o
  | vfnmadd213sdEvex o => exact evex o
  | vfnmadd231sdEvex o => exact evex o

/-- Two bytes equal but for a mask agree in every bit outside it. -/
theorem masked_getLsbD {m v w : Byte} (h : v &&& ~~~ m = w &&& ~~~ m) {i : Nat} (hm : m.getLsbD i = false) :
    v.getLsbD i = w.getLsbD i := by
  by_cases hi : i < 8
  · have := congrArg (fun b : Byte => b.getLsbD i) h
    simp only [BitVec.getLsbD_and, BitVec.getLsbD_not, hm, hi, decide_true, Bool.not_false, Bool.and_true] at this
    exact this
  · rw [BitVec.getLsbD_of_ge v i (by omega), BitVec.getLsbD_of_ge w i (by omega)]

/-- They agree in every field outside the mask. -/
theorem masked_extract {m v w : Byte} (h : v &&& ~~~ m = w &&& ~~~ m) (lo len : Nat)
    (hm : ∀ i, i < len → m.getLsbD (lo + i) = false) : v.extractLsb' lo len = w.extractLsb' lo len := by
  apply BitVec.eq_of_getLsbD_eq
  intro i hi
  simp only [BitVec.getLsbD_extractLsb', hi, decide_true, Bool.true_and]
  exact masked_getLsbD h (hm i hi)

/-- With nothing masked they are equal. -/
theorem masked_zero {v w : Byte} (h : v &&& ~~~ 0#8 = w &&& ~~~ 0#8) : v = w := by
  have all : ∀ x : Byte, x &&& ~~~ 0#8 = x := by decide
  rwa [all, all] at h

/-- The ignored bits of a memory operand are some of X and B. -/
theorem ignoredMemBits_cases (a : MemAddr) :
    ignoredMemBits a = 0#8 ∨ ignoredMemBits a = 0x20#8 ∨ ignoredMemBits a = 0x40#8 ∨ ignoredMemBits a = 0x60#8 := by
  cases a <;> simp [ignoredMemBits]

/-! ## The displacement and the memory operand -/

/-- The bytes of the displacement that was read. -/
theorem takeDisp32_bytes {bs : List Byte} {d : BitVec 32} (h : takeDisp32 bs = some d) :
    ∃ rest, bs = bytes32 d ++ rest := by
  unfold takeDisp32 at h
  split at h
  · rename_i a b c e rest
    cases h
    refine ⟨rest, ?_⟩
    have parts : bytes32 (le32 a b c e) = [a, b, c, e] := by
      simp only [bytes32, le32, List.cons.injEq, and_true]
      refine ⟨?_, ?_, ?_, ?_⟩ <;>
      · apply BitVec.eq_of_getLsbD_eq
        intro i hi
        simp only [BitVec.getLsbD_extractLsb', BitVec.getLsbD_append, hi, decide_true, Bool.true_and]
        split_ifs <;> first | omega | exact congrArg _ (by omega)
    rw [parts]
    rfl
  · cases h

/-- The bytes and the `mod` field of the displacement that was read. -/
theorem decodeDisp_bytes {mod : BitVec 2} {bs : List Byte} {d : Disp} (hm : mod ≠ 3#2)
    (h : decodeDisp mod bs = some d) : d.mod = mod ∧ ∃ rest, bs = d.encode ++ rest := by
  unfold decodeDisp at h
  split at h
  · rename_i h0
    cases h
    exact ⟨h0.symm, bs, rfl⟩
  · rename_i h0
    split at h
    · rename_i h1
      cases bs with
      | nil => cases h
      | cons b bs =>
        cases h
        exact ⟨h1.symm, bs, rfl⟩
    · rename_i h1
      obtain ⟨e, he, rfl⟩ := Option.map_eq_some_iff.mp h
      refine ⟨?_, takeDisp32_bytes he⟩
      have all : ∀ m : BitVec 2, m ≠ 3#2 → m ≠ 0#2 → m ≠ 1#2 → 2#2 = m := by decide
      exact all mod hm h0 h1

theorem Disp.mod_ne_reg (d : Disp) : d.mod ≠ 3#2 := by cases d <;> (simp only [Disp.mod]; decide)

theorem ext4_low (x : Bool) (n : BitVec 3) : (ext4 x n).setWidth 3 = n := by revert x n; decide

theorem ext4_high (x : Bool) (n : BitVec 3) : (ext4 x n).getLsbD 3 = x := by revert x n; decide

/-- A vector register number from its three fields (R88, R90). -/
theorem vreg_split (n : VregNum) : ext5 (n.getLsbD 4) (ext4 (n.getLsbD 3) (n.setWidth 3)) = n := by revert n; decide

theorem sibByte_parts (b : Byte) : sibByte (hi2 b) (mid3 b) (low3 b) = b := by revert b; decide

theorem modrmByte_parts (b : Byte) : modrmByte (hi2 b) (mid3 b) (low3 b) = b := sibByte_parts b

/-- The opcode byte of the order that was read. -/
theorem opcode_of_orderOf {op : Byte} {ord : FmaOrder} (h : Sys2Proof.orderOf op = some ord) : op = ord.opcode := by
  unfold Sys2Proof.orderOf at h
  split at h
  · cases h
    assumption
  · split at h
    · cases h
      assumption
    · split at h
      · cases h
        assumption
      · cases h

/-! ## The bytes of the two prefixes, put together again from what was read of them -/

/-- VEX byte 1 and, with its bit R', EVEX P0: equal to the encoder's byte where X and B are not ignored. -/
theorem byte1_parts (v : Byte) (x b : Bool) {m : Byte}
    (hm : (m = 0#8 ∧ x = (!v.getLsbD 6) ∧ b = !v.getLsbD 5) ∨ (m = 0x40#8 ∧ b = !v.getLsbD 5) ∨
      (m = 0x20#8 ∧ x = !v.getLsbD 6) ∨ m = 0x60#8) :
    v &&& ~~~ m = (BitVec.ofBool (v.getLsbD 7) ++ BitVec.ofBool (!x) ++ BitVec.ofBool (!b) ++ v.extractLsb' 0 5) &&&
      ~~~ m := by
  rcases hm with ⟨rfl, rfl, rfl⟩ | ⟨rfl, rfl⟩ | ⟨rfl, rfl⟩ | rfl
  · revert v; decide +kernel
  · revert x v; decide +kernel
  · revert b v; decide +kernel
  · revert x b v; decide +kernel

/-- The low five bits of EVEX P0. -/
theorem evexP0_low (v : Byte) (h : v.extractLsb' 2 2 = 0#2 ∧ v.extractLsb' 0 2 = 2#2) :
    v.extractLsb' 0 5 = BitVec.ofBool (v.getLsbD 4) ++ (0#2 ++ 2#2) := by
  revert v; decide +kernel

/-- VEX byte 2, but for L. -/
theorem vexByte2_parts (v : Byte) (h : v.extractLsb' 0 2 = 1#2 ∧ v.getLsbD 7 = true) :
    v &&& ~~~ 4#8 = (1#1 ++ ~~~ (vvvvOf v) ++ 0#1 ++ 1#2) &&& ~~~ 4#8 := by
  revert v; decide +kernel

/-- EVEX P1. -/
theorem evexP1_parts (v : Byte) (h : v.extractLsb' 0 2 = 1#2 ∧ v.getLsbD 2 = true ∧ v.getLsbD 7 = true) :
    v = 1#1 ++ ~~~ (vvvvOf v) ++ 1#1 ++ 1#2 := by
  revert v; decide +kernel

/-- EVEX P2. -/
theorem evexP2_parts (v : Byte) :
    v = BitVec.ofBool (v.getLsbD 7) ++ v.extractLsb' 5 2 ++ BitVec.ofBool (v.getLsbD 4) ++
      BitVec.ofBool (v.getLsbD 3) ++ low3 v := by
  revert v; decide +kernel

/-- EVEX P2, but for L'L. -/
theorem evexP2_parts_masked (v : Byte) (ll : BitVec 2) :
    v &&& ~~~ 0x60#8 = (BitVec.ofBool (v.getLsbD 7) ++ ll ++ BitVec.ofBool (v.getLsbD 4) ++
      BitVec.ofBool (v.getLsbD 3) ++ low3 v) &&& ~~~ 0x60#8 := by
  revert ll v; decide +kernel

/-- Everything a memory operand that was read says of its encoding: its own bytes head those it was read from, its
fields are those read, X and B where they are not ignored, and it can be encoded. -/
theorem decodeMem_fields {x b : Bool} {mod : BitVec 2} {rm : BitVec 3} {bs : List Byte} {a : MemAddr}
    (hm : mod ≠ 3#2) (h : decodeMem x b mod rm bs = some a) :
    a.encodable = true ∧ a.fields.mod = mod ∧ a.fields.rm = rm ∧ (∃ rest, bs = a.fields.tail ++ rest) ∧
      ((ignoredMemBits a = 0#8 ∧ a.fields.x = x ∧ a.fields.b = b) ∨
        (ignoredMemBits a = 0x40#8 ∧ a.fields.b = b) ∨ (ignoredMemBits a = 0x20#8 ∧ a.fields.x = x) ∨
          ignoredMemBits a = 0x60#8) := by
  unfold decodeMem at h
  split at h
  · rename_i hr
    split at h
    · cases h
    · rename_i sib rest
      split at h
      · rename_i h5
        obtain ⟨d, hd, rfl⟩ := Option.map_eq_some_iff.mp h
        obtain ⟨r, rfl⟩ := takeDisp32_bytes hd
        refine ⟨rfl, h5.2.symm, hr.symm, ⟨r, ?_⟩, .inr (.inr (.inl ⟨rfl, ext4_high _ _⟩))⟩
        simp only [MemAddr.fields, ext4_low, ← h5.1, sibByte_parts, List.cons_append]
      · rename_i h5
        obtain ⟨d, hd, rfl⟩ := Option.map_eq_some_iff.mp h
        obtain ⟨hdm, r, rfl⟩ := decodeDisp_bytes hm hd
        refine ⟨?_, hdm, hr.symm, ⟨r, ?_⟩, .inl ⟨rfl, ext4_high _ _, ext4_high _ _⟩⟩
        · simp only [MemAddr.encodable, ext4_low, Bool.or_eq_true, bne_iff_ne, ne_eq]
          by_contra hc
          simp only [not_or, not_not] at hc
          exact h5 ⟨hc.1, by rw [← hdm, hc.2]; rfl⟩
        · simp only [MemAddr.fields, ext4_low, sibByte_parts, List.cons_append]
  · rename_i hr
    split at h
    · rename_i h5
      obtain ⟨d, hd, rfl⟩ := Option.map_eq_some_iff.mp h
      obtain ⟨r, rfl⟩ := takeDisp32_bytes hd
      exact ⟨rfl, h5.1.symm, h5.2.symm, ⟨r, rfl⟩, .inr (.inr (.inr rfl))⟩
    · rename_i h5
      obtain ⟨d, hd, rfl⟩ := Option.map_eq_some_iff.mp h
      obtain ⟨hdm, r, rfl⟩ := decodeDisp_bytes hm hd
      refine ⟨?_, hdm, ext4_low _ _, ⟨r, rfl⟩, .inr (.inl ⟨rfl, ext4_high _ _⟩)⟩
      simp only [MemAddr.encodable, ext4_low, Bool.and_eq_true, Bool.or_eq_true, bne_iff_ne, ne_eq]
      refine ⟨hr, ?_⟩
      by_contra hc
      simp only [not_or, not_not] at hc
      exact h5 ⟨by rw [← hdm, hc.2]; rfl, hc.1⟩

/-- A memory operand is read back from its fields, X and B being read only where they are not ignored. -/
theorem decodeMem_of_fields {a : MemAddr} (he : a.encodable = true) {x b : Bool} (rest : List Byte)
    (hx : (ignoredMemBits a).getLsbD 6 = false → x = a.fields.x)
    (hb : (ignoredMemBits a).getLsbD 5 = false → b = a.fields.b) :
    a.fields.mod ≠ 3#2 ∧ decodeMem x b a.fields.mod a.fields.rm (a.fields.tail ++ rest) = some a := by
  cases a with
  | ripRel d => simp [MemAddr.fields, decodeMem]
  | base n d =>
    simp only [MemAddr.encodable, Bool.and_eq_true, Bool.or_eq_true, bne_iff_ne, ne_eq] at he
    have hb : b = n.getLsbD 3 := hb (show (0x40#8).getLsbD 5 = false by decide)
    subst hb
    have hd : d.mod ≠ 3#2 := Disp.mod_ne_reg d
    have h5 : ¬ (d.mod = 0#2 ∧ n.setWidth 3 = 5#3) := by
      rintro ⟨h1, h2⟩
      rcases he.2 with h | h
      · exact h h2
      · cases d <;> simp_all [Disp.mod]
    refine ⟨hd, ?_⟩
    simp only [MemAddr.fields, decodeMem, if_neg he.1, if_neg h5, decodeDisp_encode, Option.map_some, ext4_split]
  | sib n i s d =>
    simp only [MemAddr.encodable, Bool.or_eq_true, bne_iff_ne, ne_eq] at he
    have hb : b = n.getLsbD 3 := hb (show (0#8).getLsbD 5 = false by decide)
    have hx : x = i.getLsbD 3 := hx (show (0#8).getLsbD 6 = false by decide)
    subst hb hx
    have hd : d.mod ≠ 3#2 := Disp.mod_ne_reg d
    have h5 : ¬ (n.setWidth 3 = 5#3 ∧ d.mod = 0#2) := by
      rintro ⟨h2, h1⟩
      rcases he with h | h
      · exact h h2
      · cases d <;> simp_all [Disp.mod]
    obtain ⟨f1, f2, f3⟩ := sibByte_fields s (i.setWidth 3) (n.setWidth 3)
    refine ⟨hd, ?_⟩
    simp only [MemAddr.fields, decodeMem, if_true, List.cons_append, f1, f2, f3, if_neg h5, decodeDisp_encode,
      Option.map_some, ext4_split]
  | sibNoBase i s d =>
    have hx : x = i.getLsbD 3 := hx (show (0x20#8).getLsbD 6 = false by decide)
    subst hx
    obtain ⟨f1, f2, f3⟩ := sibByte_fields s (i.setWidth 3) 5#3
    refine ⟨by simp [MemAddr.fields], ?_⟩
    simp only [MemAddr.fields, decodeMem, if_true, List.cons_append, f1, f2, f3, and_self, takeDisp32_bytes32,
      Option.map_some, ext4_split]

/-! ## Decoding an encoding -/

theorem ignoredVexBits_cases (a : VexSrc3) :
    ignoredVexBits a = 0#8 ∨ ignoredVexBits a = 0x20#8 ∨ ignoredVexBits a = 0x40#8 ∨ ignoredVexBits a = 0x60#8 := by
  cases a with
  | reg n => simp [ignoredVexBits]
  | mem a => exact ignoredMemBits_cases a

theorem ignoredEvexBits_cases (a : EvexSrc3) :
    ignoredEvexBits a = 0#8 ∨ ignoredEvexBits a = 0x20#8 ∨ ignoredEvexBits a = 0x40#8 ∨ ignoredEvexBits a = 0x60#8 := by
  cases a with
  | reg n er => simp [ignoredEvexBits]
  | mem a b => exact ignoredMemBits_cases a

/-- Operand 3 of a VEX form is read back, X and B where they are not ignored. -/
theorem vexSrc3_of_fields {a : VexSrc3} (he : a.encodable = true) {x b : Bool} (rest : List Byte)
    (hx : (ignoredVexBits a).getLsbD 6 = false → x = a.fields.x)
    (hb : (ignoredVexBits a).getLsbD 5 = false → b = a.fields.b) :
    (if a.fields.mod = 3#2 then some (VexSrc3.reg (ext4 b a.fields.rm))
      else (decodeMem x b a.fields.mod a.fields.rm (a.fields.tail ++ rest)).map .mem) = some a := by
  cases a with
  | reg n =>
    have hb : b = n.getLsbD 3 := hb (show (0x40#8).getLsbD 5 = false by decide)
    simp only [VexSrc3.fields, if_true, hb, ext4_split]
  | mem a =>
    obtain ⟨h1, h2⟩ := decodeMem_of_fields (a := a) he rest hx hb
    simp only [VexSrc3.fields, if_neg h1, h2, Option.map_some]

/-- Operand 3 of an EVEX form is read back, X and B where they are not ignored, `rc` under embedded rounding. -/
theorem evexSrc3_of_fields {a : EvexSrc3} (he : a.encodable = true) {x b : Bool} {rc : BitVec 2} (rest : List Byte)
    (hx : (ignoredEvexBits a).getLsbD 6 = false → x = a.fields.x)
    (hb : (ignoredEvexBits a).getLsbD 5 = false → b = a.fields.b)
    (hrc : ∀ n m, a = .reg n (some m) → rc = m.bits) :
    (if a.fields.mod = 3#2 then
        some (EvexSrc3.reg (ext5 x (ext4 b a.fields.rm)) (if a.bBit then some (RoundingMode.ofBits rc) else none))
      else (decodeMem x b a.fields.mod a.fields.rm (a.fields.tail ++ rest)).map (.mem · a.bBit)) = some a := by
  cases a with
  | reg n er =>
    have hx' : x = n.getLsbD 4 := hx (show (0#8).getLsbD 6 = false by decide)
    have hb' : b = n.getLsbD 3 := hb (show (0#8).getLsbD 5 = false by decide)
    subst hx' hb'
    cases er with
    | none =>
      simp only [EvexSrc3.fields, EvexSrc3.bBit, if_true, vreg_split, Option.isSome_none,
        Bool.false_eq_true, if_false]
    | some m =>
      simp only [EvexSrc3.fields, EvexSrc3.bBit, if_true, vreg_split, Option.isSome_some, hrc n m rfl,
        RoundingMode.ofBits_bits]
  | mem a b =>
    obtain ⟨h1, h2⟩ := decodeMem_of_fields (a := a) he rest hx hb
    simp only [EvexSrc3.fields, EvexSrc3.bBit, if_neg h1, h2, Option.map_some]

/-- Bytes that are an encoding but for its ignored bits, in parts: the prefixes, the bytes up to ModRM, the tail. -/
theorem sameUpTo_parts {ps : List LegacyPrefix} {mask core tail bs : List Byte} {n k : Nat}
    (hc : core.length = mask.length) (ht : tail.length = k)
    (h : SameUpTo (ps.map (fun _ => 0#8) ++ mask ++ List.replicate k 0#8) (bs.take n)
      (ps.map LegacyPrefix.byte ++ core ++ tail)) :
    ∃ u, SameUpTo mask u core ∧ bs = ps.map LegacyPrefix.byte ++ (u ++ (tail ++ bs.drop n)) := by
  rw [List.append_assoc, List.append_assoc, sameUpTo_append _ (by simp)] at h
  obtain ⟨p, q, e, h1, h⟩ := h
  rw [sameUpTo_append _ hc] at h
  obtain ⟨u, v, rfl, h2, h3⟩ := h
  obtain ⟨-, rfl⟩ := (sameUpTo_zeros _ _ _).mp h1
  obtain ⟨-, rfl⟩ := (sameUpTo_replicate _ _ _).mp h3
  refine ⟨u, h2, ?_⟩
  conv_lhs => rw [← List.take_append_drop n bs, e]
  simp

/-- What the decoder says of the encoding of a VEX form, with any ignored bits. -/
theorem decode_vex_sameUpTo {ord : FmaOrder} {o : VexOperands} {bs : List Byte} (he : o.src3.encodable = true)
    (h : SameUpTo (ignoredBits.vexIgnored o) (bs.take o.length) (encodeVex ord o)) :
    decode bs = verdictOf .vex (ord.vex o) := by
  obtain ⟨u, h2, hbs⟩ := sameUpTo_parts (by rfl) (by simp) h
  match u, h2 with
  | [c, b1, b2, op, m], h2 =>
    simp only [sameUpTo_cons, sameUpTo_nil, and_true] at h2
    obtain ⟨hc, hb1, hb2, hop, hm⟩ := h2
    have hc := masked_zero hc
    have hop := masked_zero hop
    have hm := masked_zero hm
    have hmk := ignoredVexBits_cases o.src3
    have e5 := masked_extract hb1 0 5 (by rcases hmk with h | h | h | h <;> rw [h] <;> decide)
    have e7 := masked_getLsbD hb1 (i := 7) (by rcases hmk with h | h | h | h <;> rw [h] <;> decide)
    have ex := masked_getLsbD hb1 (i := 6)
    have eb := masked_getLsbD hb1 (i := 5)
    obtain ⟨w5, w7, wx, wb⟩ := vexByte1_fields (o.dst.getLsbD 3) o.src3.fields.x o.src3.fields.b _ rfl
    rw [w5] at e5
    rw [w7] at e7
    rw [wx] at ex
    rw [wb] at eb
    have y1 := masked_extract hb2 0 2 (by decide)
    have y2 := masked_getLsbD hb2 (i := 7) (by decide)
    have y3 := masked_extract hb2 3 4 (by decide)
    obtain ⟨v1, v2, v3⟩ := vexByte2_fields o.src2 _ rfl
    rw [v1] at y1
    rw [v2] at y2
    have y3 : vvvvOf b2 = o.src2 := by rw [← v3]; simp only [vvvvOf, y3]
    obtain ⟨m1, m2, m3⟩ := modrmByte_fields o.src3.fields.mod (o.dst.setWidth 3) o.src3.fields.rm
    have hsrc := vexSrc3_of_fields he (x := !b1.getLsbD 6) (b := !b1.getLsbD 5) (bs.drop o.length)
      (fun h => by rw [ex h, Bool.not_not]) (fun h => by rw [eb h, Bool.not_not])
    rw [hbs, hc]
    unfold decode
    rw [List.cons_append, takePrefixes_append _ prefixOf_vex]
    simp only [if_true, List.cons_append, List.nil_append, decodeVex, e5, y1, y2, and_self, hop, orderOf_opcode,
      decodeVexTail, hm, m1, m2, m3, hsrc, e7, Bool.not_not, ext4_split, y3]

/-- What the decoder says of the encoding of an EVEX form, with any ignored bits. -/
theorem decode_evex_sameUpTo {ord : FmaOrder} {o : EvexOperands} {bs : List Byte} (he : o.src3.encodable = true)
    (h : SameUpTo (ignoredBits.evexIgnored o) (bs.take o.length) (encodeEvex ord o)) :
    decode bs = verdictOf .evex (ord.evex o) := by
  obtain ⟨u, h2, hbs⟩ := sameUpTo_parts (by rfl) (by simp) h
  match u, h2 with
  | [c, p0, p1, p2, op, m], h2 =>
    simp only [sameUpTo_cons, sameUpTo_nil, and_true] at h2
    obtain ⟨hc, hp0, hp1, hp2, hop, hm⟩ := h2
    have hc := masked_zero hc
    have hop := masked_zero hop
    have hm := masked_zero hm
    have hp1 := masked_zero hp1
    have hmk := ignoredEvexBits_cases o.src3
    have e0 := masked_extract hp0 2 2 (by rcases hmk with h | h | h | h <;> rw [h] <;> decide)
    have e1 := masked_extract hp0 0 2 (by rcases hmk with h | h | h | h <;> rw [h] <;> decide)
    have e4 := masked_getLsbD hp0 (i := 4) (by rcases hmk with h | h | h | h <;> rw [h] <;> decide)
    have e7 := masked_getLsbD hp0 (i := 7) (by rcases hmk with h | h | h | h <;> rw [h] <;> decide)
    have ex := masked_getLsbD hp0 (i := 6)
    have eb := masked_getLsbD hp0 (i := 5)
    obtain ⟨w0, w1, w7, wx, wb, w4⟩ :=
      evexP0_fields (o.dst.getLsbD 3) o.src3.fields.x o.src3.fields.b (o.dst.getLsbD 4) _ rfl
    rw [w0] at e0
    rw [w1] at e1
    rw [w4] at e4
    rw [w7] at e7
    rw [wx] at ex
    rw [wb] at eb
    obtain ⟨y1, y2, y3, y4⟩ := evexP1_fields (o.src2.setWidth 4) p1 hp1
    have hmk2 : (if (embeddedRounding o).isSome then 0#8 else 0x60#8) = 0#8 ∨
        (if (embeddedRounding o).isSome then 0#8 else 0x60#8) = 0x60#8 := by split <;> simp
    have z7 := masked_getLsbD hp2 (i := 7) (by rcases hmk2 with h | h <;> rw [h] <;> decide)
    have z4 := masked_getLsbD hp2 (i := 4) (by rcases hmk2 with h | h <;> rw [h] <;> decide)
    have z3 := masked_getLsbD hp2 (i := 3) (by rcases hmk2 with h | h <;> rw [h] <;> decide)
    have z0 := masked_extract hp2 0 3 (by rcases hmk2 with h | h <;> rw [h] <;> decide)
    obtain ⟨q7, qll, q4, q3, q0⟩ := evexP2_fields o.zeroing o.src3.bBit (o.src2.getLsbD 4) o.src3.llBits o.mask _ rfl
    rw [q7] at z7
    rw [q4] at z4
    rw [q3] at z3
    have z0 : low3 p2 = o.mask := by rw [← q0]; exact z0
    have hrc : ∀ n r, o.src3 = .reg n (some r) → p2.extractLsb' 5 2 = r.bits := by
      intro n r hr
      have hz : (if (embeddedRounding o).isSome then 0#8 else 0x60#8) = 0#8 := by simp [embeddedRounding, hr]
      rw [hz] at hp2
      rw [masked_zero hp2, qll, hr]
      rfl
    obtain ⟨m1, m2, m3⟩ := modrmByte_fields o.src3.fields.mod (o.dst.setWidth 3) o.src3.fields.rm
    have hsrc := evexSrc3_of_fields he (x := !p0.getLsbD 6) (b := !p0.getLsbD 5) (bs.drop o.length)
      (fun h => by rw [ex h, Bool.not_not]) (fun h => by rw [eb h, Bool.not_not]) hrc
    rw [hbs, hc]
    unfold decode
    rw [List.cons_append, takePrefixes_append _ prefixOf_evex]
    have hne : (0x62#8 : Byte) ≠ 0xC4#8 := by decide
    have hres : ¬ (p0.extractLsb' 2 2 ≠ 0#2 ∨ p1.getLsbD 2 = false) := by rw [e0, y2]; decide
    simp only [if_neg hne, if_true, List.cons_append, List.nil_append, decodeEvex, if_neg hres, e1, y1, y3, and_self,
      hop, orderOf_opcode, decodeEvexTail, hm, m1, m2, m3, z4, hsrc, e4, e7, z3, z7, z0, Bool.not_not, y4, vreg_split,
      ext5_split]

/-- What the decoder says of the encoding of any instruction that has one, with any ignored bits: the instruction, #UD
or the length, as `verdictOf` tells. -/
theorem decode_sameUpTo {i : Instr} {bs : List Byte} (he : i.encodable = true)
    (h : SameUpTo (ignoredBits i) (bs.take i.length) (encode i)) : decode bs = verdictOf (kindOf i) i := by
  cases i with
  | vfnmadd132sdVex o => exact decode_vex_sameUpTo (ord := .o132) he h
  | vfnmadd213sdVex o => exact decode_vex_sameUpTo (ord := .o213) he h
  | vfnmadd231sdVex o => exact decode_vex_sameUpTo (ord := .o231) he h
  | vfnmadd132sdEvex o => exact decode_evex_sameUpTo (ord := .o132) he h
  | vfnmadd213sdEvex o => exact decode_evex_sameUpTo (ord := .o213) he h
  | vfnmadd231sdEvex o => exact decode_evex_sameUpTo (ord := .o231) he h

end Sys2Proof.Machine
end

