-- ==== Sys2Proof/Laws/State.lean ====
section
/-! SUPPORT. What each update of a state does to each field, and what it does to the views of registers. -/

namespace Sys2Proof.Machine

/-! ## The write of the destination register -/

section
variable (s : State) (d : VregNum) (r : Word)

@[simp] theorem State.writeScalar_gpr : (s.writeScalar d r).gpr = s.gpr := rfl
@[simp] theorem State.writeScalar_pc : (s.writeScalar d r).pc = s.pc := rfl
@[simp] theorem State.writeScalar_vreg : (s.writeScalar d r).vreg = s.vreg.set d.toNat (scalarWrite (s.vregAt d) r) d.isLt := rfl
@[simp] theorem State.writeScalar_kreg : (s.writeScalar d r).kreg = s.kreg := rfl
@[simp] theorem State.writeScalar_mxcsr : (s.writeScalar d r).mxcsr = s.mxcsr := rfl
@[simp] theorem State.writeScalar_rflags : (s.writeScalar d r).rflags = s.rflags := rfl
@[simp] theorem State.writeScalar_cr0 : (s.writeScalar d r).cr0 = s.cr0 := rfl
@[simp] theorem State.writeScalar_cr4 : (s.writeScalar d r).cr4 = s.cr4 := rfl
@[simp] theorem State.writeScalar_efer : (s.writeScalar d r).efer = s.efer := rfl
@[simp] theorem State.writeScalar_xcr0 : (s.writeScalar d r).xcr0 = s.xcr0 := rfl
@[simp] theorem State.writeScalar_cr2 : (s.writeScalar d r).cr2 = s.cr2 := rfl
@[simp] theorem State.writeScalar_cpl : (s.writeScalar d r).cpl = s.cpl := rfl
@[simp] theorem State.writeScalar_cs : (s.writeScalar d r).cs = s.cs := rfl
@[simp] theorem State.writeScalar_fsBase : (s.writeScalar d r).fsBase = s.fsBase := rfl
@[simp] theorem State.writeScalar_gsBase : (s.writeScalar d r).gsBase = s.gsBase := rfl
@[simp] theorem State.writeScalar_dr : (s.writeScalar d r).dr = s.dr := rfl
@[simp] theorem State.writeScalar_dr7 : (s.writeScalar d r).dr7 = s.dr7 := rfl
@[simp] theorem State.writeScalar_x87 : (s.writeScalar d r).x87 = s.x87 := rfl
@[simp] theorem State.writeScalar_params : (s.writeScalar d r).params = s.params := rfl
@[simp] theorem State.writeScalar_xlat : (s.writeScalar d r).xlat = s.xlat := rfl
@[simp] theorem State.writeScalar_mem : (s.writeScalar d r).mem = s.mem := rfl
@[simp] theorem State.writeScalar_draws : (s.writeScalar d r).draws = s.draws := rfl

end

/-! ## A completed instruction -/

section
variable (s : State) (d : VregNum) (r : Word) (f : FpFlags) (len : Nat)

@[simp] theorem State.completed_gpr : (s.completed d r f len).gpr = s.gpr := rfl
@[simp] theorem State.completed_pc : (s.completed d r f len).pc = s.pc + BitVec.ofNat 64 len := rfl
@[simp] theorem State.completed_vreg : (s.completed d r f len).vreg = s.vreg.set d.toNat (scalarWrite (s.vregAt d) r) d.isLt := rfl
@[simp] theorem State.completed_kreg : (s.completed d r f len).kreg = s.kreg := rfl
@[simp] theorem State.completed_mxcsr : (s.completed d r f len).mxcsr = orFlags s.mxcsr f := rfl
@[simp] theorem State.completed_rflags : (s.completed d r f len).rflags = s.rflags := rfl
@[simp] theorem State.completed_cr0 : (s.completed d r f len).cr0 = s.cr0 := rfl
@[simp] theorem State.completed_cr4 : (s.completed d r f len).cr4 = s.cr4 := rfl
@[simp] theorem State.completed_efer : (s.completed d r f len).efer = s.efer := rfl
@[simp] theorem State.completed_xcr0 : (s.completed d r f len).xcr0 = s.xcr0 := rfl
@[simp] theorem State.completed_cr2 : (s.completed d r f len).cr2 = s.cr2 := rfl
@[simp] theorem State.completed_cpl : (s.completed d r f len).cpl = s.cpl := rfl
@[simp] theorem State.completed_cs : (s.completed d r f len).cs = s.cs := rfl
@[simp] theorem State.completed_fsBase : (s.completed d r f len).fsBase = s.fsBase := rfl
@[simp] theorem State.completed_gsBase : (s.completed d r f len).gsBase = s.gsBase := rfl
@[simp] theorem State.completed_dr : (s.completed d r f len).dr = s.dr := rfl
@[simp] theorem State.completed_dr7 : (s.completed d r f len).dr7 = s.dr7 := rfl
@[simp] theorem State.completed_x87 : (s.completed d r f len).x87 = s.x87 := rfl
@[simp] theorem State.completed_params : (s.completed d r f len).params = s.params := rfl
@[simp] theorem State.completed_xlat : (s.completed d r f len).xlat = s.xlat := rfl
@[simp] theorem State.completed_mem : (s.completed d r f len).mem = s.mem := rfl
@[simp] theorem State.completed_draws : (s.completed d r f len).draws = s.draws := rfl

end

/-! ## A SIMD trap -/

section
variable (s : State) (f : FpFlags)

@[simp] theorem State.trapped_gpr : (s.trapped f).gpr = s.gpr := rfl
@[simp] theorem State.trapped_pc : (s.trapped f).pc = s.pc := rfl
@[simp] theorem State.trapped_vreg : (s.trapped f).vreg = s.vreg := rfl
@[simp] theorem State.trapped_kreg : (s.trapped f).kreg = s.kreg := rfl
@[simp] theorem State.trapped_mxcsr : (s.trapped f).mxcsr = orFlags s.mxcsr f := rfl
@[simp] theorem State.trapped_rflags : (s.trapped f).rflags = s.rflags := rfl
@[simp] theorem State.trapped_cr0 : (s.trapped f).cr0 = s.cr0 := rfl
@[simp] theorem State.trapped_cr4 : (s.trapped f).cr4 = s.cr4 := rfl
@[simp] theorem State.trapped_efer : (s.trapped f).efer = s.efer := rfl
@[simp] theorem State.trapped_xcr0 : (s.trapped f).xcr0 = s.xcr0 := rfl
@[simp] theorem State.trapped_cr2 : (s.trapped f).cr2 = s.cr2 := rfl
@[simp] theorem State.trapped_cpl : (s.trapped f).cpl = s.cpl := rfl
@[simp] theorem State.trapped_cs : (s.trapped f).cs = s.cs := rfl
@[simp] theorem State.trapped_fsBase : (s.trapped f).fsBase = s.fsBase := rfl
@[simp] theorem State.trapped_gsBase : (s.trapped f).gsBase = s.gsBase := rfl
@[simp] theorem State.trapped_dr : (s.trapped f).dr = s.dr := rfl
@[simp] theorem State.trapped_dr7 : (s.trapped f).dr7 = s.dr7 := rfl
@[simp] theorem State.trapped_x87 : (s.trapped f).x87 = s.x87 := rfl
@[simp] theorem State.trapped_params : (s.trapped f).params = s.params := rfl
@[simp] theorem State.trapped_xlat : (s.trapped f).xlat = s.xlat := rfl
@[simp] theorem State.trapped_mem : (s.trapped f).mem = s.mem := rfl
@[simp] theorem State.trapped_draws : (s.trapped f).draws = s.draws + 1 := rfl

end

/-! ## A consumed free value -/

section
variable (s : State)

@[simp] theorem State.consumeDraw_gpr : (s.consumeDraw).gpr = s.gpr := rfl
@[simp] theorem State.consumeDraw_pc : (s.consumeDraw).pc = s.pc := rfl
@[simp] theorem State.consumeDraw_vreg : (s.consumeDraw).vreg = s.vreg := rfl
@[simp] theorem State.consumeDraw_kreg : (s.consumeDraw).kreg = s.kreg := rfl
@[simp] theorem State.consumeDraw_mxcsr : (s.consumeDraw).mxcsr = s.mxcsr := rfl
@[simp] theorem State.consumeDraw_rflags : (s.consumeDraw).rflags = s.rflags := rfl
@[simp] theorem State.consumeDraw_cr0 : (s.consumeDraw).cr0 = s.cr0 := rfl
@[simp] theorem State.consumeDraw_cr4 : (s.consumeDraw).cr4 = s.cr4 := rfl
@[simp] theorem State.consumeDraw_efer : (s.consumeDraw).efer = s.efer := rfl
@[simp] theorem State.consumeDraw_xcr0 : (s.consumeDraw).xcr0 = s.xcr0 := rfl
@[simp] theorem State.consumeDraw_cr2 : (s.consumeDraw).cr2 = s.cr2 := rfl
@[simp] theorem State.consumeDraw_cpl : (s.consumeDraw).cpl = s.cpl := rfl
@[simp] theorem State.consumeDraw_cs : (s.consumeDraw).cs = s.cs := rfl
@[simp] theorem State.consumeDraw_fsBase : (s.consumeDraw).fsBase = s.fsBase := rfl
@[simp] theorem State.consumeDraw_gsBase : (s.consumeDraw).gsBase = s.gsBase := rfl
@[simp] theorem State.consumeDraw_dr : (s.consumeDraw).dr = s.dr := rfl
@[simp] theorem State.consumeDraw_dr7 : (s.consumeDraw).dr7 = s.dr7 := rfl
@[simp] theorem State.consumeDraw_x87 : (s.consumeDraw).x87 = s.x87 := rfl
@[simp] theorem State.consumeDraw_params : (s.consumeDraw).params = s.params := rfl
@[simp] theorem State.consumeDraw_xlat : (s.consumeDraw).xlat = s.xlat := rfl
@[simp] theorem State.consumeDraw_mem : (s.consumeDraw).mem = s.mem := rfl
@[simp] theorem State.consumeDraw_draws : (s.consumeDraw).draws = s.draws + 1 := rfl

end

/-! ## What an exception records -/

section
variable (s : State) (x : Exception)

@[simp] theorem Exception.record_gpr : (x.record s).gpr = s.gpr := by cases x <;> rfl
@[simp] theorem Exception.record_pc : (x.record s).pc = s.pc := by cases x <;> rfl
@[simp] theorem Exception.record_vreg : (x.record s).vreg = s.vreg := by cases x <;> rfl
@[simp] theorem Exception.record_kreg : (x.record s).kreg = s.kreg := by cases x <;> rfl
@[simp] theorem Exception.record_mxcsr : (x.record s).mxcsr = s.mxcsr := by cases x <;> rfl
@[simp] theorem Exception.record_rflags : (x.record s).rflags = s.rflags := by cases x <;> rfl
@[simp] theorem Exception.record_cr0 : (x.record s).cr0 = s.cr0 := by cases x <;> rfl
@[simp] theorem Exception.record_cr4 : (x.record s).cr4 = s.cr4 := by cases x <;> rfl
@[simp] theorem Exception.record_efer : (x.record s).efer = s.efer := by cases x <;> rfl
@[simp] theorem Exception.record_xcr0 : (x.record s).xcr0 = s.xcr0 := by cases x <;> rfl
@[simp] theorem Exception.record_cpl : (x.record s).cpl = s.cpl := by cases x <;> rfl
@[simp] theorem Exception.record_cs : (x.record s).cs = s.cs := by cases x <;> rfl
@[simp] theorem Exception.record_fsBase : (x.record s).fsBase = s.fsBase := by cases x <;> rfl
@[simp] theorem Exception.record_gsBase : (x.record s).gsBase = s.gsBase := by cases x <;> rfl
@[simp] theorem Exception.record_dr : (x.record s).dr = s.dr := by cases x <;> rfl
@[simp] theorem Exception.record_dr7 : (x.record s).dr7 = s.dr7 := by cases x <;> rfl
@[simp] theorem Exception.record_x87 : (x.record s).x87 = s.x87 := by cases x <;> rfl
@[simp] theorem Exception.record_params : (x.record s).params = s.params := by cases x <;> rfl
@[simp] theorem Exception.record_xlat : (x.record s).xlat = s.xlat := by cases x <;> rfl
@[simp] theorem Exception.record_mem : (x.record s).mem = s.mem := by cases x <;> rfl
@[simp] theorem Exception.record_draws : (x.record s).draws = s.draws := by cases x <;> rfl

end

/-! ## CR2 -/

@[simp] theorem Exception.record_pf_cr2 (code : BitVec 32) (la : Word) (s : State) :
    ((Exception.pf code la).record s).cr2 = la := rfl

theorem Exception.record_of_not_pf {x : Exception} (s : State) (h : ∀ code la, x ≠ .pf code la) :
    x.record s = s := by
  cases x <;> first | rfl | exact absurd rfl (h _ _)

/-- What an exception records never goes beyond CR2. -/
theorem Exception.record_eq (x : Exception) (s : State) : x.record s = { s with cr2 := (x.record s).cr2 } := by
  cases x <;> rfl

/-! ## Views of vector registers -/

section
variable (s : State) (d : VregNum) (r : Word) (f : FpFlags) (len : Nat)

@[simp] theorem State.completed_vregAt_same :
    (s.completed d r f len).vregAt d = scalarWrite (s.vregAt d) r := by
  simp [State.vregAt]

theorem State.completed_vregAt_other {n : VregNum} (h : n ≠ d) :
    (s.completed d r f len).vregAt n = s.vregAt n := by
  have hn : d.toNat ≠ n.toNat := fun e => h (BitVec.eq_of_toNat_eq e.symm)
  simp [State.vregAt, Vector.getElem_set_ne, hn]

@[simp] theorem State.completed_kregAt (n : KregNum) :
    (s.completed d r f len).kregAt n = s.kregAt n := rfl

@[simp] theorem State.completed_gprAt (n : GprNum) :
    (s.completed d r f len).gprAt n = s.gprAt n := rfl

end

/-! ## The three ranges of a scalar write (R27) -/

/-- A scalar write, bit by bit. -/
theorem scalarWrite_getLsbD (old : BitVec 512) (r : Word) (i : Nat) :
    (scalarWrite old r).getLsbD i =
      if i < 64 then r.getLsbD i else if i < 128 then old.getLsbD i else false := by
  simp only [scalarWrite, BitVec.getLsbD_setWidth, BitVec.getLsbD_append, BitVec.getLsbD_extractLsb']
  by_cases h : i < 64
  · simp [h, show i < 512 by omega]
  · by_cases h2 : i < 128
    · simp [h, h2, show i < 512 by omega, show i - 64 < 64 by omega, show 64 + (i - 64) = i by omega]
    · simp [h, h2, show ¬ i - 64 < 64 by omega]

@[simp] theorem scalarWrite_low (old : BitVec 512) (r : Word) :
    (scalarWrite old r).extractLsb' 0 64 = r := by
  apply BitVec.eq_of_getLsbD_eq
  intro i hi
  rw [BitVec.getLsbD_extractLsb', scalarWrite_getLsbD]
  simp [hi]

@[simp] theorem scalarWrite_high (old : BitVec 512) (r : Word) :
    (scalarWrite old r).extractLsb' 64 64 = old.extractLsb' 64 64 := by
  apply BitVec.eq_of_getLsbD_eq
  intro i hi
  rw [BitVec.getLsbD_extractLsb', BitVec.getLsbD_extractLsb', scalarWrite_getLsbD]
  simp [show 64 + i < 128 by omega]

@[simp] theorem scalarWrite_upper (old : BitVec 512) (r : Word) : scalarWrite old r >>> 128 = 0 := by
  apply BitVec.eq_of_getLsbD_eq
  intro i hi
  rw [BitVec.getLsbD_ushiftRight, scalarWrite_getLsbD]
  simp [show ¬ 128 + i < 64 by omega]

theorem State.completed_low (s : State) (d : VregNum) (r : Word) (f : FpFlags) (len : Nat) :
    (s.completed d r f len).low d = r := by
  simp [State.low]

/-- Everything `State.completed` does. -/
theorem State.completed_completion (s : State) (d : VregNum) (r : Word) (f : FpFlags) (len : Nat) :
    Completion d r f.bits len s (s.completed d r f len) where
  low := s.completed_low d r f len
  high := by simp
  upper := by simp
  others := fun _ h => s.completed_vregAt_other d r f len h
  mxcsr := rfl
  pc := rfl
  rest := rfl

end Sys2Proof.Machine
end

