-- ==== Sys2Proof/Laws/Exec.lean ====
section
/-! SUPPORT. What each shared operation, each meaning and one step can do, said once: later proofs cite these
and do not unfold the definitions. -/

namespace Sys2Proof.Machine

/-! ## Raising -/

theorem raise_ne_next {x : Exception} {s t : State} : raise x s ≠ .next t := nofun

theorem raise_eq (x : Exception) (s : State) : raise x s = .fault (.exception x (x.record s)) := rfl

/-! ## The memory operand -/

/-- A successful operand read: every check of R55 passed, and the bytes are assembled little-endian. -/
theorem memRead_ok {la : Word} {stack : Bool} {s : State} {w : Word} (h : memRead la stack s = .ok w) :
    s.canonicalOperand la = true ∧ accessFault la s = none ∧
      ∃ bs, bytesAt .dataRead s (operandAddrs la) = .ok bs ∧ w = leWord bs := by
  unfold memRead at h
  split at h
  · rename_i hc
    split at h
    · cases h
    · rename_i hf
      split at h
      · cases h
      · rename_i bs hb
        cases h
        exact ⟨hc, hf, bs, hb, rfl⟩
  · cases h

/-- R55 step 1: a non-canonical operand raises #SS(0) or #GP(0), whatever else is wrong with it. -/
theorem memRead_noncanonical {la : Word} {stack : Bool} {s : State}
    (h : s.canonicalOperand la = false) :
    memRead la stack s = .error (faultOf (if stack then .ss else .gp) s) := by
  simp [memRead, h]

/-- What stops the bytes of an access: a page fault of the state as it is, or a byte the launch memory lacks. -/
theorem byteAt_error {la : Word} {access : Access} {s : State} {f : Fault}
    (h : byteAt la access s = .error f) :
    (∃ code, f = faultOf (.pf code la) s) ∨ f = .outsideLaunchMemory la := by
  unfold byteAt at h
  split at h
  · cases h
    exact .inl ⟨_, rfl⟩
  · split at h
    · cases h
      exact .inr rfl
    · cases h

/-- What stops the bytes at several addresses. -/
theorem bytesAt_error {access : Access} {s : State} {as : List Word} {f : Fault}
    (h : bytesAt access s as = .error f) :
    (∃ code la, f = faultOf (.pf code la) s) ∨ ∃ la, f = .outsideLaunchMemory la := by
  induction as with
  | nil => cases h
  | cons a as ih =>
    unfold bytesAt at h
    split at h
    · rename_i g hg
      cases h
      rcases byteAt_error hg with ⟨code, rfl⟩ | rfl
      · exact .inl ⟨code, a, rfl⟩
      · exact .inr ⟨a, rfl⟩
    · split at h
      · rename_i g hg
        cases h
        exact ih hg
      · cases h

/-- The faults of R55 steps 2 and 3: #AC or #PF, of the state as it is or with one free value consumed. -/
theorem accessFault_some {la : Word} {s : State} {f : Fault} (h : accessFault la s = some f) :
    ∃ x t, f = faultOf x t ∧ (t = s ∨ t = s.consumeDraw) ∧
      ((x = .ac ∧ s.misaligned la = true) ∨ ∃ code a, x = .pf code a) := by
  unfold accessFault at h
  split at h
  · cases h
  · rename_i hm
    cases h
    exact ⟨.ac, s, rfl, .inl rfl, .inl ⟨rfl, hm⟩⟩
  · rename_i code a drawn _ _
    cases h
    refine ⟨.pf code a, _, rfl, ?_, .inr ⟨code, a, rfl⟩⟩
    cases drawn
    · exact .inl rfl
    · exact .inr rfl
  · rename_i code a _ _ hm
    split at h
    · cases h
      exact ⟨.ac, _, rfl, .inr rfl, .inl ⟨rfl, hm⟩⟩
    · cases h
      exact ⟨.pf code a, _, rfl, .inr rfl, .inr ⟨code, a, rfl⟩⟩

/-- Everything that can stop an operand read: an exception of the state as it is, or with one free value consumed,
or a byte the launch memory lacks. -/
theorem memRead_error {la : Word} {stack : Bool} {s : State} {f : Fault}
    (h : memRead la stack s = .error f) :
    (∃ x t, f = faultOf x t ∧ (t = s ∨ t = s.consumeDraw) ∧
      (x = .ss ∨ x = .gp ∨ (x = .ac ∧ s.misaligned la = true) ∨ ∃ code a, x = .pf code a)) ∨
    ∃ a, f = .outsideLaunchMemory a := by
  unfold memRead at h
  split at h
  · split at h
    · rename_i g hg
      cases h
      obtain ⟨x, t, hf, ht, hx⟩ := accessFault_some hg
      exact .inl ⟨x, t, hf, ht, .inr (.inr hx)⟩
    · split at h
      · rename_i g hg
        cases h
        rcases bytesAt_error hg with ⟨code, a, rfl⟩ | ⟨a, rfl⟩
        · exact .inl ⟨.pf code a, s, rfl, .inl rfl, .inr (.inr (.inr ⟨code, a, rfl⟩))⟩
        · exact .inr ⟨a, rfl⟩
      · cases h
  · cases h
    cases stack
    · exact .inl ⟨.gp, s, rfl, .inl rfl, .inr (.inl rfl)⟩
    · exact .inl ⟨.ss, s, rfl, .inl rfl, .inl rfl⟩

/-- Operand 3 can stop an instruction only by its read from memory. -/
theorem src3Of_error {i : Instr} {s : State} {g : Fault} (h : src3Of s i = .error g) :
    ∃ la stack, memRead la stack s = .error g := by
  have vex : ∀ {o}, readVexSrc3 o s = .error g → ∃ la stack, memRead la stack s = .error g := by
    intro o h
    unfold readVexSrc3 at h
    split at h
    · cases h
    · exact ⟨_, _, h⟩
  have evex : ∀ {o}, readEvexSrc3 o s = .error g → ∃ la stack, memRead la stack s = .error g := by
    intro o h
    unfold readEvexSrc3 at h
    split at h
    · cases h
    · exact ⟨_, _, h⟩
  cases i with
  | vfnmadd132sdVex o => exact vex h
  | vfnmadd213sdVex o => exact vex h
  | vfnmadd231sdVex o => exact vex h
  | vfnmadd132sdEvex o => exact evex h
  | vfnmadd213sdEvex o => exact evex h
  | vfnmadd231sdEvex o => exact evex h

/-! ## The two common steps -/

/-- Everything a VEX form can do when it answers next (R160). -/
theorem execVex_next {ord : FmaOrder} {o : VexOperands} {s t : State} (h : execVex ord o s = .next t) :
    s.scopeRefusal = none ∧ s.enableFault .vex = none ∧
      ∃ c r f, readVexSrc3 o s = .ok c ∧ vexResult ord o c s = .value r f ∧
        t = s.completed (vexReg o.dst) r f o.length := by
  unfold execVex at h
  split at h
  · cases h
  · rename_i hs
    split at h
    · cases h
    · rename_i he
      split at h
      · cases h
      · rename_i c hc
        split at h
        · cases h
        · rename_i r f hr
          cases h
          exact ⟨hs, he, c, r, f, hc, hr, rfl⟩

/-- Everything a VEX form can do when it faults (R160). -/
theorem execVex_fault {ord : FmaOrder} {o : VexOperands} {s : State} {g : Fault}
    (h : execVex ord o s = .fault g) :
    s.scopeRefusal = none ∧
      ((∃ x, s.enableFault .vex = some x ∧ g = faultOf x s) ∨
        (s.enableFault .vex = none ∧
          (readVexSrc3 o s = .error g ∨
            ∃ c f, readVexSrc3 o s = .ok c ∧ vexResult ord o c s = .trap f ∧
              g = faultOf (if s.cr4.getLsbD 10 then .xm else .ud) (s.trapped f)))) := by
  unfold execVex at h
  split at h
  · cases h
  · rename_i hs
    refine ⟨hs, ?_⟩
    split at h
    · rename_i x hx
      cases h
      exact .inl ⟨x, hx, rfl⟩
    · rename_i he
      refine .inr ⟨he, ?_⟩
      split at h
      · rename_i f hf
        cases h
        exact .inl hf
      · rename_i c hc
        split at h
        · rename_i f hr
          cases h
          exact .inr ⟨c, f, hc, hr, rfl⟩
        · cases h

/-- What an EVEX form delivers and flags (R170 step 7): the arithmetic result, or the masked-off element. -/
def EvexDelivers (ord : FmaOrder) (o : EvexOperands) (c : Word) (s : State) (r : Word) (f : FpFlags) : Prop :=
  (maskBit o s = true ∧ ∃ g, evexResult ord o c s = .value r g ∧ f = evexFlags o g) ∨
    (maskBit o s = false ∧ r = (if o.zeroing then 0 else s.low o.dst) ∧ f = {})

/-- Everything an EVEX form can do when it answers next (R170). -/
theorem execEvex_next {ord : FmaOrder} {o : EvexOperands} {s t : State} (h : execEvex ord o s = .next t) :
    s.scopeRefusal = none ∧ s.enableFault .evex = none ∧
      ∃ c r f, readEvexSrc3 o s = .ok c ∧ EvexDelivers ord o c s r f ∧
        t = s.completed o.dst r f o.length := by
  unfold execEvex at h
  split at h
  · cases h
  · rename_i hs
    split at h
    · cases h
    · rename_i he
      split at h
      · cases h
      · rename_i c hc
        refine ⟨hs, he, c, ?_⟩
        split at h
        · rename_i hm
          split at h
          · cases h
          · rename_i r f hr
            cases h
            exact ⟨r, evexFlags o f, hc, .inl ⟨hm, f, hr, rfl⟩, rfl⟩
        · rename_i hm
          cases h
          exact ⟨_, _, hc, .inr ⟨by simpa using hm, rfl, rfl⟩, rfl⟩

/-- Everything an EVEX form can do when it faults (R170). -/
theorem execEvex_fault {ord : FmaOrder} {o : EvexOperands} {s : State} {g : Fault}
    (h : execEvex ord o s = .fault g) :
    s.scopeRefusal = none ∧
      ((∃ x, s.enableFault .evex = some x ∧ g = faultOf x s) ∨
        (s.enableFault .evex = none ∧
          (readEvexSrc3 o s = .error g ∨
            ∃ c f, readEvexSrc3 o s = .ok c ∧ maskBit o s = true ∧ evexResult ord o c s = .trap f ∧
              g = faultOf (if s.cr4.getLsbD 10 then .xm else .ud) (s.trapped f)))) := by
  unfold execEvex at h
  split at h
  · cases h
  · rename_i hs
    refine ⟨hs, ?_⟩
    split at h
    · rename_i x hx
      cases h
      exact .inl ⟨x, hx, rfl⟩
    · rename_i he
      refine .inr ⟨he, ?_⟩
      split at h
      · rename_i f hf
        cases h
        exact .inl hf
      · rename_i c hc
        split at h
        · rename_i hm
          split at h
          · rename_i f hr
            cases h
            exact .inr ⟨c, f, hc, hm, hr, rfl⟩
          · cases h
        · cases h

/-! ## Every instruction -/

/-- When any instruction answers next, it has delivered one scalar: nothing but its destination register, MXCSR
flags and `pc` has changed. -/
theorem exec_next {i : Instr} {s t : State} (h : exec i s = .next t) :
    s.scopeRefusal = none ∧ s.enableFault (kindOf i) = none ∧
      ∃ c r f, src3Of s i = .ok c ∧ t = s.completed (destOf i) r f i.length := by
  cases i with
  | vfnmadd132sdVex o => obtain ⟨h1, h2, c, r, f, h3, -, h4⟩ := execVex_next h; exact ⟨h1, h2, c, r, f, h3, h4⟩
  | vfnmadd213sdVex o => obtain ⟨h1, h2, c, r, f, h3, -, h4⟩ := execVex_next h; exact ⟨h1, h2, c, r, f, h3, h4⟩
  | vfnmadd231sdVex o => obtain ⟨h1, h2, c, r, f, h3, -, h4⟩ := execVex_next h; exact ⟨h1, h2, c, r, f, h3, h4⟩
  | vfnmadd132sdEvex o => obtain ⟨h1, h2, c, r, f, h3, -, h4⟩ := execEvex_next h; exact ⟨h1, h2, c, r, f, h3, h4⟩
  | vfnmadd213sdEvex o => obtain ⟨h1, h2, c, r, f, h3, -, h4⟩ := execEvex_next h; exact ⟨h1, h2, c, r, f, h3, h4⟩
  | vfnmadd231sdEvex o => obtain ⟨h1, h2, c, r, f, h3, -, h4⟩ := execEvex_next h; exact ⟨h1, h2, c, r, f, h3, h4⟩

/-- Everything that can stop any instruction with a fault: an enable condition, its operand, or a SIMD trap. -/
theorem exec_fault {i : Instr} {s : State} {g : Fault} (h : exec i s = .fault g) :
    s.scopeRefusal = none ∧
      ((∃ x, s.enableFault (kindOf i) = some x ∧ g = faultOf x s) ∨
        (s.enableFault (kindOf i) = none ∧
          (src3Of s i = .error g ∨
            ∃ f, g = faultOf (if s.cr4.getLsbD 10 then .xm else .ud) (s.trapped f)))) := by
  have vex : ∀ {ord o}, execVex ord o s = .fault g → s.scopeRefusal = none ∧
      ((∃ x, s.enableFault .vex = some x ∧ g = faultOf x s) ∨
        (s.enableFault .vex = none ∧ (readVexSrc3 o s = .error g ∨
          ∃ f, g = faultOf (if s.cr4.getLsbD 10 then .xm else .ud) (s.trapped f)))) := by
    intro ord o h
    obtain ⟨h1, h2 | ⟨h2, h3 | ⟨c, f, -, -, h3⟩⟩⟩ := execVex_fault h
    · exact ⟨h1, .inl h2⟩
    · exact ⟨h1, .inr ⟨h2, .inl h3⟩⟩
    · exact ⟨h1, .inr ⟨h2, .inr ⟨f, h3⟩⟩⟩
  have evex : ∀ {ord o}, execEvex ord o s = .fault g → s.scopeRefusal = none ∧
      ((∃ x, s.enableFault .evex = some x ∧ g = faultOf x s) ∨
        (s.enableFault .evex = none ∧ (readEvexSrc3 o s = .error g ∨
          ∃ f, g = faultOf (if s.cr4.getLsbD 10 then .xm else .ud) (s.trapped f)))) := by
    intro ord o h
    obtain ⟨h1, h2 | ⟨h2, h3 | ⟨c, f, -, -, -, h3⟩⟩⟩ := execEvex_fault h
    · exact ⟨h1, .inl h2⟩
    · exact ⟨h1, .inr ⟨h2, .inl h3⟩⟩
    · exact ⟨h1, .inr ⟨h2, .inr ⟨f, h3⟩⟩⟩
  cases i with
  | vfnmadd132sdVex o => exact vex h
  | vfnmadd213sdVex o => exact vex h
  | vfnmadd231sdVex o => exact vex h
  | vfnmadd132sdEvex o => exact evex h
  | vfnmadd213sdEvex o => exact evex h
  | vfnmadd231sdEvex o => exact evex h

/-! ## One step -/

/-- A step that answers next has run the instruction the decoder read. -/
theorem step_next {s t : State} (h : step s = .next t) :
    ∃ i, s.scopeRefusal = none ∧ decode (fetchWindow s).1 = .form i ∧ exec i s = .next t := by
  unfold step at h
  split at h
  · cases h
  · rename_i hs
    split at h
    · rename_i i hi
      exact ⟨i, hs, hi, h⟩
    · cases h
    · unfold raiseTooLong at h
      split at h
      · split at h <;> cases h
      · cases h
    · cases h
    · unfold fetchStop at h
      split at h <;> cases h

end Sys2Proof.Machine
end

