-- ==== Sys2Proof/Laws/Fetch.lean ====
section
/-! SUPPORT. The instruction fetch: text that stands at `pc` is what the decoder is shown, and a fetch and a data read
of one address see one byte. -/

namespace Sys2Proof.Machine

/-- R53: one address is at one location for every kind of access. -/
theorem State.translate_location {s : State} {la l : Word} {access : Access} (h : s.translate la access = .ok l) :
    ∃ e, s.xlat.find? (·.covers la) = some e ∧ l = e.location la := by
  unfold State.translate at h
  split at h
  · cases h
  · rename_i e he
    split at h
    · cases h
      exact ⟨e, he, rfl⟩
    · cases h

/-- R53: accesses of two kinds that both answer see the same byte. -/
theorem byteAt_access {s : State} {la : Word} {x y : Access} {b c : Byte} (hb : byteAt la x s = .ok b)
    (hc : byteAt la y s = .ok c) : b = c := by
  unfold byteAt at hb hc
  split at hb
  · cases hb
  · rename_i l hl
    split at hc
    · cases hc
    · rename_i l' hl'
      obtain ⟨e, he, rfl⟩ := State.translate_location hl
      obtain ⟨e', he', rfl⟩ := State.translate_location hl'
      cases he.symm.trans he'
      cases hm : Memory.read s.mem (e.location la).toNat <;> simp_all

/-- Bytes that stand at `pc + k` head the fetch from there. -/
theorem fetchFrom_of_bytes {s : State} (bs : List Byte) {k n : Nat} (hn : bs.length ≤ n)
    (h : ∀ j, (hj : j < bs.length) → fetchByte (k + j) s = .ok bs[j]) :
    ∃ rest stop, fetchFrom s k n = (bs ++ rest, stop) := by
  induction bs generalizing k n with
  | nil => exact ⟨_, _, rfl⟩
  | cons b bs ih =>
    obtain ⟨m, rfl⟩ : ∃ m, n = m + 1 := ⟨n - 1, by simp at hn; omega⟩
    have hb : fetchByte k s = .ok b := h 0 (by simp)
    obtain ⟨rest, stop, hr⟩ := ih (k := k + 1) (n := m) (by simpa using hn) fun j hj => by
      have := h (j + 1) (by simpa using hj)
      simpa [Nat.add_assoc, Nat.add_comm 1 j] using this
    exact ⟨rest, stop, by simp [fetchFrom, hb, hr]⟩

/-- Bytes that stand at `pc + k`, the next of which cannot be fetched, are the whole fetch from there. -/
theorem fetchFrom_of_stop {s : State} (bs : List Byte) {k n : Nat} {f : Fault} (hn : bs.length < n)
    (h : ∀ j, (hj : j < bs.length) → fetchByte (k + j) s = .ok bs[j])
    (hf : fetchByte (k + bs.length) s = .error f) : fetchFrom s k n = (bs, some f) := by
  induction bs generalizing k n with
  | nil =>
    obtain ⟨m, rfl⟩ : ∃ m, n = m + 1 := ⟨n - 1, by simp at hn; omega⟩
    have hf : fetchByte k s = .error f := hf
    simp [fetchFrom, hf]
  | cons b bs ih =>
    obtain ⟨m, rfl⟩ : ∃ m, n = m + 1 := ⟨n - 1, by simp at hn; omega⟩
    have hb : fetchByte k s = .ok b := h 0 (by simp)
    have hr := ih (k := k + 1) (n := m) (by simpa using hn)
      (fun j hj => by
        have := h (j + 1) (by simpa using hj)
        simpa [Nat.add_assoc, Nat.add_comm 1 j] using this)
      (by simpa [Nat.add_assoc, Nat.add_comm 1] using hf)
    simp [fetchFrom, hb, hr]

/-- Everything the fetch answers: the bytes from `pc + k` on, `n` of them or up to the first that cannot be fetched. -/
theorem fetchFrom_spec (s : State) (k n : Nat) :
    (fetchFrom s k n).1.length ≤ n ∧
      (∀ j, (hj : j < (fetchFrom s k n).1.length) → fetchByte (k + j) s = .ok (fetchFrom s k n).1[j]) ∧
      match (fetchFrom s k n).2 with
      | none => (fetchFrom s k n).1.length = n
      | some f => fetchByte (k + (fetchFrom s k n).1.length) s = .error f := by
  induction n generalizing k with
  | zero => exact ⟨by simp [fetchFrom], fun j hj => by simp [fetchFrom] at hj, by simp [fetchFrom]⟩
  | succ n ih =>
    cases hk : fetchByte k s with
    | error f =>
      have e : fetchFrom s k (n + 1) = ([], some f) := by simp [fetchFrom, hk]
      rw [e]
      exact ⟨by simp, fun j hj => by simp at hj, hk⟩
    | ok b =>
      have e : fetchFrom s k (n + 1) = (b :: (fetchFrom s (k + 1) n).1, (fetchFrom s (k + 1) n).2) := by
        simp [fetchFrom, hk]
      obtain ⟨h1, h2, h3⟩ := ih (k + 1)
      rw [e]
      refine ⟨by simpa using h1, fun j hj => ?_, ?_⟩
      · cases j with
        | zero => exact hk
        | succ j =>
          have := h2 j (by simpa using hj)
          simpa [Nat.add_assoc, Nat.add_comm 1 j] using this
      · revert h3
        cases (fetchFrom s (k + 1) n).2 with
        | none => simp
        | some f => simp [Nat.add_assoc, Nat.add_comm 1]

/-! ## The run of prefixes -/

/-- A byte can only be fetched below 2^64. -/
theorem fetchByte_ok_lt {k : Nat} {s : State} {b : Byte} (h : fetchByte k s = .ok b) : s.pc.toNat + k < 2 ^ 64 := by
  unfold fetchByte at h
  split at h
  · rename_i hc
    exact hc.1
  · cases h

/-- Everything the prefix count says, when it does not run out: the bytes counted are prefixes, and the next one is not
or cannot be fetched. -/
theorem prefixRun_spec (s : State) (k n : Nat) :
    (∀ j, j < prefixRun s k n → ∃ b, fetchByte (k + j) s = .ok b ∧ (prefixOf b).isSome = true) ∧
      (prefixRun s k n < n → ∀ b, fetchByte (k + prefixRun s k n) s = .ok b → prefixOf b = none) := by
  induction n generalizing k with
  | zero => exact ⟨fun j hj => by simp [prefixRun] at hj, fun h => by simp [prefixRun] at h⟩
  | succ n ih =>
    cases hk : fetchByte k s with
    | error f =>
      have e : prefixRun s k (n + 1) = 0 := by simp [prefixRun, hk]
      rw [e]
      exact ⟨fun j hj => by omega, fun _ b hb => by simp [hk] at hb⟩
    | ok b =>
      cases hp : prefixOf b with
      | none =>
        have e : prefixRun s k (n + 1) = 0 := by simp [prefixRun, hk, hp]
        rw [e]
        exact ⟨fun j hj => by omega, fun _ c hc => by simp [hk] at hc; rw [← hc, hp]⟩
      | some p =>
        have e : prefixRun s k (n + 1) = prefixRun s (k + 1) n + 1 := by simp [prefixRun, hk, hp]
        obtain ⟨h1, h2⟩ := ih (k + 1)
        rw [e]
        refine ⟨fun j hj => ?_, fun hlt c hc => ?_⟩
        · cases j with
          | zero => exact ⟨b, hk, by simp [hp]⟩
          | succ j =>
            obtain ⟨c, hc, hs⟩ := h1 j (by omega)
            exact ⟨c, by simpa [Nat.add_assoc, Nat.add_comm 1 j] using hc, hs⟩
        · exact h2 (by omega) c (by simpa [Nat.add_assoc, Nat.add_comm 1] using hc)

/-- The prefixes at `pc`, counted to their end. -/
def State.prefixes (s : State) : Nat := prefixRun s 0 (2 ^ 64 - s.pc.toNat)

/-- The count never runs out: beyond the last address no byte can be fetched. -/
theorem State.prefixes_spec (s : State) :
    (∀ j, j < s.prefixes → ∃ b, fetchByte j s = .ok b ∧ (prefixOf b).isSome = true) ∧
      ∀ b, fetchByte s.prefixes s = .ok b → prefixOf b = none := by
  have h := prefixRun_spec s 0 (2 ^ 64 - s.pc.toNat)
  simp only [Nat.zero_add] at h
  refine ⟨h.1, fun b hb => h.2 ?_ b hb⟩
  have := fetchByte_ok_lt hb
  unfold State.prefixes at this
  omega

/-- A position before which only prefixes stand is within the run. -/
theorem State.le_prefixes {s : State} {n : Nat}
    (h : ∀ j, j < n → ∃ b, fetchByte j s = .ok b ∧ (prefixOf b).isSome = true) : n ≤ s.prefixes := by
  by_contra hn
  obtain ⟨b, hb, hp⟩ := h s.prefixes (by omega)
  simp [s.prefixes_spec.2 b hb] at hp

/-- The run ends where a byte that is no prefix stands, or one that cannot be fetched. -/
theorem State.prefixes_le {s : State} {n : Nat}
    (h : ∀ b, fetchByte n s = .ok b → prefixOf b = none) : s.prefixes ≤ n := by
  by_contra hn
  obtain ⟨b, hb, hp⟩ := s.prefixes_spec.1 n (by omega)
  simp [h b hb] at hp

/-- The prefixes that head some text are within the run at `pc`. -/
theorem State.takePrefixes_le_prefixes {s : State} {bs : List Byte} (h : TextAt s bs) :
    (takePrefixes bs).1.length ≤ s.prefixes :=
  State.le_prefixes fun j hj => by
    obtain ⟨hl, hp⟩ := takePrefixes_getElem bs j hj
    exact ⟨bs[j], h j hl, hp⟩

/-! ## The window -/

/-- The decoder's window begins with the text at `pc`: with all of it, where that is at most 11 bytes after the
prefixes. -/
theorem fetchWindow_of_text {s : State} {bs : List Byte} (hn : bs.length ≤ (takePrefixes bs).1.length + 11)
    (h : TextAt s bs) : ∃ rest stop, fetchWindow s = (bs ++ rest, stop) :=
  fetchFrom_of_bytes bs
    (by have : _ ≤ prefixRun _ _ _ := State.takePrefixes_le_prefixes h; omega) fun j hj => by simpa using h j hj

/-- Where the byte after the text cannot be fetched, the window is the text. -/
theorem fetchWindow_of_stop {s : State} {bs : List Byte} {f : Fault}
    (hn : bs.length < (takePrefixes bs).1.length + 11) (h : TextAt s bs) (hf : fetchByte bs.length s = .error f) :
    fetchWindow s = (bs, some f) :=
  fetchFrom_of_stop bs
    (by have : _ ≤ prefixRun _ _ _ := State.takePrefixes_le_prefixes h; omega)
    (fun j hj => by simpa using h j hj) (by simpa using hf)

/-- A window with no fault in it holds a whole instruction: where the decoder needs more bytes, there is a byte that
cannot be fetched. -/
theorem fetchWindow_stop {s : State} (h : decode (fetchWindow s).1 = .truncated) : ∃ f, (fetchWindow s).2 = some f := by
  have hw := fetchFrom_spec s 0 (s.prefixes + 11)
  rw [show fetchFrom s 0 (s.prefixes + 11) = fetchWindow s from rfl] at hw
  obtain ⟨-, h2, h3⟩ := hw
  cases hs : (fetchWindow s).2 with
  | some f => exact ⟨f, rfl⟩
  | none =>
    have hl : (fetchWindow s).1.length = s.prefixes + 11 := by
      simpa only [hs] using h3
    have ht := decode_truncated_length h
    have hp := State.takePrefixes_le_prefixes (s := s) (bs := (fetchWindow s).1) fun j hj => by
      simpa using h2 j hj
    omega

/-- What stops a fetch: #GP(0), a page fault of the state as it is, or a byte the launch memory lacks. -/
theorem fetchByte_error {k : Nat} {s : State} {f : Fault} (h : fetchByte k s = .error f) :
    f = faultOf .gp s ∨ (∃ code la, f = faultOf (.pf code la) s) ∨ ∃ la, f = .outsideLaunchMemory la := by
  unfold fetchByte at h
  split at h
  · rcases byteAt_error h with ⟨code, h⟩ | h
    · exact .inr (.inl ⟨code, _, h⟩)
    · exact .inr (.inr ⟨_, h⟩)
  · cases h
    exact .inl rfl

theorem fetchFrom_stop {s : State} {k n : Nat} {f : Fault} (h : (fetchFrom s k n).2 = some f) :
    ∃ j, fetchByte j s = .error f := by
  induction n generalizing k with
  | zero => cases h
  | succ n ih =>
    unfold fetchFrom at h
    split at h
    · rename_i g hg
      cases h
      exact ⟨k, hg⟩
    · exact ih h

/-- Everything that can stop a step with a fault: an exception of the state as it is, with one free value consumed
or as a SIMD trap leaves it, or a byte the launch memory lacks. -/
theorem step_fault {s : State} {g : Fault} (h : step s = .fault g) :
    (∃ x t, g = faultOf x t ∧ (t = s ∨ t = s.consumeDraw ∨
      ((x = .xm ∨ x = .ud) ∧ ∃ f, t = s.trapped f))) ∨ ∃ la, g = .outsideLaunchMemory la := by
  unfold step at h
  split at h
  · cases h
  · split at h
    · obtain ⟨-, ⟨x, -, hg⟩ | ⟨-, h | ⟨f, hg⟩⟩⟩ := exec_fault h
      · exact .inl ⟨x, s, hg, .inl rfl⟩
      · obtain ⟨la, stack, hm⟩ := src3Of_error h
        rcases memRead_error hm with ⟨x, t, hg, ht, -⟩ | hm
        · exact .inl ⟨x, t, hg, ht.imp_right .inl⟩
        · exact .inr hm
      · refine .inl ⟨_, _, hg, .inr (.inr ⟨?_, f, rfl⟩)⟩
        split <;> simp
    · cases h
      exact .inl ⟨.ud, s, rfl, .inl rfl⟩
    · unfold raiseTooLong at h
      split at h
      · split at h
        · cases h
          exact .inl ⟨.ud, _, rfl, .inr (.inl rfl)⟩
        · cases h
          exact .inl ⟨.gp, _, rfl, .inr (.inl rfl)⟩
      · cases h
        exact .inl ⟨.gp, s, rfl, .inl rfl⟩
    · cases h
    · unfold fetchStop at h
      split at h
      · rename_i f hf
        cases h
        obtain ⟨j, hj⟩ := fetchFrom_stop hf
        rcases fetchByte_error hj with h | ⟨code, la, h⟩ | h
        · exact .inl ⟨.gp, s, h, .inl rfl⟩
        · exact .inl ⟨.pf code la, s, h, .inl rfl⟩
        · exact .inr h
      · cases h
        exact .inl ⟨.gp, s, rfl, .inl rfl⟩

end Sys2Proof.Machine
end

