-- ==== Sys2Proof/Laws/Flags.lean ====
section
/-! SUPPORT. What OR-ing flags into MXCSR does and leaves, and what the controls read. -/

namespace Sys2Proof.Machine

theorem FpFlags.bits_none : ({} : FpFlags).bits = 0 := rfl

/-- Only the places of IE, DE, OE, UE and PE are used (R32). -/
theorem FpFlags.bits_places (f : FpFlags) : f.bits.setWidth 32 &&& ~~~ 0x3B#32 = 0 := by
  obtain ⟨a, b, c, d, e⟩ := f
  cases a <;> cases b <;> cases c <;> cases d <;> cases e <;> rfl

/-- The bit of each flag. -/
theorem FpFlags.bits_get (f : FpFlags) :
    f.bits.getLsbD 0 = f.ie ∧ f.bits.getLsbD 1 = f.de ∧ f.bits.getLsbD 2 = false ∧ f.bits.getLsbD 3 = f.oe ∧
      f.bits.getLsbD 4 = f.ue ∧ f.bits.getLsbD 5 = f.pe := by
  obtain ⟨a, b, c, d, e⟩ := f
  cases a <;> cases b <;> cases c <;> cases d <;> cases e <;> decide

@[simp] theorem orFlags_none (m : BitVec 32) : orFlags m {} = m := by
  show m ||| 0#32 = m
  simp

/-- Bit by bit: the six flag bits are OR-ed, the others kept. -/
theorem orFlags_getLsbD (m : BitVec 32) (f : FpFlags) (i : Nat) :
    (orFlags m f).getLsbD i = (m.getLsbD i || f.bits.getLsbD i) := by
  simp only [orFlags, BitVec.getLsbD_or, BitVec.getLsbD_setWidth]
  by_cases h : i < 32
  · simp [h]
  · simp [h, BitVec.getLsbD_of_ge f.bits i (by omega)]

/-- A bit above the flags is kept. -/
theorem orFlags_getLsbD_of_ge (m : BitVec 32) (f : FpFlags) {i : Nat} (h : 6 ≤ i) :
    (orFlags m f).getLsbD i = m.getLsbD i := by
  rw [orFlags_getLsbD, BitVec.getLsbD_of_ge f.bits i h, Bool.or_false]

/-- Flags are sticky: none is cleared. -/
theorem orFlags_sticky (m : BitVec 32) (f : FpFlags) : orFlags m f &&& m = m := by
  apply BitVec.eq_of_getLsbD_eq
  intro i hi
  rw [BitVec.getLsbD_and, orFlags_getLsbD]
  cases m.getLsbD i <;> simp

/-- No bit but the flags changes. -/
theorem orFlags_keeps (m : BitVec 32) (f : FpFlags) : orFlags m f &&& ~~~ 0x3B#32 = m &&& ~~~ 0x3B#32 := by
  have h := f.bits_places
  apply BitVec.eq_of_getLsbD_eq
  intro i hi
  have hi' := congrArg (fun v : BitVec 32 => v.getLsbD i) h
  simp only [BitVec.getLsbD_and, orFlags, BitVec.getLsbD_or] at hi' ⊢
  cases m.getLsbD i <;> simp_all

@[simp] theorem mxcsrControl_orFlags (m : BitVec 32) (f : FpFlags) :
    mxcsrControl (orFlags m f) = mxcsrControl m := by
  have k : ∀ i, 6 ≤ i → (orFlags m f).getLsbD i = m.getLsbD i := fun _ => orFlags_getLsbD_of_ge m f
  unfold mxcsrControl
  rw [k 6, k 15, k 7, k 8, k 10, k 11, k 12] <;> omega

@[simp] theorem mxcsrReserved_orFlags (m : BitVec 32) (f : FpFlags) :
    mxcsrReserved (orFlags m f) = mxcsrReserved m := by
  apply BitVec.eq_of_getLsbD_eq
  intro i hi
  simp only [mxcsrReserved, BitVec.getLsbD_extractLsb', hi, decide_true, Bool.true_and]
  exact orFlags_getLsbD_of_ge m f (by omega)

@[simp] theorem mxcsrRounding_orFlags (m : BitVec 32) (f : FpFlags) :
    mxcsrRounding (orFlags m f) = mxcsrRounding m := by
  unfold mxcsrRounding
  congr 1
  apply BitVec.eq_of_getLsbD_eq
  intro i hi
  simp only [BitVec.getLsbD_extractLsb', hi, decide_true, Bool.true_and]
  exact orFlags_getLsbD_of_ge m f (by omega)

end Sys2Proof.Machine
end

