-- ==== Sys2Proof/Laws/Fnmadd.lean ====
section
/-! SUPPORT. The classes of binary64 patterns, what DAZ does to them, and what each stage of FNMAdd64 can return. -/

namespace Sys2Proof.Machine

/-! ## Signed zeros -/

@[simp] theorem fExp_signedZero (b : Bool) : fExp (signedZero b) = 0 := by cases b <;> decide
@[simp] theorem fFrac_signedZero (b : Bool) : fFrac (signedZero b) = 0 := by cases b <;> decide
@[simp] theorem fSign_signedZero (b : Bool) : fSign (signedZero b) = b := by cases b <;> decide
@[simp] theorem isZero_signedZero (b : Bool) : isZero (signedZero b) = true := by simp [isZero]

/-! ## DAZ (R134) -/

theorem fExp_of_isDenormal {w : Word} (h : isDenormal w = true) : fExp w = 0 := by
  simp [isDenormal] at h
  exact h.1

/-- DAZ replaces a denormal, and nothing else. -/
theorem applyDaz_cases (ctl : FpControl) (w : Word) :
    (applyDaz ctl w = signedZero (fSign w) ∧ ctl.daz = true ∧ isDenormal w = true) ∨
      (applyDaz ctl w = w ∧ (ctl.daz = false ∨ isDenormal w = false)) := by
  unfold applyDaz
  split
  · rename_i h
    rw [Bool.and_eq_true] at h
    exact .inl ⟨rfl, h.1, h.2⟩
  · rename_i h
    refine .inr ⟨rfl, ?_⟩
    simpa [Decidable.imp_iff_not_or] using h

theorem applyDaz_of_not_denormal (ctl : FpControl) {w : Word} (h : isDenormal w = false) : applyDaz ctl w = w := by
  simp [applyDaz, h]

@[simp] theorem fSign_applyDaz (ctl : FpControl) (w : Word) : fSign (applyDaz ctl w) = fSign w := by
  rcases applyDaz_cases ctl w with ⟨h, -⟩ | ⟨h, -⟩ <;> simp [h]

@[simp] theorem fExp_applyDaz (ctl : FpControl) (w : Word) : fExp (applyDaz ctl w) = fExp w := by
  rcases applyDaz_cases ctl w with ⟨h, -, hd⟩ | ⟨h, -⟩
  · rw [h, fExp_signedZero, fExp_of_isDenormal hd]
  · rw [h]

@[simp] theorem isFinite_applyDaz (ctl : FpControl) (w : Word) : isFinite (applyDaz ctl w) = isFinite w := by
  simp [isFinite]

@[simp] theorem isNaN_applyDaz (ctl : FpControl) (w : Word) : isNaN (applyDaz ctl w) = isNaN w := by
  rcases applyDaz_cases ctl w with ⟨h, -, hd⟩ | ⟨h, -⟩
  · simp [h, isNaN, fExp_of_isDenormal hd]
  · rw [h]

@[simp] theorem isInf_applyDaz (ctl : FpControl) (w : Word) : isInf (applyDaz ctl w) = isInf w := by
  rcases applyDaz_cases ctl w with ⟨h, -, hd⟩ | ⟨h, -⟩
  · simp [h, isInf, fExp_of_isDenormal hd]
  · rw [h]

@[simp] theorem isDenormal_applyDaz (ctl : FpControl) (w : Word) :
    isDenormal (applyDaz ctl w) = (!ctl.daz && isDenormal w) := by
  rcases applyDaz_cases ctl w with ⟨h, hz, hd⟩ | ⟨h, h2 | h2⟩
  · simp [h, isDenormal, hz]
  · simp [h, h2]
  · simp [h, h2]

@[simp] theorem isZero_applyDaz (ctl : FpControl) (w : Word) :
    isZero (applyDaz ctl w) = (isZero w || (ctl.daz && isDenormal w)) := by
  rcases applyDaz_cases ctl w with ⟨h, hz, hd⟩ | ⟨h, h2 | h2⟩
  · simp [h, hz, hd]
  · simp [h, h2]
  · simp [h, h2]

/-- DAZ twice is DAZ once. -/
@[simp] theorem applyDaz_applyDaz (ctl : FpControl) (w : Word) :
    applyDaz ctl (applyDaz ctl w) = applyDaz ctl w := by
  unfold applyDaz
  rw [show isDenormal (if (ctl.daz && isDenormal w) = true then signedZero (fSign w) else w) =
    (!ctl.daz && isDenormal w) from isDenormal_applyDaz ctl w]
  cases ctl.daz <;> simp

theorem isNaN_of_isSNaN {w : Word} (h : isSNaN w = true) : isNaN w = true := by
  rw [isSNaN, Bool.and_eq_true] at h
  exact h.1

/-- A NaN is not touched. -/
theorem applyDaz_of_isNaN (ctl : FpControl) {w : Word} (h : isNaN w = true) : applyDaz ctl w = w := by
  apply applyDaz_of_not_denormal
  simp only [isNaN, Bool.and_eq_true, beq_iff_eq] at h
  simp [isDenormal, h.1]

@[simp] theorem isSNaN_applyDaz (ctl : FpControl) (w : Word) : isSNaN (applyDaz ctl w) = isSNaN w := by
  cases h : isNaN w with
  | true => rw [applyDaz_of_isNaN ctl h]
  | false =>
    have h2 := isNaN_applyDaz ctl w
    simp [isSNaN, h, h2]

/-! ## Real values are finite integers of the unit -/

@[simp] theorem fVal_signedZero (b : Bool) : fVal (signedZero b) = 0 := by cases b <;> decide

/-- The value is 0 exactly for a zero pattern. -/
theorem fMag_eq_zero {w : Word} : fMag w = 0 ↔ isZero w = true := by
  unfold fMag
  split
  · rename_i h
    simp [isZero, h]
  · rename_i h
    simp [isZero, h]

/-! ## What the stages return -/

/-- The last stage gives the value, or traps on an unmasked PE with the same flags (R133 step 12). -/
theorem precisionStep_cases (ctl : FpControl) (r : Word) (f : FpFlags) :
    (precisionStep ctl r f = .value r f ∧ (f.pe = true → ctl.pm = true)) ∨
      (precisionStep ctl r f = .trap f ∧ f.pe = true ∧ ctl.pm = false) := by
  unfold precisionStep
  cases hp : f.pe <;> cases hm : ctl.pm <;> simp

/-- A masked PE always gives the value. -/
theorem precisionStep_of_masked {ctl : FpControl} (h : ctl.pm = true) (r : Word) (f : FpFlags) :
    precisionStep ctl r f = .value r f := by
  simp [precisionStep, h]

/-- Everything the NaN stage can do (R133 step 2). -/
theorem nanResult_cases (ctl : FpControl) (x y z : Word) :
    (nanResult ctl x y z =
        .value (quiet (firstNaN x y z)) { ie := isSNaN x || isSNaN y || isSNaN z } ∧
      ((isSNaN x || isSNaN y || isSNaN z) = true → ctl.im = true)) ∨
    (nanResult ctl x y z = .trap { ie := true } ∧ (isSNaN x || isSNaN y || isSNaN z) = true ∧
      ctl.im = false) := by
  unfold nanResult
  cases hs : (isSNaN x || isSNaN y || isSNaN z) <;> cases hm : ctl.im <;> simp

end Sys2Proof.Machine
end

