-- ==== Sys2Proof/Laws/Memory.lean ====
section
/-! SUPPORT. Memory: a read after a write, the canonical form kept, and equal memories are equal data. -/

namespace Sys2Proof.Machine

theorem Memory.read_insert_same (m : Memory) (a : Nat) (b : Byte) :
    Memory.read (Memory.insert m a b) a = some b := by
  induction m with
  | nil => simp [Memory.insert, Memory.read]
  | cons c m ih =>
    unfold Memory.insert
    split
    · simp [Memory.read]
    · split
      · simp [Memory.read]
      · rename_i _ h
        simp [Memory.read, Ne.symm h, ih]

theorem Memory.read_insert_other (m : Memory) {a a' : Nat} (b : Byte) (h : a' ≠ a) :
    Memory.read (Memory.insert m a b) a' = Memory.read m a' := by
  induction m with
  | nil => simp [Memory.insert, Memory.read, Ne.symm h]
  | cons c m ih =>
    unfold Memory.insert
    split
    · simp [Memory.read, Ne.symm h]
    · split
      · rename_i _ hc
        subst hc
        simp [Memory.read, Ne.symm h]
      · simp [Memory.read, ih]

/-- A read after a write. -/
theorem Memory.read_write (m : Memory) (loc : Word) (b : Byte) (a : Nat) :
    Memory.read (Memory.write m loc b) a = if a = loc.toNat then some b else Memory.read m a := by
  unfold Memory.write
  split
  · rename_i h
    rw [h, Memory.read_insert_same]
  · rename_i h
    exact Memory.read_insert_other m b h

/-! ## The canonical form -/

/-- The canonical form of a list with a first cell. -/
theorem Memory.wf_cons {c : Host.Cell} {m : Memory} :
    Memory.wf (c :: m) = true ↔ c.1 < 2 ^ 64 ∧ (∀ d ∈ m, c.1 < d.1) ∧ Memory.wf m = true := by
  induction m generalizing c with
  | nil => simp [Memory.wf]
  | cons d m ih =>
    simp only [Memory.wf, Bool.and_eq_true, decide_eq_true_eq, ih, List.mem_cons, forall_eq_or_imp]
    constructor
    · rintro ⟨h, h1, h2, h3⟩
      exact ⟨by omega, ⟨h, fun x hx => by have := h2 x hx; omega⟩, h1, h2, h3⟩
    · rintro ⟨_, ⟨h, _⟩, h1, h2, h3⟩
      exact ⟨h, h1, h2, h3⟩

/-- The cells an insertion leaves. -/
theorem Memory.mem_insert {m : Memory} {a : Nat} {b : Byte} {d : Host.Cell}
    (h : d ∈ Memory.insert m a b) : d = (a, b) ∨ d ∈ m := by
  induction m with
  | nil => simpa [Memory.insert] using h
  | cons c m ih =>
    unfold Memory.insert at h
    split at h
    · simpa using h
    · split at h
      · rcases List.mem_cons.mp h with h | h
        · exact .inl h
        · exact .inr (List.mem_cons_of_mem _ h)
      · rcases List.mem_cons.mp h with h | h
        · exact .inr (by simp [h])
        · exact (ih h).imp_right (List.mem_cons_of_mem _)

theorem Memory.wf_insert {m : Memory} (hm : Memory.wf m = true) {a : Nat} (ha : a < 2 ^ 64) (b : Byte) :
    Memory.wf (Memory.insert m a b) = true := by
  induction m with
  | nil => simpa [Memory.insert, Memory.wf] using ha
  | cons c m ih =>
    obtain ⟨hc, hlt, hm'⟩ := Memory.wf_cons.mp hm
    unfold Memory.insert
    split
    · rename_i hac
      refine Memory.wf_cons.mpr ⟨ha, ?_, hm⟩
      simp only [List.mem_cons, forall_eq_or_imp]
      exact ⟨hac, fun d hd => by have := hlt d hd; omega⟩
    · split
      · rename_i _ hac
        exact Memory.wf_cons.mpr ⟨ha, fun d hd => by have := hlt d hd; omega, hm'⟩
      · rename_i h1 h2
        refine Memory.wf_cons.mpr ⟨hc, fun d hd => ?_, ih hm'⟩
        rcases Memory.mem_insert hd with rfl | hd
        · show c.1 < a
          omega
        · exact hlt d hd

/-- A write keeps the canonical form. -/
theorem Memory.wf_write {m : Memory} (hm : Memory.wf m = true) (loc : Word) (b : Byte) :
    Memory.wf (Memory.write m loc b) = true := Memory.wf_insert hm loc.isLt b

/-- Loading bytes keeps the canonical form. -/
theorem Memory.wf_load {m : Memory} (hm : Memory.wf m = true) (loc : Word) (bs : List Byte) :
    Memory.wf (Memory.load m loc bs) = true := by
  induction bs generalizing m loc with
  | nil => exact hm
  | cons b bs ih => exact ih (Memory.wf_write hm loc b) _

/-- A location below all those listed holds no byte. -/
theorem Memory.read_of_lt {m : Memory} {a : Nat} (h : ∀ d ∈ m, a < d.1) : Memory.read m a = none := by
  induction m with
  | nil => rfl
  | cons c m ih =>
    have hc := h c List.mem_cons_self
    rw [Memory.read, if_neg (by omega)]
    exact ih fun d hd => h d (List.mem_cons_of_mem _ hd)

/-- Two canonical memories that read alike are the same list. -/
theorem Memory.ext_of_read {m n : Memory} (hm : Memory.wf m = true) (hn : Memory.wf n = true)
    (h : ∀ a, Memory.read m a = Memory.read n a) : m = n := by
  induction m generalizing n with
  | nil =>
    cases n with
    | nil => rfl
    | cons d n =>
      have := h d.1
      simp [Memory.read] at this
  | cons c m ih =>
    obtain ⟨_, hcm, hm'⟩ := Memory.wf_cons.mp hm
    cases n with
    | nil =>
      have := h c.1
      simp [Memory.read] at this
    | cons d n =>
      obtain ⟨_, hdn, hn'⟩ := Memory.wf_cons.mp hn
      have hkey : c.1 = d.1 := by
        rcases Nat.lt_trichotomy c.1 d.1 with hlt | heq | hlt
        · have h1 := h c.1
          rw [Memory.read, if_pos rfl, Memory.read_of_lt] at h1
          · exact absurd h1 (by simp)
          · simp only [List.mem_cons, forall_eq_or_imp]
            exact ⟨hlt, fun x hx => by have := hdn x hx; omega⟩
        · exact heq
        · have h1 := h d.1
          rw [Memory.read_of_lt, Memory.read, if_pos rfl] at h1
          · exact absurd h1 (by simp)
          · simp only [List.mem_cons, forall_eq_or_imp]
            exact ⟨hlt, fun x hx => by have := hcm x hx; omega⟩
      have hval : c.2 = d.2 := by
        have h1 := h c.1
        rw [Memory.read, if_pos rfl, Memory.read, if_pos hkey.symm] at h1
        exact Option.some.inj h1
      have htail : m = n := by
        refine ih hm' hn' fun a => ?_
        by_cases ha : c.1 = a
        · subst ha
          rw [Memory.read_of_lt hcm, Memory.read_of_lt (hkey ▸ hdn)]
        · have h1 := h a
          rwa [Memory.read, if_neg ha, Memory.read, if_neg (hkey ▸ ha)] at h1
      rw [htail, Prod.ext hkey hval]

end Sys2Proof.Machine
end

