-- ==== Sys2Proof/Tests/Slice0.lean ====
section
/-! SUPPORT. Tests of the model on values of spec/95_test_vectors.md (the vector is named with each), the smoke tests of
WellFormed, the decoding of written-out words, and the witnesses of the statements. -/

/-! The elaboration is kept in one thread: each `decide +kernel` in a thread of its own takes a stack of 256 MB. -/

set_option Elab.async false

namespace Sys2Proof.Tests

open Sys2Proof Sys2Proof.Machine

/-! ## WellFormed refuses each ill-formed term -/

theorem smoke_well_formed : (Instr.vfnmadd132sdVex ⟨[], 0, 1, .reg 2⟩).wf = true := by decide

/-- R84: LOCK, 66H, F2H, F3H. -/
theorem smoke_forbidden_byte :
    [LegacyPrefix.lock, .opSize, .repne, .rep].all
      (fun p => !(Instr.vfnmadd132sdVex ⟨[p, .ds], 0, 1, .reg 2⟩).wf) = true := by decide

/-- R84: REX immediately before the VEX bytes; with another byte between it is ignored. -/
theorem smoke_rex_last :
    (Instr.vfnmadd213sdVex ⟨[.ds, .rex 8], 0, 1, .reg 2⟩).wf = false ∧
      (Instr.vfnmadd213sdVex ⟨[.rex 8, .ds], 0, 1, .reg 2⟩).wf = true := by decide

/-- R106: 16 bytes; 15 are allowed. -/
theorem smoke_too_long :
    (Instr.vfnmadd231sdVex ⟨List.replicate 11 .es, 0, 1, .reg 2⟩).wf = false ∧
      (Instr.vfnmadd231sdVex ⟨List.replicate 10 .es, 0, 1, .reg 2⟩).wf = true := by decide

/-- R109 item 3: zeroing without a mask. -/
theorem smoke_zeroing_without_mask :
    (Instr.vfnmadd132sdEvex ⟨[], 0, 1, 0, true, .reg 2 none⟩).wf = false := by decide

/-- R109 item 5: b = 1 with a memory operand. -/
theorem smoke_broadcast :
    (Instr.vfnmadd213sdEvex ⟨[], 0, 1, 0, false, .mem (.base 0 .none) true⟩).wf = false := by decide

/-- R97: r/m = 100b selects a SIB byte, for R12 as for RSP. -/
theorem smoke_base_needs_sib :
    [4#4, 12#4].all (fun b => !(Instr.vfnmadd231sdEvex ⟨[], 0, 1, 0, false, .mem (.base b .none) false⟩).wf) = true := by
  decide

/-- R97: mod = 00b with r/m = 101b is RIP-relative, so RBP and R13 need a displacement. -/
theorem smoke_base_needs_displacement :
    [5#4, 13#4].all (fun b => !(Instr.vfnmadd132sdVex ⟨[], 0, 1, .mem (.base b .none)⟩).wf) = true := by decide

/-- R99: SIB.base = 101b with mod = 00b means no base. -/
theorem smoke_sib_base_needs_displacement :
    [5#4, 13#4].all (fun b => !(Instr.vfnmadd132sdVex ⟨[], 0, 1, .mem (.sib b 0 0 .none)⟩).wf) = true := by decide

/-! ## Words written out from R107, bit by bit -/

/-- Row 1: `C4 (RXB 00010) (1 vvvv L 01) 9D (11 reg rm)` with R = X = B = 1, vvvv = 1110b. -/
theorem test_decode_132_vex :
    decode [0b11000100, 0b11100010, 0b11110001, 0b10011101, 0b11000010] =
      .form (.vfnmadd132sdVex ⟨[], 0, 1, .reg 2⟩) := by decide

/-- Row 2, R118: registers 8, 15, 9. -/
theorem test_decode_213_vex :
    decode [0b11000100, 0b01000010, 0b10000001, 0b10101101, 0b11000001] =
      .form (.vfnmadd213sdVex ⟨[], 8, 15, .reg 9⟩) := by decide

/-- Row 3, R118: `[rbx+rcx*8+16]`. -/
theorem test_decode_231_vex :
    decode [0b11000100, 0b11100010, 0b11011001, 0b10111101, 0b01011100, 0b11001011, 0x10] =
      .form (.vfnmadd231sdVex ⟨[], 3, 4, .mem (.sib 3 1 3 (.d8 0x10))⟩) := by decide

/-- Row 4, R118: xmm17 under k2, xmm30, xmm25. -/
theorem test_decode_132_evex :
    decode [0b01100010, 0b10000010, 0b10001101, 0b00000010, 0b10011101, 0b11001001] =
      .form (.vfnmadd132sdEvex ⟨[], 17, 30, 2, false, .reg 25 none⟩) := by decide

/-- Row 5, R118: zeroing under k1. -/
theorem test_decode_213_evex :
    decode [0b01100010, 0b11110010, 0b11101101, 0b10001001, 0b10101101, 0b11001011] =
      .form (.vfnmadd213sdEvex ⟨[], 1, 2, 1, true, .reg 3 none⟩) := by decide

/-- Row 6, R118: rounding toward zero. -/
theorem test_decode_231_evex :
    decode [0b01100010, 0b11110010, 0b11101101, 0b01111000, 0b10111101, 0b11001011] =
      .form (.vfnmadd231sdEvex ⟨[], 1, 2, 0, false, .reg 3 (some .rz)⟩) := by decide

/-- The opcode table's numbering: byte 0 in bits 7:0. -/
theorem test_table_word :
    decodeTableWord 40 0xC29DF1E2C4 = some (.vfnmadd132sdVex ⟨[], 0, 1, .reg 2⟩) := by decide

/-- Vectors I55 to I58 and the neighbours of R110. -/
theorem test_decode_rejects :
    decode [0x62, 0xF2, 0xF5, 0x88, 0x9D, 0xC2] = .ud ∧ decode [0x62, 0xF2, 0xF5, 0x18, 0x9D, 0x00] = .ud ∧
      decode [0xC4, 0xE2, 0x71, 0x9D, 0xC2] = .refused .otherVex ∧
      decode [0xC5, 0xF1, 0x9D, 0xC2] = .refused .notVexEvex ∧
      decode [0x62, 0xF2, 0x75, 0x08, 0x9D, 0xC2] = .refused .otherEvex ∧
      decode [0xC4, 0xE2, 0xF1, 0x9C, 0xC2] = .refused .otherOpcode := by decide

/-! ## Small states -/

/-- The state of spec/95 part 3: launched, CPL 3, XCR0 = E7H, at 0040_0000H. -/
def base : State := { State.reset.launch with pc := 0x400000, cpl := 3, xcr0 := 0xE7 }

/-- A vector register set to `up ++ hi ++ lo`. -/
def setV (n : VregNum) (lo : Word) (hi : Word) (up : BitVec 384) (s : State) : State :=
  { s with vreg := s.vreg.set n.toNat (up ++ hi ++ lo) n.isLt }

def setG (n : GprNum) (w : Word) (s : State) : State := { s with gpr := s.gpr.set n.toNat w n.isLt }

def setK (n : KregNum) (w : Word) (s : State) : State := { s with kreg := s.kreg.set n.toNat w n.isLt }

/-- Bytes in data memory. -/
def setM (a : Word) (bs : List Byte) (s : State) : State := { s with mem := Memory.load s.mem a bs }

def two : Word := 0x4000000000000000
def three : Word := 0x4008000000000000
def five : Word := 0x4014000000000000
/-- 5.0 in memory. -/
def fiveBytes : List Byte := [0, 0, 0, 0, 0, 0, 0x14, 0x40]

/-- Registers 0, 1, 2 with 2.0, 3.0, 5.0, and bits above 63 set in register 0 (vector I1). -/
def regs (s : State) : State :=
  setV 0 two 0x1111111111111111 0xBBBBBBBBBBBBBBBBAAAAAAAAAAAAAAAA (setV 1 three 0 0 (setV 2 five 0 0 s))

/-- Bits 63:0, 127:64 and those above of a register, MXCSR and `pc` of the next state. -/
def seen (d : VregNum) : Host.Outcome State Fault Refusal → Option (Word × Word × BitVec 384 × BitVec 32 × Word)
  | .next t =>
    some (t.low d, (t.vregAt d).extractLsb' 64 64, (t.vregAt d).extractLsb' 128 384, t.mxcsr, t.pc)
  | .fault _ => none
  | .refused _ => none

/-- The exception of a fault, with register `d`, MXCSR, `pc` and CR2 of the state it carries. -/
def seenFault (d : VregNum) :
    Host.Outcome State Fault Refusal → Option (Exception × BitVec 512 × BitVec 32 × Word × Word)
  | .fault (.exception x t) => some (x, t.vregAt d, t.mxcsr, t.pc, t.cr2)
  | .fault (.outsideLaunchMemory _) => none
  | .next _ => none
  | .refused _ => none

/-- The name of a refusal. -/
def seenRefusal : Host.Outcome State Fault Refusal → Option Refusal
  | .refused r => some r
  | .next _ => none
  | .fault _ => none

/-- The bytes of vector I1. -/
def i1Bytes : List Byte := [0xC4, 0xE2, 0xF1, 0x9D, 0xC2]

/-! ## One step each (spec/95 part 3) -/

/-- Vector I1. -/
theorem test_132_vex :
    seen 0 (step ((regs base).loadText [0xC4, 0xE2, 0xF1, 0x9D, 0xC2])) =
      some (0xC01C000000000000, 0x1111111111111111, 0, 0x1F80, 0x400005) := by decide +kernel

/-- Vector I20: `[rip+100H]`. -/
theorem test_132_vex_rip :
    seen 0 (step (setM 0x400109 fiveBytes
      ((regs base).loadText [0xC4, 0xE2, 0xF1, 0x9D, 0x05, 0x00, 0x01, 0x00, 0x00]))) =
      some (0xC01C000000000000, 0x1111111111111111, 0, 0x1F80, 0x400009) := by decide +kernel

/-- Vector I2. -/
theorem test_213_vex :
    seen 0 (step ((regs base).loadText [0xC4, 0xE2, 0xF1, 0xAD, 0xC2])) =
      some (0xBFF0000000000000, 0x1111111111111111, 0, 0x1F80, 0x400005) := by decide +kernel

/-- Vector I18: a non-canonical stack-segment operand. -/
theorem test_213_vex_stack :
    seenFault 2 (step ((setG 4 0x00007FFFFFFFFFF8 base).loadText [0xC4, 0xE2, 0xE1, 0xAD, 0x54, 0x24, 0x08])) =
      some (.ss, 0, 0x1F80, 0x400000, 0) := by decide +kernel

/-- Vector I5: one register three times. -/
theorem test_231_vex_same_register :
    seen 0 (step ((setV 0 three 0 0 base).loadText [0xC4, 0xE2, 0xF9, 0xBD, 0xC0])) =
      some (0xC018000000000000, 0, 0, 0x1F80, 0x400005) := by decide +kernel

/-- Vector I9: round up, PE. -/
theorem test_231_vex_round_up :
    seen 0 (step (({ setV 1 0xBFF0000000000001 0 0 (setV 2 0x3FF0000000000001 0 0 base) with
      mxcsr := 0x5F80 }).loadText [0xC4, 0xE2, 0xF1, 0xBD, 0xC2])) =
      some (0x3FF0000000000003, 0, 0, 0x5FA0, 0x400005) := by decide +kernel

/-- Vector I35: registers above 15. -/
theorem test_132_evex_high_registers :
    seen 17 (step ((setK 2 3 (setV 17 0x3FF8000000000000 0x1111111111111111 1
      (setV 30 0x4024000000000000 0 0 (setV 25 0x4010000000000000 0 0 base)))).loadText
        [0x62, 0x82, 0x8D, 0x02, 0x9D, 0xC9])) =
      some (0x4010000000000000, 0x1111111111111111, 0, 0x1F80, 0x400006) := by decide +kernel

/-- Vector I38: an unmasked underflow traps although the result is exact. -/
theorem test_132_evex_trap :
    seenFault 0 (step (({ setV 0 0x8010000000000000 5 7 (setV 2 0x3FE0000000000000 0 0 base) with
      mxcsr := 0x9780 }).loadText [0x62, 0xF2, 0xF5, 0x08, 0x9D, 0xC2])) =
      some (.xm, 7#384 ++ 5#64 ++ 0x8010000000000000#64, 0x9790, 0x400000, 0) := by decide +kernel

/-- Vector I27: masked off, zeroing, with a signalling NaN. -/
theorem test_213_evex_zeroing :
    seen 1 (step ((setK 1 0xFFFE (setV 1 0x7FF0000000000001 0x1111111111111111 9 (setV 2 three 0 0
      (setV 3 five 0 0 base)))).loadText [0x62, 0xF2, 0xED, 0x89, 0xAD, 0xCB])) =
      some (0, 0x1111111111111111, 0, 0x1F80, 0x400006) := by decide +kernel

/-- Vector I33: the instruction's own rounding mode. -/
theorem test_213_evex_round_down :
    seen 0 (step ((setV 0 three 0 0 (setV 1 two 0 0 (setV 2 0x4018000000000000 0 0 base))).loadText
      [0x62, 0xF2, 0xF5, 0x38, 0xAD, 0xC2])) =
      some (0x8000000000000000, 0, 0, 0x1F80, 0x400006) := by decide +kernel

/-- Vector I31: rounding toward zero, no flag. -/
theorem test_231_evex_sae :
    seen 1 (step ((setV 2 0x3FF0000000000001 0 0 (setV 3 0x3FF0000000000001 0 0 base)).loadText
      [0x62, 0xF2, 0xED, 0x78, 0xBD, 0xCB])) =
      some (0xBFF0000000000002, 0, 0, 0x1F80, 0x400006) := by decide +kernel

/-- A byte range `Translate` denies for data reads. -/
def deny (lo hi : Word) (s : State) : State :=
  { s with xlat := ⟨lo, hi, lo, ⟨0, 0⟩, .all⟩ :: s.xlat }

/-- Vector I30: masked off, and the read still faults; the displacement is scaled by 8. -/
theorem test_231_evex_masked_off_faults :
    seenFault 0 (step (deny 0x33F8 0x33F8 (setG 7 0x3000 ((setV 0 0x7FF0000000000001 0x1111111111111111 1
      (setV 1 three 0 0 base)).loadText [0x62, 0xF2, 0xF5, 0x09, 0xBD, 0x47, 0x7F])))) =
      some (.pf 4 0x33F8, 1#384 ++ 0x1111111111111111#64 ++ 0x7FF0000000000001#64, 0x1F80, 0x400000, 0x33F8) := by
  decide +kernel

/-- R108 step 2 and R210 item 1 behind 15 prefixes: another opcode is refused, and a byte that cannot be fetched comes
before the length. -/
theorem test_prefix_run :
    seenRefusal (step (base.loadText (List.replicate 15 0x26 ++ [0x90]))) = some (.otherInstruction .notVexEvex) ∧
      seenFault 0 (step (let s := base.loadText (List.replicate 15 0x26); { s with xlat := s.xlat.take 1 })) =
        some (.pf 0x14 0x40000F, 0, 0x1F80, 0x400000, 0x40000F) ∧
      seenFault 0 (step (base.loadText (List.replicate 15 0x26 ++ i1Bytes))) =
        some (.gp, 0, 0x1F80, 0x400000, 0) := by
  refine ⟨?_, ?_, ?_⟩ <;> decide +kernel

/-! ## Tools for the witnesses -/

theorem next_of_seen {d : VregNum} {o : Host.Outcome State Fault Refusal} (h : (seen d o).isSome = true) :
    ∃ t, o = .next t := by
  cases o with
  | next t => exact ⟨t, rfl⟩
  | fault f => cases h
  | refused r => cases h

theorem fault_of_seen {d : VregNum} {o : Host.Outcome State Fault Refusal} {x : Exception}
    (h : (seenFault d o).map (·.1) = some x) : ∃ t, o = .fault (.exception x t) := by
  cases o with
  | next t => cases h
  | fault f =>
    cases f with
    | exception y t =>
      cases h
      exact ⟨t, rfl⟩
    | outsideLaunchMemory la => cases h
  | refused r => cases h

def textOk (s : State) (bs : List Byte) : Bool :=
  (List.range bs.length).all fun k =>
    match fetchByte k s with
    | .ok b => bs[k]? == some b
    | .error _ => false

theorem text_of_ok {s : State} {bs : List Byte} (h : textOk s bs = true) : TextAt s bs := by
  intro k hk
  have h1 := List.all_eq_true.mp h k (by simpa using hk)
  split at h1
  · rename_i b hb
    rw [List.getElem?_eq_getElem hk] at h1
    rw [hb, Option.some.inj (eq_of_beq h1)]
  · cases h1

def readableOk (la : Word) (b : Fin 8 → Byte) (s : State) : Bool :=
  s.canonicalOperand la && !s.misaligned la && (List.finRange 8).all fun k =>
    match s.translate (la + BitVec.ofNat 64 k) .dataRead with
    | .ok loc => Memory.read s.mem loc.toNat == some (b k)
    | .error _ => false

theorem readable_of_ok {la : Word} {b : Fin 8 → Byte} {s : State} (h : readableOk la b s = true) :
    OperandReadable la b s := by
  simp only [readableOk, Bool.and_eq_true, Bool.not_eq_true', List.all_eq_true] at h
  refine ⟨h.1.1, h.1.2, fun k => ?_⟩
  have h1 := h.2 k (List.mem_finRange k)
  split at h1
  · rename_i loc hl
    exact ⟨loc, hl, by simpa using h1⟩
  · cases h1

/-- Every byte of an operand translates. -/
def mappedOk (la : Word) (s : State) : Bool :=
  (List.finRange 8).all fun k =>
    match s.translate (la + BitVec.ofNat 64 k) .dataRead with
    | .ok _ => true
    | .error _ => false

theorem mapped_of_ok {la : Word} {s : State} (h : mappedOk la s = true) :
    ∀ k : Fin 8, ∃ loc, s.translate (la + BitVec.ofNat 64 k) .dataRead = .ok loc := by
  intro k
  have h1 := List.all_eq_true.mp h k (List.mem_finRange k)
  split at h1
  · rename_i loc hl
    exact ⟨loc, hl⟩
  · cases h1

/-- Byte `k` of an operand does not translate. -/
def deniedOk (la : Word) (k : Fin 8) (s : State) : Bool :=
  match s.translate (la + BitVec.ofNat 64 k) .dataRead with
  | .ok _ => false
  | .error _ => true

theorem denied_of_ok {la : Word} {k : Fin 8} {s : State} (h : deniedOk la k s = true) :
    ∃ k : Fin 8, ∃ code, s.translate (la + BitVec.ofNat 64 k) .dataRead = .error code := by
  refine ⟨k, ?_⟩
  unfold deniedOk at h
  split at h
  · cases h
  · rename_i code hc
    exact ⟨code, hc⟩

theorem base_ready (k : EncKind) : base.Ready k := by
  cases k <;> exact ⟨by decide, by decide, by decide⟩

/-! ## Witnesses: states and operands that meet the hypotheses of each statement -/

/-- Vector I1's instruction, and a state its bytes stand in. -/
def i1 : Instr := .vfnmadd132sdVex ⟨[], 0, 1, .reg 2⟩
def s1 : State := (regs base).loadText i1Bytes

/-- Vector I26's operands. -/
def e1 : EvexOperands := ⟨[], 0, 1, 0, false, .reg 2 none⟩

theorem s1_next : ∃ t, step s1 = .next t := next_of_seen (d := 0) (by decide +kernel)

theorem s1_exec_next : ∃ t, exec i1 s1 = .next t := next_of_seen (d := 0) (by decide +kernel)

theorem witness_StepKeepsLegal : ∃ s t, s.Legal ∧ step s = .next t := by
  obtain ⟨t, ht⟩ := s1_next
  refine ⟨s1, t, ⟨?_, ?_, ?_, ?_, ?_, ?_, ?_⟩, ht⟩ <;> decide +kernel

theorem witness_LaunchMeetsPremises : State.reset.hasFeature .vex = true ∧ State.reset.hasFeature .evex = true := by
  decide

theorem witness_OutOfScopeRefused :
    State.reset.longMode = false ∧
      (base.longMode = true ∧ ({ base with rflags := 0x100 } : State).rflags.getLsbD 8 = true) ∧
      ({ base with dr7 := 0x80 } : State).dr7.extractLsb' 0 8 ≠ 0 ∧
      (base.rflags.getLsbD 8 = false ∧ base.dr7.extractLsb' 0 8 = 0 ∧
        ({ base with mxcsr := 0x10000 } : State).mxcsr.extractLsb' 16 16 ≠ 0) := by
  decide

theorem witness_EncodeDecodeAgree :
    i1.wf = true ∧ (Instr.vfnmadd213sdEvex ⟨[.fs], 31, 31, 7, true, .mem (.sib 15 15 3 (.d32 1)) false⟩).wf = true := by
  decide

/-- The second string has VEX.L and, in a register form, VEX.X inverted. -/
theorem witness_DecodedIsWellFormed :
    decode (i1Bytes ++ [0xCC]) = .form i1 ∧ i1.wf = true ∧
      SameUpTo (ignoredBits i1) ([0xC4, 0xA2, 0xF5, 0x9D, 0xC2, 0xCC].take i1.length) (encode i1) ∧
      [0xC4#8, 0xA2#8, 0xF5#8, 0x9D#8, 0xC2#8].take i1.length ≠ encode i1 :=
  ⟨by decide, by decide, ⟨rfl, rfl, rfl, rfl, rfl, trivial⟩, by decide⟩

theorem witness_VexLengthBitIgnored : ∃ t, exec (FmaOrder.vex .o132 ⟨[], 0, 1, .reg 2⟩) s1 = .next t := s1_exec_next

theorem witness_EvexLengthBits :
    (0x08#8).getLsbD 4 = false ∧ (∃ t, exec (FmaOrder.evex .o132 e1) s1 = .next t) ∧
      [0x18#8, 0x38#8, 0x58#8, 0x78#8].all (fun p2 => p2.getLsbD 4) = true ∧ (0xC2#8).extractLsb' 6 2 = 3#2 ∧
      decode [0x62, 0xF2, 0xF5, 0x58, 0x9D, 0xC2] =
        .form (FmaOrder.evex .o132 ⟨[], 0, 1, 0, false, .reg 2 (some .ru)⟩) :=
  ⟨by decide, next_of_seen (d := 0) (by decide +kernel), by decide, by decide, by decide⟩

/-- LOCK, and the longest allowed length, 15. -/
def illegal : Instr := .vfnmadd132sdVex ⟨.lock :: List.replicate 9 .es, 0, 1, .reg 2⟩

/-- b = 1 with a memory operand, and its bytes with L'L = 11b and X inverted (R109 item 5). -/
def broadcast : Instr := .vfnmadd132sdEvex ⟨[], 0, 1, 0, false, .mem (.base 0 .none) true⟩
def broadcastBytes : List Byte := [0x62, 0xB2, 0xF5, 0x78, 0x9D, 0x00]

theorem witness_IllegalEncodingsAreUd :
    (broadcast.encodable = true ∧ broadcast.length = 6 ∧ broadcast.legal = false ∧
      SameUpTo (ignoredBits broadcast) broadcastBytes (encode broadcast) ∧ broadcastBytes ≠ encode broadcast ∧
      TextAt (base.loadText broadcastBytes) broadcastBytes) ∧
    (illegal.encodable = true ∧ illegal.length = 15 ∧ illegal.legal = false ∧
      (base.loadText (encode illegal)).scopeRefusal = none ∧
      SameUpTo (ignoredBits illegal) (encode illegal) (encode illegal) ∧ TextAt (base.loadText (encode illegal)) (encode illegal)) ∧
    (0xF6#8).extractLsb' 2 2 ≠ 0#2 ∧ (0xF1#8).getLsbD 2 = false ∧
      (let bs := (List.replicate 11 LegacyPrefix.es).map LegacyPrefix.byte ++ [0x62#8, 0xF6#8, 0xF5#8, 0x08#8]
       TextAt (base.loadText bs) bs) :=
  ⟨⟨by decide, by decide, by decide, ⟨rfl, rfl, rfl, rfl, rfl, rfl, trivial⟩, by decide,
      text_of_ok (by decide +kernel)⟩,
    ⟨by decide, by decide, by decide, by decide, sameUpTo_refl (by decide), text_of_ok (by decide +kernel)⟩,
    by decide, by decide, text_of_ok (by decide +kernel)⟩

/-- 16 bytes, the least that is too long: legal, and with LOCK. -/
def tooLong (p : LegacyPrefix) : Instr := .vfnmadd132sdVex ⟨p :: List.replicate 10 .es, 0, 1, .reg 2⟩

theorem witness_OverlongRaisesGp :
    (tooLong .ds).encodable = true ∧ (tooLong .ds).length = 16 ∧ (tooLong .ds).legal = true ∧
      (tooLong .lock).legal = false ∧ (base.loadText (encode (tooLong .ds))).enabled .vex = true ∧
      (base.loadText (encode (tooLong .ds))).scopeRefusal = none ∧
      SameUpTo (ignoredBits (tooLong .ds)) (encode (tooLong .ds)) (encode (tooLong .ds)) ∧
      TextAt (base.loadText (encode (tooLong .ds))) (encode (tooLong .ds)) ∧
      (let bs := (List.replicate 12 LegacyPrefix.es).map LegacyPrefix.byte ++ [0x62#8, 0xF6#8, 0xF5#8, 0x08#8]
       bs.length = 16 ∧ TextAt (base.loadText bs) bs) :=
  ⟨by decide, by decide, by decide, by decide, by decide, by decide, sameUpTo_refl (by decide),
    text_of_ok (by decide +kernel), by decide,
    text_of_ok (by decide +kernel)⟩

theorem witness_NeighboursRefused :
    Neighbour [0xC5#8, 0xF1#8, 0x9D#8] .notVexEvex ∧ Neighbour [0x90#8] .notVexEvex ∧
      Neighbour [0xC4#8, 0xE2#8, 0x71#8, 0x9D#8] .otherVex ∧
      Neighbour [0x62#8, 0xF2#8, 0x75#8, 0x08#8, 0x9D#8] .otherEvex ∧
      Neighbour [0xC4#8, 0xE2#8, 0xF1#8, 0x9C#8] .otherOpcode ∧
      Neighbour [0x62#8, 0xF2#8, 0xF5#8, 0x08#8, 0xBF#8] .otherOpcode ∧
      TextAt (base.loadText [0x26#8, 0xC4#8, 0xE2#8, 0x71#8, 0x9D#8])
        ([LegacyPrefix.es].map LegacyPrefix.byte ++ [0xC4#8, 0xE2#8, 0x71#8, 0x9D#8]) ∧
      TextAt (base.loadText ((List.replicate 16 LegacyPrefix.es).map LegacyPrefix.byte ++ [0x90#8]))
        ((List.replicate 16 LegacyPrefix.es).map LegacyPrefix.byte ++ [0x90#8]) :=
  ⟨.otherFirst _ _ (by decide) (by decide), .otherFirst _ _ (by decide) (by decide), .vexPayload _ _ _ (by decide), .evexPayload _ _ _ _ (by decide) (by decide),
    .vexOpcode _ _ _ _ (by decide) (by decide), .evexOpcode _ _ _ _ _ (by decide) (by decide),
    text_of_ok (by decide +kernel), text_of_ok (by decide +kernel)⟩

theorem witness_StepRunsDecoded : s1.scopeRefusal = none ∧ decode (fetchWindow s1).1 = .form i1 := by
  decide +kernel

theorem witness_EncodedInstructionRuns :
    (s1.scopeRefusal = none ∧ i1.wf = true ∧ SameUpTo (ignoredBits i1) i1Bytes (encode i1) ∧ TextAt s1 i1Bytes) ∧
      byteAt 0x400000 .fetch s1 = .ok 0xC4 ∧ byteAt 0x400000 .dataRead s1 = .ok 0xC4 :=
  ⟨⟨by decide, by decide, ⟨rfl, rfl, rfl, rfl, rfl, trivial⟩, text_of_ok (by decide +kernel)⟩, by rfl, by rfl⟩

theorem witness_LoadedInstructionRuns : i1.wf = true ∧ decodeTableWord 40 0xC29DF1E2C4 = some i1 := by decide

theorem witness_FetchFaults :
    (let s := base.loadText [0xC4, 0xE2]
     s.scopeRefusal = none ∧ TextAt s [0xC4, 0xE2] ∧ decode [0xC4, 0xE2] = .truncated ∧
      fetchByte 2 s = .error (.outsideLaunchMemory 0x400002)) ∧
    (let bs := List.replicate 30 0x26#8
     TextAt (base.loadText bs) bs ∧ decode bs = .truncated ∧
      fetchByte 30 (base.loadText bs) = .error (.outsideLaunchMemory 0x40001E)) ∧
    (let s : State := { base with pc := 0x0000800000000000 }
     s.scopeRefusal = none ∧ s.canonical s.pc = false) ∧
    (let s : State := { base with xlat := [] }
     s.scopeRefusal = none ∧ s.canonical s.pc = true ∧ s.translate s.pc .fetch = .error 0x14) :=
  ⟨⟨by decide, text_of_ok (by decide +kernel), by decide, by rfl⟩,
    ⟨text_of_ok (by decide +kernel), by decide, by rfl⟩, by decide, by decide, by decide, by rfl⟩

theorem witness_PcAdvance :
    (∃ t, step s1 = .next t) ∧ (∃ t, exec i1 s1 = .next t) ∧
      (∃ x t, step { s1 with cr4 := 0 } = .fault (.exception x t)) ∧
      ({ base with pc := 0xFFFF7FFFFFFFFFFF } : State).canonical 0xFFFF7FFFFFFFFFFF = false :=
  ⟨s1_next, s1_exec_next, ⟨.ud, fault_of_seen (d := 0) (by decide +kernel)⟩, by decide⟩

/-- Register and memory operands, `[rax]` and `[rax+16]`. -/
def v13 : VexOperands := ⟨[], 1, 2, .mem (.base 0 .none)⟩
def e22 : EvexOperands := ⟨[], 0, 1, 0, false, .mem (.base 0 (.d8 2)) false⟩

theorem five_le : leWord fiveBytes = five := by decide

theorem witness_VexFormsComplete :
    (regs base).Ready .vex ∧ VexOperand3 ⟨[], 0, 1, .reg 2⟩ five (regs base) ∧
      (let s := setG 0 0x1003 (setM 0x1003 fiveBytes base)
       s.Ready .vex ∧ VexOperand3 v13 five s) ∧
      (mxcsrControl base.mxcsr).AllMasked ∧
      fnmadd64 two five three (mxcsrRounding base.mxcsr) (mxcsrControl base.mxcsr) true =
        .value 0xC01C000000000000 {} := by
  refine ⟨⟨by decide, by decide, by decide⟩, by show five = _; decide +kernel,
    ⟨⟨by decide, by decide, by decide⟩, (fun k => fiveBytes[k]), readable_of_ok (by decide +kernel), by decide⟩,
    by simp only [FpControl.AllMasked]; decide, by decide +kernel⟩

theorem witness_EvexFormsComplete :
    (regs base).Ready .evex ∧ EvexOperand3 e1 five (regs base) ∧ e1.mask = 0#3 ∧ embeddedRounding e1 = none ∧
      (let s := setK 7 1 (setG 0 0x1000 (setM 0x1010 fiveBytes base))
       s.Ready .evex ∧ EvexOperand3 e22 five s ∧ (s.kregAt 7).getLsbD 0 = true) := by
  refine ⟨⟨by decide, by decide, by decide⟩, by show five = _; decide +kernel, by decide, by decide,
    ⟨by decide, by decide, by decide⟩, ⟨(fun k => fiveBytes[k]), readable_of_ok (by decide +kernel), by decide⟩,
    by decide +kernel⟩

theorem witness_EmbeddedRoundingSuppresses :
    base.Ready .evex ∧ (⟨[], 0, 1, 0, false, .reg 31 (some .rz)⟩ : EvexOperands).src3 = .reg 31 (some .rz) ∧
      ((0x6000#32).getLsbD 6 = base.mxcsr.getLsbD 6 ∧ (0x6000#32).getLsbD 15 = base.mxcsr.getLsbD 15 ∧
        (0x6000#32).extractLsb' 16 16 = 0#16) ∧
      (setK 1 1 base).Ready .evex ∧ ((setK 1 1 base).kregAt 1).getLsbD 0 = true :=
  ⟨base_ready _, rfl, by decide, ⟨by decide, by decide, by decide⟩, by decide +kernel⟩

theorem witness_MaskedOffCompletes :
    (setK 1 0xFFFE base).Ready .evex ∧ EvexOperand3 ⟨[], 1, 2, 1, true, .reg 3 none⟩ 0 (setK 1 0xFFFE base) ∧
      (1#3 ≠ 0#3) ∧ ((setK 1 0xFFFE base).kregAt 1).getLsbD 0 = false :=
  ⟨⟨by decide, by decide, by decide⟩, by show (0 : Word) = _; decide +kernel, by decide, by decide +kernel⟩

theorem witness_MaskedOffStillFaults :
    base.Ready .evex ∧ (base.kregAt 1).getLsbD 0 = false ∧
      (let s := deny 0x33F8 0x33F8 (setG 7 0x3000 base)
       let o : EvexOperands := ⟨[], 0, 1, 1, false, .mem (.base 7 (.d8 0x7F)) false⟩
       memRead (linearAddr o.pfx 8 o.length (.base 7 (.d8 0x7F)) s) (stackAccess o.pfx (.base 7 (.d8 0x7F))) s =
        .error (faultOf (.pf 4 0x33F8) s)) ∧
      memRead 0x33F8 false (setM 0x33F8 fiveBytes base) = .ok five :=
  ⟨base_ready _, by decide, by rfl, by rfl⟩

theorem witness_MaskReadsOneBit :
    (setK 1 0xFFFE base).kregAt 1 &&& 1 = base.kregAt 1 &&& 1 ∧ (0#3 = 0#3) := by decide +kernel

theorem witness_InstructionFrame : ∃ t, exec i1 s1 = .next t := s1_exec_next

theorem witness_DestinationRanges :
    (∃ t, exec i1 s1 = .next t) ∧ (∃ t, exec (FmaOrder.vex .o132 ⟨[], 0, 1, .reg 2⟩) s1 = .next t) ∧
      (∃ t, exec (FmaOrder.evex .o132 e1) s1 = .next t) ∧
      ∃ x t, exec i1 { s1 with cr4 := 0 } = .fault (.exception x t) :=
  ⟨s1_exec_next, s1_exec_next, next_of_seen (d := 0) (by decide +kernel),
    ⟨.ud, fault_of_seen (d := 0) (by decide +kernel)⟩⟩

theorem witness_RunKeepsEverythingElse : ∃ t, Reaches s1 t ∧ step s1 = .next t := by
  obtain ⟨t, ht⟩ := s1_next
  exact ⟨t, .step (.refl _) ht, ht⟩

theorem witness_FaultsArePrecise :
    (∃ t, step (setV 0 0x7FF0000000000001 0 0 { s1 with mxcsr := 0x1F00 }) = .fault (.exception .xm t)) ∧
      ∃ t, step (deny 0 0xFFF (base.loadText [0xC4, 0xE2, 0xE9, 0xBD, 0x08])) = .fault (.exception (.pf 4 0) t) :=
  ⟨fault_of_seen (d := 0) (by decide +kernel), fault_of_seen (d := 0) (by decide +kernel)⟩

theorem witness_OnlyEightBytesRead :
    memOf i1 = none ∧ memOf (.vfnmadd231sdVex v13) = some (.base 0 .none) ∧
      ∀ k : Fin 8,
        let la := linearAddrOf (.vfnmadd231sdVex v13) (.base 0 .none) base + BitVec.ofNat 64 k
        ({ base with mem := [(8, 1)] } : State).translate la .dataRead = base.translate la .dataRead ∧
          ∀ loc, base.translate la .dataRead = .ok loc →
            Memory.read [(8, 1)] loc.toNat = Memory.read base.mem loc.toNat := by
  refine ⟨rfl, rfl, fun k => ⟨rfl, fun loc h => ?_⟩⟩
  fin_cases k <;> (cases h; rfl)

theorem witness_OnlyLowBitsRead :
    operandRegs i1 = [0, 1, 2] ∧ (∃ t, exec i1 s1 = .next t) ∧
      ∀ n ∈ operandRegs i1, (setV 1 three 7 7 s1).low n = s1.low n :=
  ⟨rfl, s1_exec_next, by decide +kernel⟩

theorem witness_PrivilegeIndependent :
    memOf (.vfnmadd231sdVex v13) = some (.base 0 .none) ∧
      ({ base with cpl := 0 } : State).alignmentChecked = base.alignmentChecked ∧
      ∀ la, ({ base with cpl := 0 } : State).translate la .dataRead = base.translate la .dataRead := by
  refine ⟨rfl, rfl, fun la => ?_⟩
  have h : decide (la.toNat ≤ 18446744073709551615) = true := decide_eq_true (by have := la.isLt; omega)
  simp [State.translate, base, State.launch, State.reset, State.identityMap, TransEntry.covers, TransEntry.right,
    AccessRight.all, h]

theorem witness_EvexEqualsVex :
    base.Ready .vex ∧ base.Ready .evex ∧ e1.dst = vexReg 0 ∧ e1.src2 = vexReg 1 ∧ e1.mask = 0#3 ∧
      e1.src3 = .reg (vexReg 2) none ∧
      linearAddr [] 8 7 (.base 0 (.d8 2)) base = linearAddr [] 1 6 (.base 0 (.d8 16)) base ∧
      stackAccess [] (.base 0 (.d8 2)) = stackAccess [] (.base 0 (.d8 16)) :=
  ⟨base_ready _, base_ready _, by decide, by decide, by decide, by decide, by decide +kernel, by decide⟩

theorem witness_FeatureUd :
    base.scopeRefusal = none ∧ ({ base with cr4 := 0 } : State).scopeRefusal = none ∧
      ({ base with cr4 := 0 } : State).cr4.getLsbD 18 = false ∧
      ({ base with params := { base.params with hasFMA := false } } : State).params.hasFMA = false ∧
      ({ base with params := { base.params with hasAVX512F := false } } : State).params.hasAVX512F = false ∧
      (3#64).extractLsb' 1 2 ≠ 3#2 ∧ (7#64).extractLsb' 5 3 ≠ 7#3 := by
  decide

theorem witness_DeviceNotAvailable :
    let s : State := { base with cr0 := base.cr0 ||| 8 }
    s.cr0.getLsbD 3 = true ∧ s.scopeRefusal = none ∧ s.enabled (kindOf i1) = true ∧
      ({ s with cr4 := 0 } : State).cr0.getLsbD 3 = true ∧ ({ s with cr4 := 0 } : State).scopeRefusal = none ∧
      ({ s with cr4 := 0 } : State).enabled (kindOf i1) = false := by
  decide

theorem witness_UnmaskedSimdException :
    let s : State := setV 0 0x7FF0000000000001 0 0 { base with mxcsr := 0x1F00 }
    (s.Ready .vex ∧ VexOperand3 ⟨[], 0, 1, .reg 2⟩ 0 s) ∧
    (s.Ready .evex ∧ EvexOperand3 e1 0 s ∧ e1.mask = 0#3 ∧ embeddedRounding e1 = none) ∧
    (let rm := mxcsrRounding s.mxcsr
     let ctl := mxcsrControl s.mxcsr
     let pe := Config.drawTrapPE s.draws
     fnmadd64 (s.low 0) 0 (s.low 1) rm ctl pe = .trap { ie := true } ∧
      fnmadd64 (s.low 1) (s.low 0) 0 rm ctl pe = .trap { ie := true } ∧
      fnmadd64 (s.low 1) 0 (s.low 0) rm ctl pe = .trap { ie := true }) ∧
    (maskBit ⟨[], 0, 1, 1, false, .reg 2 none⟩ { s with cr4 := 0 } = false ∧
      ∃ t, exec (FmaOrder.evex .o132 ⟨[], 0, 1, 1, false, .reg 2 none⟩) { s with cr4 := 0 } =
        .fault (.exception .ud t)) := by
  refine ⟨⟨⟨by decide, by decide, by decide⟩, by show (0 : Word) = _; decide +kernel⟩,
    ⟨⟨by decide, by decide, by decide⟩, by show (0 : Word) = _; decide +kernel, by decide, by decide⟩,
    ⟨by decide +kernel, by decide +kernel, by decide +kernel⟩, by decide, fault_of_seen (d := 0) (by decide +kernel)⟩

theorem witness_OperandBytesLittleEndian :
    memRead 0x1003 false (setM 0x1003 fiveBytes base) = .ok five ∧
      OperandReadable 0x1003 (fun k => fiveBytes[k]) (setM 0x1003 fiveBytes base) :=
  ⟨by rfl, readable_of_ok (by decide +kernel)⟩

/-- Vectors I16, I17, I18: the first non-canonical address, an operand that only ends there, a stack base. The last
address whose operand is below 2^64. -/
theorem witness_StackSegmentAccess :
    (let s := setG 0 0x0000800000000000 base
     s.Ready .vex ∧ memOf (.vfnmadd231sdVex v13) = some (.base 0 .none) ∧
      s.canonical (linearAddrOf (.vfnmadd231sdVex v13) (.base 0 .none) s + BitVec.ofNat 64 0) = false) ∧
    (let s := setG 0 0x00007FFFFFFFFFFC base
     s.canonical (linearAddrOf (.vfnmadd231sdVex v13) (.base 0 .none) s + BitVec.ofNat 64 4) = false) ∧
    (let s := setG 0 0xFFFFFFFFFFFFFFF9 base
     2 ^ 64 ≤ (linearAddrOf (.vfnmadd231sdVex v13) (.base 0 .none) s).toNat + 7) ∧
    (stackAccess [] (.base 5 (.d8 0)) = true ∧ stackAccess [.ds] (.sib 4 4 0 .none) = true) ∧
    ((0xFFFFFFFFFFFFFFF8#64).toNat + 7 < 2 ^ 64 ∧
      ∀ k : Fin 8, base.canonical (0xFFFFFFFFFFFFFFF8#64 + BitVec.ofNat 64 k) = true) := by
  refine ⟨⟨⟨by decide, by decide, by decide⟩, by decide, by decide +kernel⟩, by decide +kernel, by decide +kernel,
    by decide, by decide, by decide +kernel⟩

/-- Vector I19, and an operand both of whose pages fault. -/
theorem witness_OperandPageFault :
    (let s := deny 0x5000 0x5000 (setG 0 0x5000 base)
     s.Ready .vex ∧ memOf (.vfnmadd231sdVex v13) = some (.base 0 .none) ∧ s.canonicalOperand 0x5000 = true ∧
      s.misaligned 0x5000 = false ∧ linearAddrOf (.vfnmadd231sdVex v13) (.base 0 .none) s = 0x5000 ∧
      ∃ k : Fin 8, ∃ code, s.translate (0x5000 + BitVec.ofNat 64 k) .dataRead = .error code) ∧
    (let s := deny 0x5000 0x6FFF (setG 0 0x5FFC base)
     s.Ready .vex ∧ s.canonicalOperand 0x5FFC = true ∧ s.misaligned 0x5FFC = false ∧
      linearAddrOf (.vfnmadd231sdVex v13) (.base 0 .none) s = 0x5FFC ∧
      ∃ k : Fin 8, ∃ code, s.translate (0x5FFC + BitVec.ofNat 64 k) .dataRead = .error code) :=
  ⟨⟨⟨by decide, by decide, by decide⟩, rfl, by decide +kernel, by decide, by decide +kernel,
      denied_of_ok (k := 0) (by decide +kernel)⟩,
    ⟨by decide, by decide, by decide⟩, by decide +kernel, by decide, by decide +kernel,
      denied_of_ok (k := 7) (by decide +kernel)⟩

/-- CR0.AM = 1 and RFLAGS.AC = 1, at CPL 3 (vector I15). -/
def checked : State := { base with cr0 := base.cr0 ||| 0x40000, rflags := 0x40002 }

theorem witness_AlignmentCheck :
    (let s := setG 0 0x1003 checked
     s.Ready .vex ∧ memOf (.vfnmadd231sdVex v13) = some (.base 0 .none) ∧
      linearAddrOf (.vfnmadd231sdVex v13) (.base 0 .none) s = 0x1003 ∧ s.canonicalOperand 0x1003 = true ∧
      (∀ k : Fin 8, ∃ loc, s.translate (0x1003 + BitVec.ofNat 64 k) .dataRead = .ok loc) ∧
      s.cr0.getLsbD 18 = true ∧ s.rflags.getLsbD 18 = true ∧ s.cpl = 3#2 ∧ (0x1003#64).toNat % 8 ≠ 0 ∧
      ∃ t, exec (.vfnmadd231sdVex v13) s = .fault (.exception .ac t)) ∧
    (let s : State := { setM 0x1003 fiveBytes checked with cpl := 2 }
     s.cpl ≠ 3#2 ∧ s.canonicalOperand 0x1003 = true ∧
      OperandReadable 0x1003 (fun k => fiveBytes[k]) s) :=
  ⟨⟨⟨by decide, by decide, by decide⟩, rfl, by decide +kernel, by decide +kernel, mapped_of_ok (by decide +kernel),
      by decide, by decide, by decide, by decide, fault_of_seen (d := 0) (by decide +kernel)⟩,
    by decide, by decide +kernel, readable_of_ok (by decide +kernel)⟩

theorem witness_PageFaultOrAlignment :
    let s := deny 0x1003 0x1003 (setG 0 0x1003 checked)
    s.Ready .vex ∧ memOf (.vfnmadd231sdVex v13) = some (.base 0 .none) ∧
      linearAddrOf (.vfnmadd231sdVex v13) (.base 0 .none) s = 0x1003 ∧ s.canonicalOperand 0x1003 = true ∧
      s.misaligned 0x1003 = true ∧
      ∃ k : Fin 8, ∃ code, s.translate (0x1003 + BitVec.ofNat 64 k) .dataRead = .error code :=
  ⟨⟨by decide, by decide, by decide⟩, rfl, by decide +kernel, by decide +kernel, by decide,
    denied_of_ok (k := 0) (by decide +kernel)⟩

/-- One for each row of R97's table and of R99, with B and X set where they are ignored; a list of prefixes. -/
theorem witness_EffectiveAddressForms :
    LegacyPrefix.addrSize ∉ [LegacyPrefix.fs, .cs, .rex 8, .ds] ∧
      decodeMem false true 0 3 [] = some (.base 11 .none) ∧
      decodeMem true true 0 5 [0, 1, 0, 0] = some (.ripRel 0x100) ∧
      decodeMem false false 1 5 [0x80] = some (.base 5 (.d8 0x80)) ∧
      decodeMem false true 2 7 [0xFF, 0xFF, 0xFF, 0xFF] = some (.base 15 (.d32 0xFFFFFFFF)) ∧
      decodeMem false true 0 4 [0x25, 0, 0x10, 0, 0] = some (.sibNoBase 4 0 0x1000) ∧
      decodeMem true false 0 4 [0xE4] = some (.sib 4 12 3 .none) ∧
      decodeMem false true 1 4 [0x4D, 0x7F] = some (.sib 13 1 1 (.d8 0x7F)) ∧
      decodeMem false false 2 4 [0xCB, 1, 0, 0, 0] = some (.sib 3 1 3 (.d32 1)) := by
  decide

theorem witness_AddressSize32 :
    LegacyPrefix.addrSize ∈ [LegacyPrefix.fs, .addrSize] ∧
      effAddr [.addrSize] 1 6 (.base 0 .none) (setG 0 0x100002000 base) = 0x2000 := by
  decide +kernel

theorem witness_SegmentOverride : LegacyPrefix.fs ∉ [LegacyPrefix.ds, .addrSize] ∧ LegacyPrefix.gs ∉ [LegacyPrefix.ds] := by
  decide

theorem witness_DisplacementScaling :
    (LegacyPrefix.fs ∉ [LegacyPrefix.ds] ∧ LegacyPrefix.gs ∉ [LegacyPrefix.ds] ∧
        LegacyPrefix.addrSize ∉ [LegacyPrefix.ds]) ∧
      (⟨[.ds], 0, 1, .mem (.base 0 (.d8 2))⟩ : VexOperands).src3 = .mem (.base 0 (.d8 2)) ∧ e22.pfx = [] ∧
      e22.src3 = .mem (.base 0 (.d8 2)) false := by
  decide

theorem witness_CanonicalAddress :
    base.params.vaBits = .va48 ∧ base.canonical 0x00007FFFFFFFFFFF = true ∧ base.canonical 0x0000800000000000 = false ∧
      base.canonical 0xFFFF7FFFFFFFFFFF = false ∧ base.canonical 0xFFFF800000000000 = true := by
  decide

/-! ### Arithmetic -/

/-- DAZ = FTZ = 0 and every exception masked, as MXCSR = 1F80H says. -/
def masked : FpControl := ⟨false, false, true, true, true, true, true⟩

theorem masked_reset : mxcsrControl 0x1F80#32 = masked := by decide

def snan : Word := 0x7FF0000000000001
def inf : Word := 0x7FF0000000000000
def den : Word := 1
def one : Word := 0x3FF0000000000000

theorem witness_NanSelection :
    isNaN snan = true ∧ isSNaN snan = true ∧ masked.im = true ∧ ({ masked with im := false } : FpControl).im = false ∧
      isNaN qnanIndefinite = true ∧ isSNaN qnanIndefinite = false := by
  decide

theorem witness_InvalidOperations :
    (isNaN inf = false ∧ isNaN 0 = false ∧ isInf inf = true) ∧ readsAsZero masked 0 ∧
      readsAsZero { masked with daz := true } den ∧ ¬ readsAsZero masked den ∧ ¬ readsAsZero masked one ∧
      (signedInf true).getLsbD 63 = (!(inf.getLsbD 63 ^^ one.getLsbD 63)) ∧
      inf.getLsbD 63 ≠ (!(inf.getLsbD 63 ^^ one.getLsbD 63)) ∧ denormalPasses masked inf one inf := by
  simp only [readsAsZero, denormalPasses]
  decide

theorem witness_InfiniteResultsExact :
    denormalPasses masked inf den one ∧ isInf inf = true ∧ isNaN den = false ∧ ¬ readsAsZero masked den ∧
      isFinite one = true ∧ isFinite den = true := by
  simp only [readsAsZero, denormalPasses]
  decide

theorem witness_DenormalOperandFlag :
    denormalOperand masked den one one = true ∧ ({ masked with dm := false } : FpControl).dm = false ∧
      (isNaN den || isNaN one || isNaN one || invalidOp (applyDaz masked den) (applyDaz masked one)
        (applyDaz masked one)) = false ∧
      invalidOp (applyDaz masked inf) (applyDaz masked 0) (applyDaz masked den) = true := by
  decide

theorem witness_DenormalsAreZeros :
    ({ masked with daz := true } : FpControl).daz = true ∧ isDenormal den = true ∧ isDenormal one = false := by
  decide

theorem realValue_zero : realValue 0#64 = 0 := by
  have h : fExp 0#64 = 0 ∧ fFrac 0#64 = 0 := by decide
  simp [realValue, h]

theorem realValue_one : realValue one = 1 := by
  have h : fExp one = 1023 ∧ fFrac one = 0 ∧ fSign one = false := by decide
  simp only [realValue, h]
  norm_num

theorem realValue_max : realValue 0x7FEFFFFFFFFFFFFF = (2 ^ 53 - 1) * 2 ^ 971 := by
  have h : fExp 0x7FEFFFFFFFFFFFFF = 2046 ∧ fFrac 0x7FEFFFFFFFFFFFFF = 2 ^ 52 - 1 ∧
    fSign 0x7FEFFFFFFFFFFFFF = false := by decide
  simp only [realValue, h]
  norm_num

theorem realValue_den : realValue den = 2 ^ (-1074 : ℤ) := by
  have h : fExp den = 0 ∧ fFrac den = 1 ∧ fSign den = false := by decide
  simp [realValue, h]

theorem daz_off (w : Word) : applyDaz masked w = w := rfl

/-- Two zeros of one sign (vector A6), of different signs (A4), and an exact cancellation. -/
theorem witness_ExactZeroSign :
    (isFinite 0 = true ∧ isFinite one = true ∧ denormalPasses masked 0 0 0 ∧ denormalPasses masked one one one) ∧
      exactReal (applyDaz masked 0) (applyDaz masked 0) (applyDaz masked 0) = 0 ∧
      realValue (applyDaz masked 0) * realValue (applyDaz masked 0) = 0 ∧
      (!((0 : Word).getLsbD 63 ^^ (0 : Word).getLsbD 63)) = (signedZero true).getLsbD 63 ∧
      (!((0 : Word).getLsbD 63 ^^ (0 : Word).getLsbD 63)) ≠ (0 : Word).getLsbD 63 ∧
      exactReal (applyDaz masked one) (applyDaz masked one) (applyDaz masked one) = 0 ∧
      realValue (applyDaz masked one) * realValue (applyDaz masked one) ≠ 0 := by
  refine ⟨by simp only [denormalPasses]; decide, ?_, ?_, by decide, by decide, ?_, ?_⟩ <;>
    simp [daz_off, exactReal, realValue_zero, realValue_one]

/-- Vector A12: an inexact sum. -/
theorem witness_CorrectRounding :
    isFinite 0x3FF0000000000001 = true ∧ isFinite 0 = true ∧ masked.ftz = false ∧
      fnmadd64 0x3FF0000000000001 0x3FF0000000000001 0 .rn masked true = .value 0xBFF0000000000002 { pe := true } ∧
      isFinite 0xBFF0000000000002 = true := by
  decide +kernel

/-- Vector A1: an exact sum; vector A23: an overflow. -/
theorem witness_PrecisionFlagTellsInexact :
    fnmadd64 0x4008000000000000 0x4000000000000000 0x4024000000000000 .rn masked true =
        .value 0x4010000000000000 {} ∧
      fnmadd64 0xFFEFFFFFFFFFFFFF 0x4000000000000000 0 .rn masked true =
        .value 0x7FF0000000000000 { oe := true, pe := true } := by
  decide +kernel

/-- `-(MaxFinite * MaxFinite) + 0` overflows in RN, RZ and RD, its negation in RU; 0 does not overflow. -/
theorem witness_OverflowResult :
    denormalPasses masked 0x7FEFFFFFFFFFFFFF 0x7FEFFFFFFFFFFFFF 0 ∧ isFinite 0x7FEFFFFFFFFFFFFF = true ∧
      OverflowsReal .rz (exactReal 0x7FEFFFFFFFFFFFFF 0x7FEFFFFFFFFFFFFF 0) ∧
      ¬ OverflowsReal .rn (exactReal 0 0 0) ∧ masked.om = true ∧ masked.pm = true := by
  refine ⟨by simp only [denormalPasses]; decide, by decide, ?_, ?_, rfl, rfl⟩
  · have h : (1 : ℚ) ≤ 2 ^ 971 := one_le_pow₀ (by norm_num)
    have h2 : (2 : ℚ) ^ 1024 = 2 ^ 53 * 2 ^ 971 := by rw [← pow_add]
    show (2 : ℚ) ^ 1024 ≤ |exactReal _ _ 0#64|
    rw [exactReal, realValue_max, realValue_zero, add_zero, abs_neg, h2]
    refine le_trans ?_ (le_abs_self _)
    generalize (2 : ℚ) ^ 971 = p at h
    nlinarith
  · have h : (2 : ℚ) ^ 970 < 2 ^ 1024 := pow_lt_pow_right₀ (by norm_num) (by norm_num)
    show ¬ ((2 : ℚ) ^ 1024 - 2 ^ 970 ≤ |exactReal 0#64 0#64 0#64|)
    rw [exactReal, realValue_zero, mul_zero, neg_zero, add_zero, abs_zero, not_le, sub_pos]
    exact h

/-- The smallest denormal is tiny in RZ; 0 and 1 are not. -/
theorem tiny_den : TinyReal .rz (exactReal 0#64 0#64 den) ∧ ¬ TinyReal .rz (exactReal 0#64 0#64 one) := by
  simp only [TinyReal, exactReal, realValue_zero, realValue_den, realValue_one]
  refine ⟨⟨?_, ?_⟩, ?_⟩
  · simp
  · rw [mul_zero, neg_zero, zero_add, abs_of_pos (by positivity)]
    exact zpow_lt_zpow_right₀ (by norm_num) (by norm_num)
  · rintro ⟨-, h⟩
    rw [mul_zero, neg_zero, zero_add, abs_one] at h
    exact absurd h (not_lt.mpr (zpow_le_one_of_nonpos₀ (by norm_num) (by norm_num)))

theorem witness_UnderflowResult :
    denormalPasses masked 0 0 den ∧ isFinite den = true ∧ TinyReal .rz (exactReal 0 0 den) ∧
      ¬ TinyReal .rz (exactReal 0 0 one) ∧ masked.um = true ∧ masked.ftz = false :=
  ⟨by simp only [denormalPasses]; decide, by decide, tiny_den.1, tiny_den.2, rfl, rfl⟩

theorem witness_FlushToZero :
    denormalPasses { masked with ftz := true } 0 0 den ∧ TinyReal .rz (exactReal 0 0 den) ∧
      ¬ TinyReal .rz (exactReal 0 0 one) ∧ ({ masked with ftz := true } : FpControl).ftz = true :=
  ⟨by simp only [denormalPasses]; decide, tiny_den.1, tiny_den.2, rfl⟩

/-- Vectors A1 and A81's kind: a value, and a trap on an unmasked PE. -/
theorem witness_UnmaskedCauseTraps :
    fnmadd64 0x4008000000000000 0x4000000000000000 0x4024000000000000 .rn masked true =
        .value 0x4010000000000000 {} ∧
      fnmadd64 0x3FF0000000000001 0x3FF0000000000001 0 .rn { masked with pm := false } true =
        .trap { pe := true } ∧
      fnmadd64 snan one one .rn { masked with im := false } true = .trap { ie := true } ∧
      fnmadd64 den one one .rn { masked with dm := false } true = .trap { de := true } := by
  decide +kernel

theorem witness_AllMaskedNeverTraps : masked.AllMasked := ⟨rfl, rfl, rfl, rfl, rfl⟩

theorem witness_MultiplicandsCommute : (isNaN snan && isNaN one) = false := by decide

end Sys2Proof.Tests
end

/-! The proofs of the family 00_scope: what is out of scope is refused, reset is legal and every step keeps that, and
the instruction whose bytes stand at `pc` is the one a step runs. -/

/-! ## Well-formed instructions -/

namespace Sys2Proof

/-- R71: at least 5 bytes and at most 11 beside the prefixes. -/
theorem Instr.length_bounds (i : Instr) : i.pfx.length + 5 ≤ i.length ∧ i.length ≤ i.pfx.length + 11 := by
  cases i with
  | vfnmadd132sdVex o => exact Laws.EncodeLength.vex_bounds o
  | vfnmadd213sdVex o => exact Laws.EncodeLength.vex_bounds o
  | vfnmadd231sdVex o => exact Laws.EncodeLength.vex_bounds o
  | vfnmadd132sdEvex o => exact Laws.EncodeLength.evex_bounds o
  | vfnmadd213sdEvex o => exact Laws.EncodeLength.evex_bounds o
  | vfnmadd231sdEvex o => exact Laws.EncodeLength.evex_bounds o

theorem Instr.wf_iff (i : Instr) :
    i.wf = true ↔ i.legal = true ∧ lengthLegal i.length = true ∧ i.encodable = true := by
  simp only [Instr.wf, Bool.and_eq_true, and_assoc]

/-- R108 step 8: the decoder accepts what is well-formed. -/
theorem verdictOf_of_wf (k : EncKind) {i : Instr} (h : i.wf = true) : verdictOf k i = .form i := by
  obtain ⟨hlegal, hlength, -⟩ := i.wf_iff.mp h
  rw [verdictOf, if_pos hlength, if_pos hlegal]

end Sys2Proof

/-! ## Scope (R6, R223, R243): what the refusals are, and that a step and an instruction answer them -/

namespace Sys2Proof.Machine

theorem State.debugArmed_iff (s : State) :
    s.debugArmed = true ↔ s.rflags.getLsbD 8 = true ∨ s.dr7.extractLsb' 0 8 ≠ 0 := by
  simp [State.debugArmed]

theorem State.scopeRefusal_of_not_longMode {s : State} (h : s.longMode = false) :
    s.scopeRefusal = some .notLongMode := by
  simp [State.scopeRefusal, h]

theorem State.scopeRefusal_of_debugArmed {s : State} (hl : s.longMode = true) (hd : s.debugArmed = true) :
    s.scopeRefusal = some .debugTrapArmed := by
  simp [State.scopeRefusal, hl, hd]

theorem State.scopeRefusal_of_mxcsrReserved {s : State} (hl : s.longMode = true) (hd : s.debugArmed = false)
    (hm : Machine.mxcsrReserved s.mxcsr ≠ 0) : s.scopeRefusal = some .mxcsrReservedSet := by
  have hm : Machine.mxcsrReserved s.mxcsr ≠ 0#16 := hm
  simp [State.scopeRefusal, hl, hd, hm]

theorem execVex_of_scopeRefusal {s : State} {r : Refusal} (h : s.scopeRefusal = some r) (ord : FmaOrder)
    (o : VexOperands) : execVex ord o s = .refused r := by
  simp only [execVex, h]

theorem execEvex_of_scopeRefusal {s : State} {r : Refusal} (h : s.scopeRefusal = some r) (ord : FmaOrder)
    (o : EvexOperands) : execEvex ord o s = .refused r := by
  simp only [execEvex, h]

/-- Every instruction refuses by itself what is out of scope (log 30). -/
theorem exec_of_scopeRefusal {s : State} {r : Refusal} (h : s.scopeRefusal = some r) (i : Instr) :
    exec i s = .refused r := by
  cases i with
  | vfnmadd132sdVex o => exact execVex_of_scopeRefusal h .o132 o
  | vfnmadd213sdVex o => exact execVex_of_scopeRefusal h .o213 o
  | vfnmadd231sdVex o => exact execVex_of_scopeRefusal h .o231 o
  | vfnmadd132sdEvex o => exact execEvex_of_scopeRefusal h .o132 o
  | vfnmadd213sdEvex o => exact execEvex_of_scopeRefusal h .o213 o
  | vfnmadd231sdEvex o => exact execEvex_of_scopeRefusal h .o231 o

theorem step_of_scopeRefusal {s : State} {r : Refusal} (h : s.scopeRefusal = some r) : step s = .refused r := by
  simp only [step, h]

/-- Settles O5: the condition of each clause fixes `scopeRefusal`, which step and every instruction answer. -/
theorem outOfScopeRefused : Obligations.OutOfScopeRefused := by
  intro s i
  have refuse : ∀ {r}, s.scopeRefusal = some r → step s = .refused r ∧ exec i s = .refused r :=
    fun h => ⟨step_of_scopeRefusal h, exec_of_scopeRefusal h i⟩
  refine ⟨fun hl => ?_, fun hl hd => ?_, fun hl htf hdr hm => ?_⟩
  · exact refuse (State.scopeRefusal_of_not_longMode hl)
  · exact refuse (State.scopeRefusal_of_debugArmed hl (s.debugArmed_iff.mpr hd))
  · have hd : s.debugArmed = false := by
      rw [Bool.eq_false_iff, ne_eq, s.debugArmed_iff]
      rintro (h | h)
      · exact Bool.false_ne_true (htf.symm.trans h)
      · exact h hdr
    exact refuse (State.scopeRefusal_of_mxcsrReserved hl hd hm)

/-! ## Legal states -/

@[simp] theorem State.reset_vregAt (n : VregNum) : State.reset.vregAt n = 0 := by
  simp [State.vregAt, State.reset]

@[simp] theorem State.reset_kregAt (n : KregNum) : State.reset.kregAt n = 0 := by
  simp [State.kregAt, State.reset]

/-- Settles O2: every register is 0, the memory is empty, and AVX512F comes with 512-bit registers. -/
theorem resetIsLegal : Obligations.ResetIsLegal where
  memory := rfl
  parameters := rfl
  vectorWidth := by simp
  vectorCount := by simp
  opmaskWidth := by simp
  opmaskCount := by simp
  mxcsrReserved := by decide

/-- R27: a scalar write leaves no bit beyond any MAXVL, the least of which is 128. -/
theorem scalarWrite_ushiftRight_maxvl (old : BitVec 512) (r : Word) (v : Config.MaxVL) :
    scalarWrite old r >>> v.bits = 0 := by
  obtain ⟨k, hk⟩ : ∃ k, v.bits = 128 + k :=
    Nat.exists_eq_add_of_le (by cases v <;> decide)
  rw [hk, BitVec.shiftRight_add, scalarWrite_upper]
  exact BitVec.zero_ushiftRight

/-- R205: a form that is not stopped by its enable conditions has its feature. -/
theorem State.hasFeature_of_enableFault {s : State} {k : EncKind} (h : s.enableFault k = none) :
    s.hasFeature k = true := by
  unfold State.enableFault at h
  split at h
  · cases h
  · rename_i he
    simp only [Bool.not_eq_true, Bool.not_eq_false', State.enabled, Bool.and_eq_true] at he
    obtain ⟨⟨hf, -⟩, -⟩ := he
    exact hf

/-- R26: a VEX form names one of registers 0 to 15. -/
theorem destOf_lt_of_vex {i : Instr} (h : kindOf i = .vex) : (destOf i).toNat < 16 := by
  have low : ∀ n : BitVec 4, (vexReg n).toNat < 16 := by decide
  cases i with
  | vfnmadd132sdVex o => exact low o.dst
  | vfnmadd213sdVex o => exact low o.dst
  | vfnmadd231sdVex o => exact low o.dst
  | vfnmadd132sdEvex o => cases h
  | vfnmadd213sdEvex o => cases h
  | vfnmadd231sdEvex o => cases h

/-- R7, R26: where the form's feature is there, its destination register exists: an EVEX form names one of 32 registers,
and AVX512F gives 32. -/
theorem destOf_lt_nvreg {s : State} {i : Instr} (h : s.hasFeature (kindOf i) = true) :
    (destOf i).toNat < s.params.nvreg := by
  unfold Config.Params.nvreg
  split
  · exact (destOf i).isLt
  · rename_i hf
    cases hk : kindOf i with
    | vex => exact destOf_lt_of_vex hk
    | evex =>
      rw [hk] at h
      exact absurd h hf

/-- Completing an instruction whose destination register exists keeps a state legal. -/
theorem State.Legal.completed {s : State} (hs : s.Legal) {d : VregNum} (hd : d.toNat < s.params.nvreg) (r : Word)
    (f : FpFlags) (len : Nat) : (s.completed d r f len).Legal where
  memory := hs.memory
  parameters := hs.parameters
  vectorWidth n := by
    by_cases hn : n = d
    · subst hn
      rw [State.completed_vregAt_same]
      exact scalarWrite_ushiftRight_maxvl _ r _
    · rw [State.completed_vregAt_other _ _ _ _ _ hn]
      exact hs.vectorWidth n
  vectorCount n hn := by
    have hne : n ≠ d := by
      rintro rfl
      exact absurd hd (Nat.not_lt.mpr hn)
    rw [State.completed_vregAt_other _ _ _ _ _ hne]
    exact hs.vectorCount n hn
  opmaskWidth := hs.opmaskWidth
  opmaskCount := hs.opmaskCount
  mxcsrReserved := (mxcsrReserved_orFlags s.mxcsr f).trans hs.mxcsrReserved

/-- Every instruction keeps a state legal. -/
theorem exec_keeps_legal {i : Instr} {s t : State} (hs : s.Legal) (h : exec i s = .next t) : t.Legal := by
  obtain ⟨-, he, -, r, f, -, rfl⟩ := exec_next h
  exact hs.completed (destOf_lt_nvreg (State.hasFeature_of_enableFault he)) r f i.length

/-- Settles O3: a step that answers next is an instruction's, and that has written one existing register, flags of MXCSR
and `pc`. -/
theorem stepKeepsLegal : Obligations.StepKeepsLegal := by
  intro s t hs h
  obtain ⟨i, -, -, hi⟩ := step_next h
  exact exec_keeps_legal hs hi

/-! ## From the bytes at `pc` to the instruction -/

/-- Settles O14: in scope, `step` is the meaning of the decoder's verdict. -/
theorem stepRunsDecoded : Obligations.StepRunsDecoded := by
  intro s i hs hd
  simp only [step, hs, hd]

/-- The bytes of the prefixes have no ignored bits, nor has the one that ends them: they are read back. -/
theorem takePrefixes_of_masked {ps : List LegacyPrefix} {c : Byte} (hc : prefixOf c = none) {ms cs bs : List Byte}
    (h : SameUpTo (ps.map (fun _ => 0#8) ++ 0#8 :: ms) bs (ps.map LegacyPrefix.byte ++ c :: cs)) :
    (takePrefixes bs).1 = ps := by
  obtain ⟨p, q, rfl, hp, hq⟩ := (sameUpTo_append _ (by simp)).mp h
  obtain ⟨-, rfl⟩ := (sameUpTo_zeros _ _ _).mp hp
  match q, hq with
  | b :: q, hq =>
    obtain rfl : b = c := masked_zero (sameUpTo_cons.mp hq).1
    rw [takePrefixes_append ps hc]

/-- The prefixes of an encoding, with any ignored bits, are the instruction's. -/
theorem takePrefixes_sameUpTo {i : Instr} {bs : List Byte} (h : SameUpTo (ignoredBits i) bs (encode i)) :
    (takePrefixes bs).1 = i.pfx := by
  have vex : ∀ {ord o}, SameUpTo (ignoredBits.vexIgnored o) bs (encodeVex ord o) → (takePrefixes bs).1 = o.pfx :=
    fun h => takePrefixes_of_masked prefixOf_vex
      (by simpa only [ignoredBits.vexIgnored, encodeVex, List.append_assoc, List.cons_append] using h)
  have evex : ∀ {ord o}, SameUpTo (ignoredBits.evexIgnored o) bs (encodeEvex ord o) → (takePrefixes bs).1 = o.pfx :=
    fun h => takePrefixes_of_masked prefixOf_evex
      (by simpa only [ignoredBits.evexIgnored, encodeEvex, List.append_assoc, List.cons_append] using h)
  cases i with
  | vfnmadd132sdVex o => exact vex (ord := .o132) h
  | vfnmadd213sdVex o => exact vex (ord := .o213) h
  | vfnmadd231sdVex o => exact vex (ord := .o231) h
  | vfnmadd132sdEvex o => exact evex (ord := .o132) h
  | vfnmadd213sdEvex o => exact evex (ord := .o213) h
  | vfnmadd231sdEvex o => exact evex (ord := .o231) h

/-- Where an encoding stands at `pc`, with any ignored bits, the decoder's verdict is the instruction's own, whatever
follows: the window holds all of its bytes. -/
theorem decode_fetchWindow_of_encoding {s : State} {i : Instr} {bs : List Byte} (he : i.encodable = true)
    (h : SameUpTo (ignoredBits i) bs (encode i)) (ht : TextAt s bs) :
    decode (fetchWindow s).1 = verdictOf (kindOf i) i := by
  have hl : bs.length = i.length := h.length.1.trans (ignoredBits_length i)
  have hn : bs.length ≤ (takePrefixes bs).1.length + 11 := by
    rw [hl, takePrefixes_sameUpTo h]
    exact i.length_bounds.2
  obtain ⟨rest, stop, hw⟩ := fetchWindow_of_text hn ht
  rw [hw]
  exact decode_sameUpTo he (by rwa [← hl, List.take_left])

/-- Settles O15: the decoder reads the instruction from the window, and `Translate` puts an address at one location for
both kinds of access. -/
theorem encodedInstructionRuns : Obligations.EncodedInstructionRuns := by
  refine ⟨fun s i bs hs hwf h ht => ?_, fun s la b c hb hc => byteAt_access hb hc⟩
  obtain ⟨-, -, henc⟩ := i.wf_iff.mp hwf
  apply stepRunsDecoded s i hs
  rw [decode_fetchWindow_of_encoding henc h ht, verdictOf_of_wf _ hwf]

end Sys2Proof.Machine

/-! The proofs of the family 10_state: what reset leaves, what an instruction delivers and leaves unchanged, and what no
run ever changes. -/

/-! ## Raised exceptions: the state an exception carries -/

namespace Sys2Proof.Machine

theorem faultOf_eq_exception {x y : Exception} {s t : State} :
    faultOf y s = .exception x t ↔ y = x ∧ y.record s = t := by
  rw [faultOf, Fault.exception.injEq]

/-- R214: the state an exception is raised in is the old one, that with one free value consumed, or a SIMD trap's. -/
def RaisedIn (s u : State) : Prop := u = s ∨ u = s.consumeDraw ∨ ∃ f, u = s.trapped f

theorem RaisedIn.pc {s u : State} (h : RaisedIn s u) : u.pc = s.pc := by
  obtain rfl | rfl | ⟨f, rfl⟩ := h <;> rfl

theorem RaisedIn.vreg {s u : State} (h : RaisedIn s u) : u.vreg = s.vreg := by
  obtain rfl | rfl | ⟨f, rfl⟩ := h <;> rfl

theorem exec_exception {i : Instr} {s t : State} {x : Exception} (h : exec i s = .fault (.exception x t)) :
    ∃ u, RaisedIn s u ∧ t = x.record u := by
  obtain ⟨-, ⟨y, -, hg⟩ | ⟨-, hsrc | ⟨f, hg⟩⟩⟩ := exec_fault h
  · obtain ⟨rfl, rfl⟩ := faultOf_eq_exception.mp hg.symm
    exact ⟨s, .inl rfl, rfl⟩
  · obtain ⟨la, stack, hm⟩ := src3Of_error hsrc
    obtain ⟨y, u, hg, hu, -⟩ | ⟨a, hg⟩ := memRead_error hm
    · obtain ⟨rfl, rfl⟩ := faultOf_eq_exception.mp hg.symm
      exact ⟨u, hu.imp_right .inl, rfl⟩
    · cases hg
  · obtain ⟨rfl, rfl⟩ := faultOf_eq_exception.mp hg.symm
    exact ⟨s.trapped f, .inr (.inr ⟨f, rfl⟩), rfl⟩

theorem step_exception {s t : State} {x : Exception} (h : step s = .fault (.exception x t)) :
    ∃ u, RaisedIn s u ∧ t = x.record u := by
  obtain ⟨y, u, hg, hu⟩ | ⟨la, hg⟩ := step_fault h
  · obtain ⟨rfl, rfl⟩ := faultOf_eq_exception.mp hg.symm
    exact ⟨u, hu.imp_right (.imp_right And.right), rfl⟩
  · cases hg

/-! ## What every run keeps (R36) -/

/-- `t` differs from `s` at most as a run of instructions can make it: in vector registers, of which bits 127:64 stay
and what has changed has nothing above (R27, R28), in MXCSR flags newly set (R32), and in `pc` (R23). -/
structure RunFrame (s t : State) : Prop where
  rest : t = { s with vreg := t.vreg, mxcsr := t.mxcsr, pc := t.pc }
  controls : t.mxcsr &&& ~~~ 0x3B#32 = s.mxcsr &&& ~~~ 0x3B#32
  sticky : t.mxcsr &&& s.mxcsr = s.mxcsr
  high : ∀ n, (t.vregAt n).extractLsb' 64 64 = (s.vregAt n).extractLsb' 64 64
  upper : ∀ n, t.vregAt n = s.vregAt n ∨ t.vregAt n >>> 128 = 0

theorem RunFrame.refl (s : State) : RunFrame s s where
  rest := rfl
  controls := rfl
  sticky := BitVec.and_self
  high _ := rfl
  upper _ := .inl rfl

theorem RunFrame.trans {s t u : State} (h : RunFrame s t) (h' : RunFrame t u) : RunFrame s u where
  rest := by
    calc
      u = { t with vreg := u.vreg, mxcsr := u.mxcsr, pc := u.pc } := h'.rest
      _ = { s with vreg := u.vreg, mxcsr := u.mxcsr, pc := u.pc } := by rw [h.rest]
  controls := h'.controls.trans h.controls
  sticky := by
    calc
      u.mxcsr &&& s.mxcsr = u.mxcsr &&& t.mxcsr &&& s.mxcsr := by rw [BitVec.and_assoc, h.sticky]
      _ = s.mxcsr := by rw [h'.sticky, h.sticky]
  high n := (h'.high n).trans (h.high n)
  upper n := by
    obtain hn | hn := h'.upper n
    · rw [hn]
      exact h.upper n
    · exact .inr hn

theorem RunFrame.completed (s : State) (d : VregNum) (r : Word) (f : FpFlags) (len : Nat) :
    RunFrame s (s.completed d r f len) where
  rest := rfl
  controls := orFlags_keeps s.mxcsr f
  sticky := orFlags_sticky s.mxcsr f
  high n := by
    by_cases hn : n = d
    · subst hn
      exact (s.completed_completion n r f len).high
    · rw [State.completed_vregAt_other _ _ _ _ _ hn]
  upper n := by
    by_cases hn : n = d
    · subst hn
      exact .inr (s.completed_completion n r f len).upper
    · exact .inl (State.completed_vregAt_other _ _ _ _ _ hn)

theorem RunFrame.of_exec {i : Instr} {s t : State} (h : exec i s = .next t) : RunFrame s t := by
  obtain ⟨-, -, -, r, f, -, rfl⟩ := exec_next h
  exact .completed s (destOf i) r f i.length

theorem RunFrame.of_step {s t : State} (h : step s = .next t) : RunFrame s t := by
  obtain ⟨i, -, -, hi⟩ := step_next h
  exact .of_exec hi

/-- The frame is reflexive and transitive, and holds of every step. -/
theorem Reaches.runFrame {s t : State} (h : Reaches s t) : RunFrame s t := by
  induction h with
  | refl => exact .refl s
  | step _ hstep ih => exact ih.trans (.of_step hstep)

/-- Settles O27: the run frame of all that is reached. -/
theorem runKeepsEverythingElse : Obligations.RunKeepsEverythingElse := by
  intro s t h
  obtain ⟨hrest, hcontrols, hsticky, hhigh, hupper⟩ := h.runFrame
  exact ⟨hrest, hcontrols, hsticky, fun n => ⟨hhigh n, hupper n⟩⟩

/-! ## The instruction pointer (R22, R23, R98) -/

/-- R53, log 19: at a non-canonical `pc` not even the first byte can be fetched. -/
theorem fetchByte_zero_of_noncanonical {s : State} (h : s.canonical s.pc = false) :
    fetchByte 0 s = .error (faultOf .gp s) := by
  simp [fetchByte, h]

theorem step_of_noncanonical_pc {s : State} (hs : s.scopeRefusal = none) (h : s.canonical s.pc = false) :
    step s = .fault (.exception .gp s) := by
  have hw : fetchWindow s = ([], some (faultOf .gp s)) :=
    fetchWindow_of_stop (bs := []) (by simp [takePrefixes]) (fun k hk => absurd hk (Nat.not_lt_zero k))
      (fetchByte_zero_of_noncanonical h)
  have hd : decode [] = .truncated := rfl
  simp only [step, hs, hw, hd]
  rfl

/-- R98: without 67H a RIP-relative address counts from the next instruction. -/
theorem effAddr_ripRel {pfx : List LegacyPrefix} (h : .addrSize ∉ pfx) (n8 len : Nat) (d : BitVec 32) (s : State) :
    effAddr pfx n8 len (.ripRel d) s = s.pc + BitVec.ofNat 64 len + d.signExtend 64 := by
  have h64 : addrSize32 pfx = false := by simpa [addrSize32] using h
  simp [effAddr, h64, effAddrAt]

theorem exec_next_pc {i : Instr} {s t : State} (h : exec i s = .next t) :
    t.pc = s.pc + BitVec.ofNat 64 i.length := by
  obtain ⟨-, -, -, r, f, -, rfl⟩ := exec_next h
  rfl

/-- Settles O18: a step that answers next is an instruction's, and what is raised is raised at the old `pc`. -/
theorem pcAdvance : Obligations.PcAdvance := by
  refine ⟨fun s t h => ?_, fun s x t h => ?_, fun s i t h => exec_next_pc h, fun s => step_of_noncanonical_pc,
    fun s pfx n8 len d h => effAddr_ripRel h n8 len d s⟩
  · obtain ⟨i, -, hd, hi⟩ := step_next h
    exact ⟨i, hd, exec_next_pc hi⟩
  · obtain ⟨u, hu, rfl⟩ := step_exception h
    rw [Exception.record_pc, hu.pc]

/-! ## Reading operand 3 (R55) -/

theorem byteAt_of_translate {s : State} {la loc : Word} {access : Access} {b : Byte}
    (ht : s.translate la access = .ok loc) (hm : Memory.read s.mem loc.toNat = some b) :
    byteAt la access s = .ok b := by
  simp only [byteAt, ht, hm]

theorem bytesAt_ofFn {s : State} {access : Access} {n : Nat} {a : Fin n → Word} {b : Fin n → Byte}
    (h : ∀ k, byteAt (a k) access s = .ok (b k)) : bytesAt access s (List.ofFn a) = .ok (List.ofFn b) := by
  induction n with
  | zero => simp [bytesAt]
  | succ n ih =>
    rw [List.ofFn_succ, List.ofFn_succ]
    simp only [bytesAt, h 0, ih fun k => h k.succ]

theorem operandAddrs_eq_ofFn (la : Word) :
    operandAddrs la = List.ofFn fun k : Fin 8 => la + BitVec.ofNat 64 k := rfl

/-- Of addresses that all translate none is denied. -/
theorem State.firstDenied_eq_none {s : State} {as : List Word}
    (h : ∀ a ∈ as, ∃ loc, s.translate a .dataRead = .ok loc) : s.firstDenied as = none := by
  induction as with
  | nil => rfl
  | cons a as ih =>
    obtain ⟨loc, ha⟩ := h a List.mem_cons_self
    simp only [State.firstDenied, ha]
    exact ih fun b hb => h b (List.mem_cons_of_mem a hb)

theorem State.pageFault_eq_none {s : State} {la : Word}
    (h : ∀ a ∈ operandAddrs la, ∃ loc, s.translate a .dataRead = .ok loc) : s.pageFault la = none := by
  have none_of (p : Word → Bool) : s.firstDenied ((operandAddrs la).filter p) = none :=
    State.firstDenied_eq_none fun a ha => h a (List.mem_of_mem_filter ha)
  simp only [State.pageFault, State.pageFaults, none_of]

/-- R55: where nothing stands against it, the read delivers the 8 bytes in little-endian order. -/
theorem OperandReadable.memRead {la : Word} {b : Fin 8 → Byte} {s : State} (h : OperandReadable la b s)
    (stack : Bool) : memRead la stack s = .ok (leWord (List.ofFn b)) := by
  have hpages : s.pageFault la = none := by
    apply State.pageFault_eq_none
    rw [operandAddrs_eq_ofFn, List.forall_mem_ofFn_iff]
    intro k
    obtain ⟨loc, hloc, -⟩ := h.mapped k
    exact ⟨loc, hloc⟩
  have hbytes : bytesAt .dataRead s (operandAddrs la) = .ok (List.ofFn b) := by
    rw [operandAddrs_eq_ofFn]
    apply bytesAt_ofFn
    intro k
    obtain ⟨loc, hloc, hbyte⟩ := h.mapped k
    exact byteAt_of_translate hloc hbyte
  simp only [Machine.memRead, h.canonical, if_true, accessFault, hpages, h.aligned, hbytes]

theorem VexOperand3.read {o : VexOperands} {c : Word} {s : State} (h : VexOperand3 o c s) :
    readVexSrc3 o s = .ok c := by
  cases h3 : o.src3 with
  | reg n =>
    simp only [VexOperand3, h3] at h
    simp only [readVexSrc3, h3, h]
  | mem a =>
    simp only [VexOperand3, h3] at h
    obtain ⟨b, hb, rfl⟩ := h
    simp only [readVexSrc3, h3, memOperand, hb.memRead]

theorem EvexOperand3.read {o : EvexOperands} {c : Word} {s : State} (h : EvexOperand3 o c s) :
    readEvexSrc3 o s = .ok c := by
  cases h3 : o.src3 with
  | reg n er =>
    simp only [EvexOperand3, h3] at h
    simp only [readEvexSrc3, h3, h]
  | mem a bc =>
    simp only [EvexOperand3, h3] at h
    obtain ⟨b, hb, rfl⟩ := h
    simp only [readEvexSrc3, h3, memOperand, hb.memRead]

/-! ## Instructions by their order of operands -/

section
variable (ord : FmaOrder) (o : VexOperands) (e : EvexOperands) (s : State)

@[simp] theorem exec_vex : exec (ord.vex o) s = execVex ord o s := by cases ord <;> rfl
@[simp] theorem exec_evex : exec (ord.evex e) s = execEvex ord e s := by cases ord <;> rfl
@[simp] theorem destOf_vex : destOf (ord.vex o) = vexReg o.dst := by cases ord <;> rfl
@[simp] theorem destOf_evex : destOf (ord.evex e) = e.dst := by cases ord <;> rfl
@[simp] theorem length_vex : (ord.vex o).length = o.length := by cases ord <;> rfl
@[simp] theorem length_evex : (ord.evex e).length = e.length := by cases ord <;> rfl

end

/-! ## Completing: the converse of `execVex_next` and `execEvex_next` -/

theorem State.Ready.enableFault {s : State} {k : EncKind} (h : s.Ready k) : s.enableFault k = none := by
  simp only [State.enableFault, h.enabled, h.available, Bool.not_true, Bool.false_eq_true, if_false]

theorem execVex_of_value {ord : FmaOrder} {o : VexOperands} {s : State} {c r : Word} {f : FpFlags}
    (hs : s.Ready .vex) (hc : readVexSrc3 o s = .ok c) (hr : vexResult ord o c s = .value r f) :
    execVex ord o s = .next (s.completed (vexReg o.dst) r f o.length) := by
  simp only [execVex, hs.scope, hs.enableFault, hc, hr, complete]

theorem execEvex_of_value {ord : FmaOrder} {o : EvexOperands} {s : State} {c r : Word} {f : FpFlags}
    (hs : s.Ready .evex) (hc : readEvexSrc3 o s = .ok c) (hm : maskBit o s = true)
    (hr : evexResult ord o c s = .value r f) :
    execEvex ord o s = .next (s.completed o.dst r (evexFlags o f) o.length) := by
  simp only [execEvex, hs.scope, hs.enableFault, hc, hm, if_true, hr, complete]

theorem execEvex_of_maskedOff {ord : FmaOrder} {o : EvexOperands} {s : State} {c : Word}
    (hs : s.Ready .evex) (hc : readEvexSrc3 o s = .ok c) (hm : maskBit o s = false) :
    execEvex ord o s = .next (s.completed o.dst (if o.zeroing then 0 else s.low o.dst) {} o.length) := by
  simp only [execEvex, hs.scope, hs.enableFault, hc, hm, Bool.false_eq_true, if_false, evexMaskedOff, complete]

/-! ## The mask bit (R30) -/

theorem maskBit_of_no_mask {o : EvexOperands} (h : o.mask = 0#3) (s : State) : maskBit o s = true := if_pos h

theorem maskBit_of_mask {o : EvexOperands} (h : o.mask ≠ 0#3) (s : State) :
    maskBit o s = (s.kregAt o.mask).getLsbD 0 := if_neg h

theorem maskBit_eq_true_iff (o : EvexOperands) (s : State) :
    maskBit o s = true ↔ o.mask = 0#3 ∨ (s.kregAt o.mask).getLsbD 0 = true := by
  by_cases h : o.mask = 0#3
  · simp [maskBit_of_no_mask h, h]
  · simp [maskBit_of_mask h, h]

/-! ## With every exception masked no stage of FNMAdd64 traps (R133) -/

section
variable {ctl : FpControl} (h : ctl.AllMasked)
include h

theorem overflowStep_of_allMasked (rm : RoundingMode) (de neg : Bool) :
    ∃ r f, ∀ pe, overflowStep rm ctl pe de neg = .value r f := by
  obtain ⟨-, -, hom, -, hpm⟩ := h
  exact ⟨_, _, fun _ => by rw [overflowStep, if_pos hom, precisionStep_of_masked hpm]⟩

theorem tinyStep_of_allMasked (rm : RoundingMode) (de neg : Bool) (mag : Nat) :
    ∃ r f, ∀ pe, tinyStep rm ctl pe de neg mag = .value r f := by
  obtain ⟨-, -, -, hum, hpm⟩ := h
  simp only [tinyStep, hum, Bool.not_true, Bool.false_eq_true, if_false]
  split
  · exact ⟨_, _, fun _ => precisionStep_of_masked hpm _ _⟩
  · exact ⟨_, _, fun _ => precisionStep_of_masked hpm _ _⟩

theorem roundStep_of_allMasked (rm : RoundingMode) (de neg : Bool) (mag : Nat) :
    ∃ r f, ∀ pe, roundStep rm ctl pe de neg mag = .value r f := by
  unfold roundStep
  dsimp only
  split
  · exact overflowStep_of_allMasked h rm de neg
  · split
    · exact tinyStep_of_allMasked h rm de neg mag
    · obtain ⟨-, -, -, -, hpm⟩ := h
      exact ⟨_, _, fun _ => precisionStep_of_masked hpm _ _⟩

theorem finiteStep_of_allMasked (rm : RoundingMode) (de : Bool) (x y z : Word) :
    ∃ r f, ∀ pe, finiteStep rm ctl pe de x y z = .value r f := by
  unfold finiteStep
  dsimp only
  split
  · exact ⟨_, _, fun _ => rfl⟩
  · exact roundStep_of_allMasked h rm de _ _

theorem numericStep_of_allMasked (rm : RoundingMode) (x y z : Word) :
    ∃ r f, ∀ pe, numericStep rm ctl pe x y z = .value r f := by
  have ⟨_, hdm, _⟩ := h
  simp only [numericStep, hdm, Bool.not_true, Bool.and_false, Bool.false_eq_true, if_false]
  split
  · exact ⟨_, _, fun _ => rfl⟩
  · split
    · exact ⟨_, _, fun _ => rfl⟩
    · exact finiteStep_of_allMasked h rm _ x y z

theorem nanResult_of_allMasked (x y z : Word) : ∃ r f, nanResult ctl x y z = .value r f := by
  obtain ⟨him, -⟩ := h
  obtain ⟨hv, -⟩ | ⟨-, -, hunmasked⟩ := nanResult_cases ctl x y z
  · exact ⟨_, _, hv⟩
  · rw [him] at hunmasked
    cases hunmasked

theorem fnmaddRead_of_allMasked (rm : RoundingMode) (x y z : Word) :
    ∃ r f, ∀ pe, fnmaddRead rm ctl pe x y z = .value r f := by
  unfold fnmaddRead
  split
  · obtain ⟨r, f, hv⟩ := nanResult_of_allMasked h x y z
    exact ⟨r, f, fun _ => hv⟩
  · split
    · obtain ⟨him, -⟩ := h
      exact ⟨_, _, fun _ => if_pos him⟩
    · exact numericStep_of_allMasked h rm x y z

/-- R149, R133: masked, FNMAdd64 is one value whatever the free value. -/
theorem fnmadd64_of_allMasked (x y z : Word) (rm : RoundingMode) :
    ∃ r f, ∀ pe, fnmadd64 x y z rm ctl pe = .value r f :=
  fnmaddRead_of_allMasked h rm _ _ _

end

/-! ## What each form computes (R160, R170) -/

/-- An instruction that completes with each value of FNMAdd64 computes it: the masked case is FNMAdd64's own. -/
theorem Computes.of_completes {i : Instr} {x y z : Word} {rm : RoundingMode} {ctl : FpControl}
    {keep : FpFlags → FpFlags} {s : State}
    (h : ∀ r f, fnmadd64 x y z rm ctl (Config.drawTrapPE s.draws) = .value r f →
      exec i s = .next (s.completed (destOf i) r (keep f) i.length)) :
    Computes i x y z rm ctl keep s := by
  refine ⟨fun r f hr => ⟨_, h r f hr, s.completed_completion _ _ _ _⟩, fun hm => ?_⟩
  obtain ⟨r, f, hv⟩ := fnmadd64_of_allMasked hm x y z rm
  exact ⟨r, f, hv _⟩

theorem computes_vex {o : VexOperands} {s : State} {c : Word} (hs : s.Ready .vex) (hc : VexOperand3 o c s)
    (ord : FmaOrder) :
    let p := roles ord (s.low (vexReg o.dst)) (s.low (vexReg o.src2)) c
    Computes (ord.vex o) p.x p.y p.z (mxcsrRounding s.mxcsr) (mxcsrControl s.mxcsr) id s :=
  .of_completes fun r f hr => by
    rw [exec_vex, destOf_vex, length_vex]
    exact execVex_of_value hs hc.read hr

theorem computes_evex {o : EvexOperands} {s : State} {c : Word} (hs : s.Ready .evex) (hc : EvexOperand3 o c s)
    (hm : maskBit o s = true) (ord : FmaOrder) :
    let p := roles ord (s.low o.dst) (s.low o.src2) c
    Computes (ord.evex o) p.x p.y p.z (evexRounding o s) (evexControl o s) (evexFlags o) s :=
  .of_completes fun r f hr => by
    rw [exec_evex, destOf_evex, length_evex]
    exact execEvex_of_value hs hc.read hm hr

/-- R171, R172: without embedded rounding an EVEX form takes rounding mode and controls from MXCSR and reports every
flag. -/
theorem computes_evex_of_no_rounding {o : EvexOperands} {s : State} {c : Word} (hs : s.Ready .evex)
    (hc : EvexOperand3 o c s) (hm : maskBit o s = true) (he : embeddedRounding o = none) (ord : FmaOrder) :
    let p := roles ord (s.low o.dst) (s.low o.src2) c
    Computes (ord.evex o) p.x p.y p.z (mxcsrRounding s.mxcsr) (mxcsrControl s.mxcsr) id s := by
  have hrm : evexRounding o s = mxcsrRounding s.mxcsr := by simp only [evexRounding, he]
  have hctl : evexControl o s = mxcsrControl s.mxcsr := by simp only [evexControl, he]
  have hflags : evexFlags o = id := by
    funext f
    simp only [evexFlags, he, id]
  rw [← hrm, ← hctl, ← hflags]
  exact computes_evex hs hc hm ord

/-- Settles O19: R161, R162 and R163 are R160 with the operands in the order of R124. -/
theorem vexFormsComplete : Obligations.VexFormsComplete := by
  intro o s c hs hc
  have h := computes_vex hs hc
  exact ⟨h .o132, h .o213, h .o231⟩

/-- Settles O20: R175, R176 and R177 are R170 with the operands in the order of R124. -/
theorem evexFormsComplete : Obligations.EvexFormsComplete := by
  intro o s c hs hc hm he
  have h := computes_evex_of_no_rounding hs hc ((maskBit_eq_true_iff o s).mpr hm) he
  exact ⟨h .o132, h .o213, h .o231⟩

/-- Settles O22: masked off, the old element or 0 is delivered with no flag. -/
theorem maskedOffCompletes : Obligations.MaskedOffCompletes := by
  intro ord o s c hs hc hmask hbit
  have hm : maskBit o s = false := by rw [maskBit_of_mask hmask, hbit]
  refine ⟨_, ?_, ?_, s.completed_completion o.dst (if o.zeroing then 0 else s.low o.dst) {} o.length⟩
  · rw [exec_evex]
    exact execEvex_of_maskedOff hs hc.read hm
  · exact orFlags_none s.mxcsr

/-! ## Changes of state that no operand read sees -/

/-- A fault with another view of the state an exception carries: `onStates` on faults. -/
def onFault (g : State → State) : Fault → Fault
  | .exception x t => .exception x (g t)
  | .outsideLaunchMemory la => .outsideLaunchMemory la

theorem onStates_fault (g : State → State) (f : Fault) : onStates g (.fault f) = .fault (onFault g f) := by
  cases f <;> rfl

/-- A change of state that no operand read sees (R55): all that the read depends on stays, and the change commutes with
what raising an exception does to the state. -/
structure OperandBlind (g : State → State) : Prop where
  translate : ∀ s, (g s).translate = s.translate
  canonicalOperand : ∀ s, (g s).canonicalOperand = s.canonicalOperand
  misaligned : ∀ s, (g s).misaligned = s.misaligned
  mem : ∀ s, (g s).mem = s.mem
  draws : ∀ s, (g s).draws = s.draws
  consumeDraw : ∀ s, (g s).consumeDraw = g s.consumeDraw
  record : ∀ x s, Exception.record x (g s) = g (x.record s)

section
variable {g : State → State} (hg : OperandBlind g) (s : State)
include hg

theorem OperandBlind.faultOf (x : Exception) : faultOf x (g s) = onFault g (faultOf x s) :=
  congrArg (Fault.exception x) (hg.record x s)

theorem OperandBlind.raise (x : Exception) : raise x (g s) = onStates g (raise x s) :=
  congrArg Host.Outcome.fault (hg.faultOf s x)

theorem OperandBlind.byteAt (la : Word) (access : Access) :
    byteAt la access (g s) = (byteAt la access s).mapError (onFault g) := by
  unfold Machine.byteAt
  rw [hg.translate, hg.mem]
  split
  · exact congrArg Except.error (hg.faultOf s _)
  · split <;> rfl

theorem OperandBlind.bytesAt (access : Access) (as : List Word) :
    bytesAt access (g s) as = (bytesAt access s as).mapError (onFault g) := by
  induction as with
  | nil => rfl
  | cons a as ih =>
    unfold Machine.bytesAt
    rw [hg.byteAt, ih]
    cases Machine.byteAt a access s with
    | error f => rfl
    | ok b => cases Machine.bytesAt access s as <;> rfl

theorem OperandBlind.firstDenied (as : List Word) : (g s).firstDenied as = s.firstDenied as := by
  induction as with
  | nil => rfl
  | cons a as ih => simp only [State.firstDenied, hg.translate, ih]

theorem OperandBlind.pageFault (la : Word) : (g s).pageFault la = s.pageFault la := by
  simp only [State.pageFault, State.pageFaults, hg.firstDenied, hg.draws]

theorem OperandBlind.accessFault (la : Word) :
    accessFault la (g s) = (accessFault la s).map (onFault g) := by
  unfold Machine.accessFault
  rw [hg.pageFault, hg.misaligned, hg.draws, hg.consumeDraw]
  split
  · rfl
  · exact congrArg some (hg.faultOf s _)
  · rename_i drawn _ _
    cases drawn <;> exact congrArg some (hg.faultOf _ _)
  · split <;> exact congrArg some (hg.faultOf _ _)

theorem OperandBlind.memRead (la : Word) (stack : Bool) :
    memRead la stack (g s) = (memRead la stack s).mapError (onFault g) := by
  unfold Machine.memRead
  rw [hg.canonicalOperand, hg.accessFault, hg.bytesAt]
  split
  · cases Machine.accessFault la s with
    | some f => rfl
    | none => cases Machine.bytesAt .dataRead s (operandAddrs la) <;> rfl
  · exact congrArg Except.error (hg.faultOf s _)

end

/-! ## Other opmask registers (R30) -/

/-- The state with other opmask registers. -/
def State.withKreg (k : Vector (BitVec 64) 8) (s : State) : State := { s with kreg := k }

theorem OperandBlind.withKreg (k : Vector (BitVec 64) 8) : OperandBlind (State.withKreg k) where
  translate _ := rfl
  canonicalOperand _ := rfl
  misaligned _ := rfl
  mem _ := rfl
  draws _ := rfl
  consumeDraw _ := rfl
  record x _ := by cases x <;> rfl

theorem readEvexSrc3_withKreg (k : Vector (BitVec 64) 8) (s : State) (o : EvexOperands) :
    readEvexSrc3 o (s.withKreg k) = (readEvexSrc3 o s).mapError (onFault (State.withKreg k)) := by
  unfold readEvexSrc3
  split
  · rfl
  · exact (OperandBlind.withKreg k).memRead s _ _

/-- R30: the mask bit is all that an EVEX form reads of the opmask registers. -/
theorem execEvex_withKreg {k : Vector (BitVec 64) 8} {s : State} {o : EvexOperands}
    (hm : maskBit o (s.withKreg k) = maskBit o s) (ord : FmaOrder) :
    execEvex ord o (s.withKreg k) = onStates (State.withKreg k) (execEvex ord o s) := by
  have hs : (s.withKreg k).scopeRefusal = s.scopeRefusal := rfl
  have he : (s.withKreg k).enableFault .evex = s.enableFault .evex := rfl
  have hr (c : Word) : evexResult ord o c (s.withKreg k) = evexResult ord o c s := rfl
  unfold execEvex
  rw [hs, he, readEvexSrc3_withKreg, hm]
  cases s.scopeRefusal with
  | some r => rfl
  | none =>
    cases s.enableFault .evex with
    | some x => exact (OperandBlind.withKreg k).raise s x
    | none =>
      cases readEvexSrc3 o s with
      | error f => exact (onStates_fault _ f).symm
      | ok c =>
        cases maskBit o s with
        | false => rfl
        | true =>
          simp only [Except.mapError, hr, if_true]
          cases evexResult ord o c s with
          | trap f => exact (OperandBlind.withKreg k).raise (s.trapped f) _
          | value r f => rfl

/-- Opmask registers that agree on bit 0 of the one aaa names give one mask bit. -/
theorem maskBit_withKreg {k : Vector (BitVec 64) 8} {s : State} {o : EvexOperands}
    (h : o.mask ≠ 0#3 → (s.withKreg k).kregAt o.mask &&& 1 = s.kregAt o.mask &&& 1) :
    maskBit o (s.withKreg k) = maskBit o s := by
  by_cases hmask : o.mask = 0#3
  · rw [maskBit_of_no_mask hmask, maskBit_of_no_mask hmask]
  · have hbit := congrArg (BitVec.getLsbD · 0) (h hmask)
    rw [maskBit_of_mask hmask, maskBit_of_mask hmask]
    simpa using hbit

/-- Settles O24: an EVEX form reads the opmask registers through its mask bit alone. -/
theorem maskReadsOneBit : Obligations.MaskReadsOneBit := by
  intro ord o s k h
  refine ⟨?_, fun hmask => maskBit_of_no_mask hmask s⟩
  rw [exec_evex, exec_evex]
  exact execEvex_withKreg (maskBit_withKreg h) ord

/-! ## What one instruction changes and leaves (R27, R36) -/

/-- Settles O25: an instruction that answers next has completed, which writes one vector register, flags and `pc`. -/
theorem instructionFrame : Obligations.InstructionFrame := by
  intro i s t h
  obtain ⟨-, -, -, r, f, -, rfl⟩ := exec_next h
  exact ⟨fun n => State.completed_gprAt _ _ _ _ _ n, fun n hn => State.completed_vregAt_other _ _ _ _ _ hn,
    fun n => State.completed_kregAt _ _ _ _ _ n, rfl, rfl, rfl, rfl, rfl, rfl, rfl, rfl, rfl, rfl, rfl, rfl, rfl, rfl,
    rfl, orFlags_keeps s.mxcsr f, orFlags_sticky s.mxcsr f, fun _ => rfl⟩

/-- Settles O26: the element delivered is the one read back, and what is raised is raised with the old registers. -/
theorem destinationRanges : Obligations.DestinationRanges := by
  refine ⟨fun i s t h => ?_, fun ord o s t h => ?_, fun ord o s t h => ?_, fun i s t x h => ?_⟩
  · obtain ⟨-, -, -, r, f, -, rfl⟩ := exec_next h
    have hc := s.completed_completion (destOf i) r f i.length
    exact ⟨hc.high, hc.upper⟩
  · rw [exec_vex] at h
    obtain ⟨-, -, c, r, f, hread, hr, rfl⟩ := execVex_next h
    rw [State.completed_low]
    exact ⟨c, f, hread, hr⟩
  · rw [exec_evex] at h
    obtain ⟨-, -, c, r, f, hread, hd, rfl⟩ := execEvex_next h
    rw [State.completed_low]
    obtain ⟨hm, g, hr, -⟩ | ⟨hm, hr, -⟩ := hd
    · exact ⟨c, hread, .inl ⟨hm, g, hr⟩⟩
    · exact ⟨c, hread, .inr ⟨hm, hr⟩⟩
  · obtain ⟨u, hu, rfl⟩ := exec_exception h
    rw [Exception.record_vreg, hu.vreg]

/-! ## Reset (R38, R240 to R242) -/

/-- R38: every general register is 0 but RDX, which holds the processor signature. -/
theorem State.reset_gprAt {n : GprNum} (h : n ≠ 2#4) : State.reset.gprAt n = 0 := by
  have hn : (2 : Nat) ≠ n.toNat := fun e => h (BitVec.eq_of_toNat_eq e.symm)
  simp [State.gprAt, State.reset, Vector.getElem_set_ne, hn]

/-- Settles O1: the registers one by one, the other fields by `State.reset` itself. -/
theorem resetState : Obligations.ResetState :=
  ⟨rfl, State.reset_vregAt, State.reset_kregAt, fun _ => State.reset_gprAt, rfl, rfl, rfl, rfl, rfl, rfl, rfl, rfl, rfl,
    rfl, rfl⟩

end Sys2Proof.Machine

/-! The proofs of the family 20_memory: where an operand's bytes lie, how they are read, what faults a read or a fetch
raises, and how program text gets to where it is fetched. -/

namespace Sys2Proof.Machine

/-! ## Canonical addresses (R57) -/

theorem signExtend_setWidth_eq_self_iff {n : Nat} (hn : 0 < n) (a : Word) :
    (a.setWidth n).signExtend 64 = a ↔ ∀ j, n - 1 ≤ j → j < 64 → a.getLsbD j = a.getLsbD (n - 1) := by
  have hmsb : (a.setWidth n).msb = a.getLsbD (n - 1) := by
    simp [BitVec.msb_eq_getLsbD_last, show n - 1 < n by omega]
  constructor
  · intro h j hj hlt
    by_cases hjn : j < n
    · rw [show j = n - 1 by omega]
    · calc
        a.getLsbD j = ((a.setWidth n).signExtend 64).getLsbD j := by rw [h]
        _ = a.getLsbD (n - 1) := by
          simp only [BitVec.getLsbD_signExtend, hlt, hjn, hmsb, decide_true, Bool.true_and, if_false]
  · intro h
    apply BitVec.eq_of_getLsbD_eq
    intro j hlt
    rw [BitVec.getLsbD_signExtend, BitVec.getLsbD_setWidth, hmsb]
    by_cases hjn : j < n
    · simp only [hlt, hjn, decide_true, Bool.true_and, if_true]
    · simp only [hlt, hjn, h j (by omega) hlt, decide_true, Bool.true_and, if_false]

/-- Sign extension of the low 48 bits keeps exactly the integers from `-2^47` to `2^47 - 1`. -/
theorem signExtend_setWidth_48_eq_self_iff (a : Word) :
    (a.setWidth 48).signExtend 64 = a ↔ a.toNat < 0x0000800000000000 ∨ 0xFFFF800000000000 ≤ a.toNat := by
  rw [← BitVec.toInt_inj, BitVec.toInt_signExtend_of_le (by decide), BitVec.toInt_setWidth, BitVec.toInt_eq_toNat_cond,
    Int.bmod_def]
  omega

theorem State.canonical_iff (s : State) (a : Word) :
    s.canonical a = true ↔ (a.setWidth s.params.vaBits.bits).signExtend 64 = a := beq_iff_eq

/-- Settles O45: bit by bit, sign extension from bit VA_BITS - 1; with 48 bits, as integers. -/
theorem canonicalAddress : Obligations.CanonicalAddress := by
  intro s a
  refine ⟨?_, fun h48 => ?_⟩
  · have hpos : 0 < s.params.vaBits.bits := by cases s.params.vaBits <;> decide
    rw [s.canonical_iff, signExtend_setWidth_eq_self_iff hpos]
  · rw [s.canonical_iff, h48]
    exact signExtend_setWidth_48_eq_self_iff a

/-! ## Segment overrides (R54, R58, R79) -/

theorem segOverride_append (ps qs : List LegacyPrefix) :
    segOverride (ps ++ qs) = (segOverride qs).or (segOverride ps) := by
  induction ps with
  | nil => simp [segOverride]
  | cons p ps ih => simp only [List.cons_append, segOverride, ih, Option.or_assoc]

theorem prefixSegment_eq_none_iff (p : LegacyPrefix) : prefixSegment p = none ↔ p ≠ .fs ∧ p ≠ .gs := by
  cases p <;> simp [prefixSegment]

theorem segOverride_eq_none_iff (ps : List LegacyPrefix) : segOverride ps = none ↔ .fs ∉ ps ∧ .gs ∉ ps := by
  induction ps with
  | nil => simp [segOverride]
  | cons p ps ih =>
    rw [segOverride, Option.or_eq_none_iff, ih, prefixSegment_eq_none_iff, List.mem_cons, List.mem_cons, not_or, not_or]
    simp only [eq_comm, ne_eq]
    tauto

/-- R79: the last override wins. -/
theorem segOverride_of_last {p : LegacyPrefix} {seg : SegOverride} (hp : prefixSegment p = some seg)
    {rest : List LegacyPrefix} (hrest : segOverride rest = none) (pfx : List LegacyPrefix) :
    segOverride (pfx ++ p :: rest) = some seg := by
  simp only [segOverride_append, segOverride, hrest, hp, Option.none_or, Option.some_or]

/-- Settles O43: the linear address adds the base of the override that wins. -/
theorem segmentOverride : Obligations.SegmentOverride := by
  intro pfx rest n8 len a s hfs hgs
  have hrest : segOverride rest = none := (segOverride_eq_none_iff rest).mpr ⟨hfs, hgs⟩
  have hlast {p seg} (hp : prefixSegment p = some seg) := segOverride_of_last hp hrest pfx
  refine ⟨?_, ?_, ?_⟩
  · rw [linearAddr, hlast (p := .fs) rfl, State.segBase]
  · rw [linearAddr, hlast (p := .gs) rfl, State.segBase]
  · rw [linearAddr, hrest, State.segBase]
    exact BitVec.zero_add _

theorem stackBase_iff (a : MemAddr) :
    MemAddr.stackBase a = true ↔
      ∃ b, (b = 4#4 ∨ b = 5#4) ∧ ((∃ d, a = .base b d) ∨ ∃ n sc d, a = .sib b n sc d) := by
  cases a <;> simp [MemAddr.stackBase]

theorem stackAccess_iff (pfx : List LegacyPrefix) (a : MemAddr) :
    stackAccess pfx a = true ↔ segOverride pfx = none ∧ MemAddr.stackBase a = true := by
  rw [stackAccess, Bool.and_eq_true, Option.isNone_iff_eq_none]

/-! ## A memory form's operand 3 -/

/-- R54, R55: a memory form's operand 3 is the read at its linear address. -/
theorem src3Of_of_memOf {i : Instr} {a : MemAddr} (h : memOf i = some a) (s : State) :
    src3Of s i = memRead (linearAddrOf i a s) (stackAccess i.pfx a) s := by
  have vex : ∀ {o : VexOperands}, memOf.vexMem o = some a →
      readVexSrc3 o s = memRead (linearAddr o.pfx 1 o.length a s) (stackAccess o.pfx a) s := by
    intro o ho
    cases h3 : o.src3 with
    | reg n => simp only [memOf.vexMem, h3, reduceCtorEq] at ho
    | mem b =>
      simp only [memOf.vexMem, h3, Option.some.injEq] at ho
      simp only [readVexSrc3, h3, ho, memOperand]
  have evex : ∀ {o : EvexOperands}, memOf.evexMem o = some a →
      readEvexSrc3 o s = memRead (linearAddr o.pfx 8 o.length a s) (stackAccess o.pfx a) s := by
    intro o ho
    cases h3 : o.src3 with
    | reg n er => simp only [memOf.evexMem, h3, reduceCtorEq] at ho
    | mem b bc =>
      simp only [memOf.evexMem, h3, Option.some.injEq] at ho
      simp only [readEvexSrc3, h3, ho, memOperand]
  cases i with
  | vfnmadd132sdVex o => exact vex h
  | vfnmadd213sdVex o => exact vex h
  | vfnmadd231sdVex o => exact vex h
  | vfnmadd132sdEvex o => exact evex h
  | vfnmadd213sdEvex o => exact evex h
  | vfnmadd231sdEvex o => exact evex h

theorem execVex_of_readError {o : VexOperands} {s : State} {f : Fault} (hs : s.Ready .vex)
    (h : readVexSrc3 o s = .error f) (ord : FmaOrder) : execVex ord o s = .fault f := by
  simp only [execVex, hs.scope, hs.enableFault, h]

theorem execEvex_of_readError {o : EvexOperands} {s : State} {f : Fault} (hs : s.Ready .evex)
    (h : readEvexSrc3 o s = .error f) (ord : FmaOrder) : execEvex ord o s = .fault f := by
  simp only [execEvex, hs.scope, hs.enableFault, h]

/-- R210: in a ready state what stops operand 3 stops the instruction. -/
theorem exec_of_src3Error {i : Instr} {s : State} {f : Fault} (hs : s.Ready (kindOf i)) (h : src3Of s i = .error f) :
    exec i s = .fault f := by
  cases i with
  | vfnmadd132sdVex o => exact execVex_of_readError hs h .o132
  | vfnmadd213sdVex o => exact execVex_of_readError hs h .o213
  | vfnmadd231sdVex o => exact execVex_of_readError hs h .o231
  | vfnmadd132sdEvex o => exact execEvex_of_readError hs h .o132
  | vfnmadd213sdEvex o => exact execEvex_of_readError hs h .o213
  | vfnmadd231sdEvex o => exact execEvex_of_readError hs h .o231

theorem exec_of_memReadError {i : Instr} {a : MemAddr} {s : State} {f : Fault} (hs : s.Ready (kindOf i))
    (hm : memOf i = some a) (h : memRead (linearAddrOf i a s) (stackAccess i.pfx a) s = .error f) :
    exec i s = .fault f :=
  exec_of_src3Error hs ((src3Of_of_memOf hm s).trans h)

/-! ## #SS(0) and #GP(0) of an operand (R55 step 1, R58) -/

theorem State.canonicalOperand_iff (s : State) (la : Word) :
    s.canonicalOperand la = true ↔
      la.toNat + 7 < 2 ^ 64 ∧ ∀ k : Fin 8, s.canonical (la + BitVec.ofNat 64 k) = true := by
  rw [State.canonicalOperand, Bool.and_eq_true, decide_eq_true_eq, List.all_eq_true, operandAddrs_eq_ofFn,
    List.forall_mem_ofFn_iff]

/-- R58: the kind of segment is read for the exception of a non-canonical operand alone. -/
theorem memRead_stack {la : Word} {s : State} (h : s.canonicalOperand la = true) (stack stack' : Bool) :
    memRead la stack s = memRead la stack' s := by
  rw [memRead, memRead, if_pos h, if_pos h]

/-- Settles O37: the canonical check comes first and alone reads the kind of segment. -/
theorem stackSegmentAccess : Obligations.StackSegmentAccess := by
  refine ⟨fun pfx a => ?_, fun i a s hs hm hbad => ?_, fun la s hlt hk => ?_⟩
  · rw [stackAccess_iff, segOverride_eq_none_iff, stackBase_iff, and_assoc]
  · have hc : s.canonicalOperand (linearAddrOf i a s) = false := by
      rw [Bool.eq_false_iff, ne_eq, s.canonicalOperand_iff]
      rintro ⟨hlt, hall⟩
      obtain hge | ⟨k, hk⟩ := hbad
      · omega
      · exact Bool.false_ne_true (hk.symm.trans (hall k))
    rw [exec_of_memReadError hs hm (memRead_noncanonical hc)]
    cases stackAccess i.pfx a <;> rfl
  · exact memRead_stack ((s.canonicalOperand_iff la).mpr ⟨hlt, hk⟩) true false

/-! ## The bytes of an operand (R52) -/

theorem byteAt_ok {la : Word} {access : Access} {s : State} {b : Byte} (h : byteAt la access s = .ok b) :
    ∃ loc, s.translate la access = .ok loc ∧ Memory.read s.mem loc.toNat = some b := by
  unfold byteAt at h
  split at h
  · cases h
  · rename_i loc hloc
    split at h
    · cases h
    · rename_i c hc
      cases h
      exact ⟨loc, hloc, hc⟩

/-- The bytes read at several addresses are the bytes read at each. -/
theorem bytesAt_ofFn_ok {s : State} {access : Access} {n : Nat} {a : Fin n → Word} {bs : List Byte}
    (h : bytesAt access s (List.ofFn a) = .ok bs) :
    ∃ b : Fin n → Byte, bs = List.ofFn b ∧ ∀ k, byteAt (a k) access s = .ok (b k) := by
  induction n generalizing bs with
  | zero =>
    rw [List.ofFn_zero, bytesAt] at h
    cases h
    exact ⟨Fin.elim0, rfl, fun k => k.elim0⟩
  | succ n ih =>
    rw [List.ofFn_succ, bytesAt] at h
    split at h
    · cases h
    · rename_i b0 hb0
      split at h
      · cases h
      · rename_i bs hbs
        cases h
        obtain ⟨b, rfl, hb⟩ := ih hbs
        exact ⟨Fin.cons b0 b, (List.ofFn_cons b0 b).symm, Fin.cases hb0 hb⟩

/-- R52: byte `k` of the assembled word. -/
theorem leWord_extractLsb' {bs : List Byte} {k : Nat} (hlen : bs.length ≤ 8) (hk : k < bs.length) :
    (leWord bs).extractLsb' (8 * k) 8 = bs[k] := by
  induction bs generalizing k with
  | nil => cases hk
  | cons b bs ih =>
    rw [List.length_cons] at hlen hk
    apply BitVec.eq_of_getLsbD_eq
    intro i hi
    simp only [leWord, BitVec.getLsbD_extractLsb', BitVec.getLsbD_or, BitVec.getLsbD_shiftLeft, BitVec.getLsbD_setWidth,
      hi, show 8 * k + i < 64 by omega, decide_true, Bool.true_and]
    cases k with
    | zero => simp [hi]
    | succ k =>
      have hrest := congrArg (BitVec.getLsbD · i) (ih (k := k) (by omega) (by omega))
      simp only [BitVec.getLsbD_extractLsb', hi, decide_true, Bool.true_and] at hrest
      have hfirst : b.getLsbD (8 * (k + 1) + i) = false := BitVec.getLsbD_of_ge b _ (by omega)
      simp only [hfirst, show ¬ 8 * (k + 1) + i < 8 by omega, show 8 * (k + 1) + i - 8 = 8 * k + i by omega, hrest,
        decide_false, Bool.not_false, Bool.true_and, Bool.or_false, List.getElem_cons_succ]

theorem leWord_ofFn_extractLsb' (b : Fin 8 → Byte) (k : Fin 8) :
    (leWord (List.ofFn b)).extractLsb' (8 * k) 8 = b k := by
  rw [leWord_extractLsb' (by simp) (by simp), List.getElem_ofFn]

/-- Settles O36: the word is assembled from the bytes at the 8 addresses, and taken apart again. -/
theorem operandBytesLittleEndian : Obligations.OperandBytesLittleEndian := by
  refine ⟨fun s la stack w h k => ?_, fun s la stack b h => ?_⟩
  · obtain ⟨-, -, bs, hbs, rfl⟩ := memRead_ok h
    rw [operandAddrs_eq_ofFn] at hbs
    obtain ⟨b, rfl, hb⟩ := bytesAt_ofFn_ok hbs
    rw [leWord_ofFn_extractLsb']
    exact byteAt_ok (hb k)
  · exact ⟨_, h.memRead stack, leWord_ofFn_extractLsb' b⟩

/-! ## #PF of an operand (R55 step 3, R63) -/

theorem State.translate_error {s : State} {la : Word} {access : Access} {code : BitVec 32}
    (h : s.translate la access = .error code) : ∃ raw, code = pfErrorCode raw access s.cpl := by
  unfold State.translate at h
  split at h
  · cases h
    exact ⟨_, rfl⟩
  · split at h
    · cases h
    · cases h
      exact ⟨_, rfl⟩

/-- R63: W/R is 0, and U/S tells CPL 3. -/
theorem State.translate_error_bits {s : State} {la : Word} {access : Access} {code : BitVec 32}
    (h : s.translate la access = .error code) :
    code.getLsbD 1 = false ∧ (code.getLsbD 2 = true ↔ s.cpl = 3#2) := by
  obtain ⟨raw, rfl⟩ := State.translate_error h
  by_cases h3 : s.cpl = 3#2 <;> cases access <;> simp [pfErrorCode, h3]

/-- R63: I/D is 0 for a data read. -/
theorem State.translate_dataRead_error_bit4 {s : State} {la : Word} {code : BitVec 32}
    (h : s.translate la .dataRead = .error code) : code.getLsbD 4 = false := by
  obtain ⟨raw, rfl⟩ := State.translate_error h
  by_cases h3 : s.cpl = 3#2 <;> simp [pfErrorCode, h3]

/-- Everything that no denied address among some says: all of them translate. -/
theorem State.firstDenied_none {s : State} {as : List Word} (h : s.firstDenied as = none) :
    ∀ a ∈ as, ∃ loc, s.translate a .dataRead = .ok loc := by
  induction as with
  | nil => exact List.forall_mem_nil _
  | cons a as ih =>
    rw [State.firstDenied] at h
    split at h
    · cases h
    · rename_i loc hloc
      exact List.forall_mem_cons.mpr ⟨⟨loc, hloc⟩, ih h⟩

/-- The first denied of the addresses that pass a test: those before it that pass translate. -/
theorem State.firstDenied_filter_ofFn {s : State} {p : Word → Bool} {n : Nat} {a : Fin n → Word}
    {code : BitVec 32} {x : Word} (h : s.firstDenied ((List.ofFn a).filter p) = some (code, x)) :
    ∃ k, x = a k ∧ p (a k) = true ∧ s.translate (a k) .dataRead = .error code ∧
      ∀ j, j < k → p (a j) = true → ∃ loc, s.translate (a j) .dataRead = .ok loc := by
  induction n with
  | zero => cases h
  | succ n ih =>
    have later (h : s.firstDenied ((List.ofFn fun k : Fin n => a k.succ).filter p) = some (code, x))
        (h0 : p (a 0) = true → ∃ loc, s.translate (a 0) .dataRead = .ok loc) :
        ∃ k, x = a k ∧ p (a k) = true ∧ s.translate (a k) .dataRead = .error code ∧
          ∀ j, j < k → p (a j) = true → ∃ loc, s.translate (a j) .dataRead = .ok loc := by
      obtain ⟨k, hx, hp, hk, hbefore⟩ := ih h
      exact ⟨k.succ, hx, hp, hk, Fin.cases (fun _ => h0) fun j hj => hbefore j (Fin.succ_lt_succ_iff.mp hj)⟩
    rw [List.ofFn_succ, List.filter_cons] at h
    split at h
    · rename_i hp
      rw [State.firstDenied] at h
      split at h
      · rename_i code' hcode
        cases h
        exact ⟨0, rfl, hp, hcode, fun j hj => absurd hj (Fin.not_lt_zero j)⟩
      · rename_i loc hloc
        exact later h fun _ => ⟨loc, hloc⟩
    · rename_i hp
      exact later h fun hp' => absurd hp' hp

theorem samePage_iff (a b : Word) :
    samePage a b = true ↔ a.toNat / Config.pageSize = b.toNat / Config.pageSize := beq_iff_eq

/-- Addresses of one page are alike in being on the page of `la`. -/
theorem samePage_congr {a b : Word} (h : samePage a b = true) (la : Word) : samePage la a = samePage la b := by
  rw [samePage, samePage, (samePage_iff a b).mp h]

/-- Byte `k` of the operand at `la` is denied with `code`, and of its page it is the first byte that is. -/
def State.FirstDeniedOfPage (s : State) (la : Word) (k : Fin 8) (code : BitVec 32) : Prop :=
  s.translate (la + BitVec.ofNat 64 k) .dataRead = .error code ∧
    ∀ j : Fin 8, j < k → samePage (la + BitVec.ofNat 64 j) (la + BitVec.ofNat 64 k) = true →
      ∃ loc, s.translate (la + BitVec.ofNat 64 j) .dataRead = .ok loc

/-- The first denied byte among those of whole pages is the first of its own page. -/
theorem State.firstDeniedOfPage_of_filter {s : State} {la : Word} {p : Word → Bool} {code : BitVec 32} {x : Word}
    (hp : ∀ a b, samePage a b = true → p a = p b)
    (h : s.firstDenied ((operandAddrs la).filter p) = some (code, x)) :
    ∃ k : Fin 8, x = la + BitVec.ofNat 64 k ∧ s.FirstDeniedOfPage la k code := by
  rw [operandAddrs_eq_ofFn] at h
  obtain ⟨k, hx, hk, hcode, hbefore⟩ := State.firstDenied_filter_ofFn h
  exact ⟨k, hx, hcode, fun j hj hpage => hbefore j hj ((hp _ _ hpage).trans hk)⟩

/-- R55 step 3: the page fault reported is that of the first denied byte of a page. -/
theorem State.pageFault_some {s : State} {la : Word} {code : BitVec 32} {x : Word} {drawn : Bool}
    (h : s.pageFault la = some (code, x, drawn)) :
    ∃ k : Fin 8, x = la + BitVec.ofNat 64 k ∧ s.FirstDeniedOfPage la k code := by
  have low {q} (hq : s.firstDenied ((operandAddrs la).filter (samePage la)) = some q) :
      ∃ k : Fin 8, q.2 = la + BitVec.ofNat 64 k ∧ s.FirstDeniedOfPage la k q.1 :=
    State.firstDeniedOfPage_of_filter (fun a b hab => samePage_congr hab la) hq
  have high {q} (hq : s.firstDenied ((operandAddrs la).filter fun a => !samePage la a) = some q) :
      ∃ k : Fin 8, q.2 = la + BitVec.ofNat 64 k ∧ s.FirstDeniedOfPage la k q.1 :=
    State.firstDeniedOfPage_of_filter (fun a b hab => congrArg Bool.not (samePage_congr hab la)) hq
  unfold State.pageFault State.pageFaults at h
  split at h
  · cases h
  · rename_i lo heq
    cases h
    exact low (Prod.ext_iff.mp heq).1
  · rename_i hi heq
    cases h
    exact high (Prod.ext_iff.mp heq).2
  · rename_i lo hi heq
    split at h
    · cases h
      exact high (Prod.ext_iff.mp heq).2
    · cases h
      exact low (Prod.ext_iff.mp heq).1

/-- R55 step 3: with no page fault every byte of the operand translates. -/
theorem State.translate_of_pageFault_none {s : State} {la : Word} (h : s.pageFault la = none) (k : Fin 8) :
    ∃ loc, s.translate (la + BitVec.ofNat 64 k) .dataRead = .ok loc := by
  have hmem : la + BitVec.ofNat 64 k ∈ operandAddrs la := by
    rw [operandAddrs_eq_ofFn, List.mem_ofFn]
    exact ⟨k, rfl⟩
  unfold State.pageFault State.pageFaults at h
  split at h
  · rename_i heq
    obtain ⟨hlow, hhigh⟩ := Prod.ext_iff.mp heq
    by_cases hp : samePage la (la + BitVec.ofNat 64 k) = true
    · exact State.firstDenied_none hlow _ (List.mem_filter.mpr ⟨hmem, hp⟩)
    · exact State.firstDenied_none hhigh _ (List.mem_filter.mpr ⟨hmem, by simpa using hp⟩)
  · cases h
  · cases h
  · split at h <;> cases h

theorem accessFault_of_pageFault {s : State} {la : Word} {code : BitVec 32} {x : Word} {drawn : Bool}
    (hm : s.misaligned la = false) (h : s.pageFault la = some (code, x, drawn)) :
    accessFault la s = some (faultOf (.pf code x) (if drawn then s.consumeDraw else s)) := by
  simp only [accessFault, h, hm]

theorem memRead_of_accessFault {s : State} {la : Word} {f : Fault} (hc : s.canonicalOperand la = true)
    (h : accessFault la s = some f) (stack : Bool) : memRead la stack s = .error f := by
  simp only [memRead, hc, if_true, h]

/-- Settles O38: with a denied byte there is a page fault, and it is that of the first denied byte of its page. -/
theorem operandPageFault : Obligations.OperandPageFault := by
  intro i a s hs hm la hc haligned ⟨k, code, hk⟩
  cases hpf : s.pageFault la with
  | none =>
    obtain ⟨loc, hloc⟩ := State.translate_of_pageFault_none hpf k
    cases hk.symm.trans hloc
  | some q =>
    obtain ⟨code, x, drawn⟩ := q
    obtain ⟨k, rfl, hcode, hfirst⟩ := State.pageFault_some hpf
    have hf := accessFault_of_pageFault haligned hpf
    obtain ⟨hwr, hus⟩ := State.translate_error_bits hcode
    refine ⟨k, code, _, hcode, hfirst, exec_of_memReadError hs hm (memRead_of_accessFault hc hf _), ?_, hwr,
      State.translate_dataRead_error_bit4 hcode, hus⟩
    cases drawn <;> rfl

/-! ## The instruction fetch (R53, R210) -/

/-- R210 item 1: text that ends before the instruction does stops the step with the fault of the next byte. -/
theorem step_of_stop {s : State} {bs : List Byte} {f : Fault} (hs : s.scopeRefusal = none) (ht : TextAt s bs)
    (hd : decode bs = .truncated) (hf : fetchByte bs.length s = .error f) : step s = .fault f := by
  have hw := fetchWindow_of_stop (decode_truncated_length hd) ht hf
  simp only [step, hs, hw, hd, fetchStop]

theorem fetchByte_zero_of_denied {s : State} {code : BitVec 32} (hc : s.canonical s.pc = true)
    (h : s.translate s.pc .fetch = .error code) : fetchByte 0 s = .error (faultOf (.pf code s.pc) s) := by
  have hpc : s.pc + BitVec.ofNat 64 0 = s.pc := BitVec.add_zero s.pc
  simp only [fetchByte, hpc, hc, Nat.add_zero, s.pc.isLt, and_self, if_true, byteAt, h]

/-- Settles O17: the window ends before the first byte that cannot be fetched, and at `pc` that byte is the first. -/
theorem fetchFaults : Obligations.FetchFaults := by
  refine fun s hs => ⟨fun bs f => step_of_stop hs, step_of_noncanonical_pc hs, fun code hc h => ⟨?_, ?_⟩⟩
  · have ht : TextAt s [] := fun k hk => absurd hk (Nat.not_lt_zero k)
    exact step_of_stop hs ht rfl (fetchByte_zero_of_denied hc h)
  · exact State.translate_error_bits h

/-! ## What the decoder read stands in the bytes, but for ignored bits (R108) -/

theorem SameUpTo.append {ms ms' as as' bs bs' : List Byte} (h : SameUpTo ms as bs) (h' : SameUpTo ms' as' bs') :
    SameUpTo (ms ++ ms') (as ++ as') (bs ++ bs') :=
  (sameUpTo_append ms h.length.2).mpr ⟨as, as', rfl, h, h'⟩

/-- R108 steps 7 and 8: the decoder accepts an instruction only by the checks of `Instr.wf`. -/
theorem verdictOf_eq_form {k : EncKind} {i j : Instr} (h : verdictOf k i = .form j) (he : i.encodable = true) :
    i = j ∧ i.wf = true := by
  unfold verdictOf at h
  split at h
  · rename_i hlength
    split at h
    · rename_i hlegal
      cases h
      exact ⟨rfl, i.wf_iff.mpr ⟨hlegal, hlength, he⟩⟩
    · cases h
  · cases h

section
variable (ord : FmaOrder) (o : VexOperands) (e : EvexOperands)

@[simp] theorem encodable_vex : (ord.vex o).encodable = o.src3.encodable := by cases ord <;> rfl
@[simp] theorem encodable_evex : (ord.evex e).encodable = e.src3.encodable := by cases ord <;> rfl
@[simp] theorem encode_vex : encode (ord.vex o) = encodeVex ord o := by cases ord <;> rfl
@[simp] theorem encode_evex : encode (ord.evex e) = encodeEvex ord e := by cases ord <;> rfl
@[simp] theorem ignoredBits_vex : ignoredBits (ord.vex o) = ignoredBits.vexIgnored o := by cases ord <;> rfl
@[simp] theorem ignoredBits_evex : ignoredBits (ord.evex e) = ignoredBits.evexIgnored e := by cases ord <;> rfl

end

/-- The bits X and B that were read are those of the fields where the mask `m` does not ignore them. -/
def ReadsXB (m : Byte) (f : RmFields) (x b : Bool) : Prop :=
  (m = 0#8 ∧ f.x = x ∧ f.b = b) ∨ (m = 0x40#8 ∧ f.b = b) ∨ (m = 0x20#8 ∧ f.x = x) ∨ m = 0x60#8

/-- The instruction is well-formed, and its encoding but for ignored bits heads the bytes. -/
def Heads (i : Instr) (bs : List Byte) : Prop :=
  i.wf = true ∧ ∃ u rest, bs = u ++ rest ∧ SameUpTo (ignoredBits i) u (encode i)

theorem encode_length (i : Instr) : (encode i).length = i.length := by
  cases i with
  | vfnmadd132sdVex o => exact encodeVex_length .o132 o
  | vfnmadd213sdVex o => exact encodeVex_length .o213 o
  | vfnmadd231sdVex o => exact encodeVex_length .o231 o
  | vfnmadd132sdEvex o => exact encodeEvex_length .o132 o
  | vfnmadd213sdEvex o => exact encodeEvex_length .o213 o
  | vfnmadd231sdEvex o => exact encodeEvex_length .o231 o

theorem heads_encode {i : Instr} (h : i.wf = true) : Heads i (encode i) :=
  ⟨h, encode i, [], (List.append_nil _).symm, sameUpTo_refl ((ignoredBits_length i).trans (encode_length i).symm)⟩

/-- R90, R97: the fields of operand 3 of a VEX form are those it was read from. -/
theorem vexSrc3_fields {x b : Bool} {m : Byte} {bs : List Byte} {a : VexSrc3}
    (h : (if hi2 m = 3#2 then some (VexSrc3.reg (ext4 b (low3 m)))
      else (decodeMem x b (hi2 m) (low3 m) bs).map .mem) = some a) :
    a.encodable = true ∧ a.fields.mod = hi2 m ∧ a.fields.rm = low3 m ∧ (∃ rest, bs = a.fields.tail ++ rest) ∧
      ReadsXB (ignoredVexBits a) a.fields x b := by
  split at h
  · rename_i hm
    cases h
    exact ⟨rfl, hm.symm, ext4_low _ _, ⟨bs, rfl⟩, .inr (.inl ⟨rfl, ext4_high _ _⟩)⟩
  · rename_i hm
    obtain ⟨a, ha, rfl⟩ := Option.map_eq_some_iff.mp h
    exact decodeMem_fields hm ha

theorem decodeVexTail_form {pfx : List LegacyPrefix} {b1 b2 : Byte} {ord : FmaOrder} {bs : List Byte} {i : Instr}
    (h1 : b1.extractLsb' 0 5 = 2#5) (h2 : b2.extractLsb' 0 2 = 1#2 ∧ b2.getLsbD 7 = true)
    (h : decodeVexTail pfx b1 b2 ord bs = .form i) :
    Heads i (pfx.map LegacyPrefix.byte ++ 0xC4#8 :: b1 :: b2 :: ord.opcode :: bs) := by
  unfold decodeVexTail at h
  split at h
  · cases h
  · rename_i m bs
    dsimp only at h
    split at h
    · cases h
    · rename_i a ha
      obtain ⟨he, hmod, hrm, ⟨rest, rfl⟩, hxb⟩ := vexSrc3_fields ha
      obtain ⟨rfl, hwf⟩ := verdictOf_eq_form h (by rwa [encodable_vex])
      refine ⟨hwf, pfx.map LegacyPrefix.byte ++ [0xC4#8, b1, b2, ord.opcode, m] ++ a.fields.tail, rest, by simp, ?_⟩
      rw [ignoredBits_vex, encode_vex, ignoredBits.vexIgnored, encodeVex]
      refine .append (.append (sameUpTo_refl (by simp)) ⟨rfl, ?_, vexByte2_parts b2 h2, rfl, ?_, trivial⟩)
        (sameUpTo_refl (by simp))
      · rw [ext4_high, Bool.not_not, ← h1]
        exact byte1_parts b1 _ _ hxb
      · rw [hmod, hrm, ext4_low, modrmByte_parts]

theorem decodeVex_form {pfx : List LegacyPrefix} {bs : List Byte} {i : Instr} (h : decodeVex pfx bs = .form i) :
    Heads i (pfx.map LegacyPrefix.byte ++ 0xC4#8 :: bs) := by
  unfold decodeVex at h
  split at h
  · split at h
    · rename_i hpayload
      split at h
      · cases h
      · split at h
        · cases h
        · rename_i hord
          obtain ⟨h1, h2⟩ := hpayload
          rw [opcode_of_orderOf hord]
          exact decodeVexTail_form h1 h2 h
    · cases h
  · cases h

theorem ext5_high (hi : Bool) (n : BitVec 4) : (ext5 hi n).getLsbD 4 = hi := by revert hi n; decide

theorem ext5_low (hi : Bool) (n : BitVec 4) : (ext5 hi n).setWidth 4 = n := by revert hi n; decide

/-- The three fields of a vector register number (R88, R90), read back from it. -/
theorem vreg_fields (r4 r3 : Bool) (n : BitVec 3) :
    (ext5 r4 (ext4 r3 n)).getLsbD 4 = r4 ∧ (ext5 r4 (ext4 r3 n)).getLsbD 3 = r3 ∧
      (ext5 r4 (ext4 r3 n)).setWidth 3 = n := by
  revert r4 r3 n; decide

theorem RoundingMode.bits_ofBits (rc : BitVec 2) : (RoundingMode.ofBits rc).bits = rc := by
  revert rc; decide

/-- R90, R94, R97: the fields of operand 3 of an EVEX form are those it was read from, and P2 is the encoder's but for an
ignored L'L. -/
theorem evexSrc3_fields {x b : Bool} {m p2 : Byte} {bs : List Byte} {a : EvexSrc3}
    (h : (if hi2 m = 3#2 then
        some (EvexSrc3.reg (ext5 x (ext4 b (low3 m)))
          (if p2.getLsbD 4 then some (RoundingMode.ofBits (p2.extractLsb' 5 2)) else none))
      else (decodeMem x b (hi2 m) (low3 m) bs).map (.mem · (p2.getLsbD 4))) = some a) :
    a.encodable = true ∧ a.fields.mod = hi2 m ∧ a.fields.rm = low3 m ∧ (∃ rest, bs = a.fields.tail ++ rest) ∧
      ReadsXB (ignoredEvexBits a) a.fields x b ∧ a.bBit = p2.getLsbD 4 ∧
      ((∃ n rm, a = .reg n (some rm) ∧ a.llBits = p2.extractLsb' 5 2) ∨ ∀ n rm, a ≠ .reg n (some rm)) := by
  split at h
  · rename_i hm
    cases h
    obtain ⟨hx, hb, hr⟩ := vreg_fields x b (low3 m)
    refine ⟨rfl, hm.symm, hr, ⟨bs, rfl⟩, .inl ⟨rfl, hx, hb⟩, ?_, ?_⟩
    · cases hb : p2.getLsbD 4 <;> rfl
    · cases hb : p2.getLsbD 4
      · exact .inr fun n rm e => by cases e
      · exact .inl ⟨_, _, rfl, RoundingMode.bits_ofBits _⟩
  · rename_i hm
    obtain ⟨a, ha, rfl⟩ := Option.map_eq_some_iff.mp h
    obtain ⟨he, hmod, hrm, htail, hxb⟩ := decodeMem_fields hm ha
    exact ⟨he, hmod, hrm, htail, hxb, rfl, .inr fun n rm e => by cases e⟩

/-- R94: only a register operand 3 carries embedded rounding. -/
theorem embeddedRounding_of_ne {o : EvexOperands} (h : ∀ n rm, o.src3 ≠ .reg n (some rm)) :
    embeddedRounding o = none := by
  unfold embeddedRounding
  split
  · rename_i n er h3
    cases er with
    | none => rfl
    | some rm => exact absurd h3 (h n rm)
  · rfl

/-- The encoder's P0, with the low five bits of `evexP0_low` apart. -/
theorem evexP0_append_assoc (a b c d : Bool) :
    BitVec.ofBool a ++ BitVec.ofBool b ++ BitVec.ofBool c ++ BitVec.ofBool d ++ 0#2 ++ 2#2 =
      BitVec.ofBool a ++ BitVec.ofBool b ++ BitVec.ofBool c ++ (BitVec.ofBool d ++ (0#2 ++ 2#2)) := by
  revert a b c d; decide

theorem decodeEvexTail_form {pfx : List LegacyPrefix} {p0 p1 p2 : Byte} {ord : FmaOrder} {bs : List Byte} {i : Instr}
    (h0 : p0.extractLsb' 2 2 = 0#2 ∧ p0.extractLsb' 0 2 = 2#2)
    (h1 : p1.extractLsb' 0 2 = 1#2 ∧ p1.getLsbD 2 = true ∧ p1.getLsbD 7 = true)
    (h : decodeEvexTail pfx p0 p1 p2 ord bs = .form i) :
    Heads i (pfx.map LegacyPrefix.byte ++ 0x62#8 :: p0 :: p1 :: p2 :: ord.opcode :: bs) := by
  unfold decodeEvexTail at h
  split at h
  · cases h
  · rename_i m bs
    dsimp only at h
    split at h
    · cases h
    · rename_i a ha
      obtain ⟨he, hmod, hrm, ⟨rest, rfl⟩, hxb, hbit, hll⟩ := evexSrc3_fields ha
      obtain ⟨rfl, hwf⟩ := verdictOf_eq_form h (by rwa [encodable_evex])
      refine ⟨hwf, pfx.map LegacyPrefix.byte ++ [0x62#8, p0, p1, p2, ord.opcode, m] ++ a.fields.tail, rest, by simp, ?_⟩
      rw [ignoredBits_evex, encode_evex, ignoredBits.evexIgnored, encodeEvex]
      obtain ⟨hd4, hd3, hd⟩ := vreg_fields (!p0.getLsbD 4) (!p0.getLsbD 7) (mid3 m)
      refine .append (.append (sameUpTo_refl (by simp)) ⟨rfl, ?_, ?_, ?_, rfl, ?_, trivial⟩) (sameUpTo_refl (by simp))
      · rw [hd3, hd4, Bool.not_not, Bool.not_not, evexP0_append_assoc, ← evexP0_low p0 h0]
        exact byte1_parts p0 _ _ hxb
      · rw [ext5_low]
        exact congrArg (· &&& ~~~ 0#8) (evexP1_parts p1 h1)
      · rw [ext5_high, Bool.not_not, hbit]
        obtain ⟨n, rm, rfl, hrc⟩ | hne := hll
        · rw [hrc]
          exact congrArg (· &&& ~~~ 0#8) (evexP2_parts p2)
        · rw [embeddedRounding_of_ne hne]
          exact evexP2_parts_masked p2 a.llBits
      · rw [hd, hmod, hrm, modrmByte_parts]

theorem decodeEvex_form {pfx : List LegacyPrefix} {bs : List Byte} {i : Instr} (h : decodeEvex pfx bs = .form i) :
    Heads i (pfx.map LegacyPrefix.byte ++ 0x62#8 :: bs) := by
  unfold decodeEvex at h
  split at h
  · split at h
    · split at h <;> cases h
    · rename_i hreserved
      split at h
      · rename_i hpayload
        split at h
        · cases h
        · split at h
          · cases h
          · rename_i hord
            obtain ⟨h0, h1, h7⟩ := hpayload
            simp only [ne_eq, not_or, not_not, Bool.not_eq_false] at hreserved
            obtain ⟨hr0, hr1⟩ := hreserved
            rw [opcode_of_orderOf hord]
            exact decodeEvexTail_form ⟨hr0, h0⟩ ⟨h1, hr1, h7⟩ h
      · cases h
  · cases h

/-- R108: the bytes that decode to an instruction begin with its encoding but for ignored bits. -/
theorem decode_form {bs : List Byte} {i : Instr} (h : decode bs = .form i) : Heads i bs := by
  obtain ⟨hbs, -⟩ := takePrefixes_split bs
  unfold decode at h
  split at h
  · cases h
  · rename_i b rest hrest
    rw [hbs, hrest]
    split at h
    · rename_i hb
      rw [hb]
      exact decodeVex_form h
    · split at h
      · rename_i hb
        rw [hb]
        exact decodeEvex_form h
      · cases h

/-! ## Program text (R67, R243) -/

theorem loadAddr_succ (loc : Word) (j : Nat) : loc + 1 + BitVec.ofNat 64 j = loc + BitVec.ofNat 64 (j + 1) := by
  rw [BitVec.ofNat_add, BitVec.add_assoc, BitVec.add_comm (BitVec.ofNat 64 j)]
  rfl

/-- Loading leaves every location it does not write. -/
theorem Memory.read_load_other {bs : List Byte} {m : Memory} {loc : Word} {a : Nat}
    (h : ∀ j, j < bs.length → a ≠ (loc + BitVec.ofNat 64 j).toNat) :
    Memory.read (Memory.load m loc bs) a = Memory.read m a := by
  induction bs generalizing m loc with
  | nil => rfl
  | cons b bs ih =>
    have hloc : a ≠ loc.toNat := by simpa using h 0 (by simp)
    rw [Memory.load, ih fun j hj => loadAddr_succ loc j ▸ h (j + 1) (by simpa using hj), Memory.read_write,
      if_neg hloc]

/-- The bytes loaded are read back, if they do not go round the whole address space. -/
theorem Memory.read_load {bs : List Byte} (hlen : bs.length ≤ 2 ^ 64) {m : Memory} {loc : Word} {k : Nat}
    (hk : k < bs.length) : Memory.read (Memory.load m loc bs) (loc + BitVec.ofNat 64 k).toNat = some bs[k] := by
  induction bs generalizing m loc k with
  | nil => cases hk
  | cons b bs ih =>
    rw [List.length_cons] at hlen hk
    cases k with
    | zero =>
      have hother : ∀ j, j < bs.length → loc.toNat ≠ (loc + 1 + BitVec.ofNat 64 j).toNat := by
        intro j hj
        rw [loadAddr_succ, BitVec.toNat_add, BitVec.toNat_ofNat]
        omega
      rw [BitVec.add_zero, Memory.load, Memory.read_load_other hother, Memory.read_write, if_pos rfl]
      rfl
    | succ k =>
      rw [← loadAddr_succ]
      exact ih (by omega) (by omega)

/-- Loaded text is mapped to the locations of the same number. -/
theorem State.loadText_translate {s : State} {bs : List Byte} {k : Nat} (hroom : s.pc.toNat + bs.length ≤ 2 ^ 64)
    (hk : k < bs.length) (access : Access) :
    (s.loadText bs).translate (s.pc + BitVec.ofNat 64 k) access = .ok (s.pc + BitVec.ofNat 64 k) := by
  have hcovers : TransEntry.covers ⟨s.pc, s.pc + BitVec.ofNat 64 (bs.length - 1), s.pc, .all, .all⟩
      (s.pc + BitVec.ofNat 64 k) = true := by
    simp only [TransEntry.covers, Bool.and_eq_true, decide_eq_true_eq, BitVec.toNat_add, BitVec.toNat_ofNat]
    omega
  have hlevel : ∀ c : BitVec 2, AccessRight.all.levels.getLsbD c.toNat = true := by decide
  have hloc : s.pc + (s.pc + BitVec.ofNat 64 k - s.pc) = s.pc + BitVec.ofNat 64 k := by
    rw [BitVec.add_comm s.pc (_ - _), BitVec.sub_add_cancel]
  simp only [State.translate, State.loadText, List.find?_cons_of_pos (p := fun e => TransEntry.covers e _) hcovers]
  cases access <;> simp only [TransEntry.right, hlevel, if_true, TransEntry.location, hloc]

theorem State.textRoom_iff (s : State) :
    s.textRoom = true ↔ s.pc.toNat + 15 ≤ 2 ^ 64 ∧ ∀ k, k < 15 → s.canonical (s.pc + BitVec.ofNat 64 k) = true := by
  simp only [State.textRoom, Bool.and_eq_true, decide_eq_true_eq, List.all_eq_true, List.mem_range]

/-- Text that fits in the room at `pc` is there to be fetched once loaded. -/
theorem State.loadText_textAt {s : State} {bs : List Byte} (hroom : s.textRoom = true) (hlen : bs.length ≤ 15) :
    TextAt (s.loadText bs) bs := by
  obtain ⟨hpc, hcanonical⟩ := s.textRoom_iff.mp hroom
  intro k hk
  have hbyte := byteAt_of_translate (State.loadText_translate (by omega) hk .fetch)
    (Memory.read_load (m := s.mem) (loc := s.pc) (by omega) hk)
  have hk' : s.pc.toNat + k < 2 ^ 64 ∧ s.canonical (s.pc + BitVec.ofNat 64 k) = true :=
    ⟨by omega, hcanonical k (by omega)⟩
  exact (if_pos hk').trans hbyte

theorem State.launch_longMode (s : State) : s.launch.longMode = true := by
  simp [State.longMode, State.launch]

theorem State.launch_debugArmed (s : State) : s.launch.debugArmed = false := by
  have hdr : s.launch.dr7.extractLsb' 0 8 = 0#8 := by
    show (s.dr7 &&& ~~~ 0xFF#64).extractLsb' 0 8 = 0#8
    rw [BitVec.extractLsb'_and]
    exact BitVec.and_zero
  have htf : s.launch.rflags.getLsbD 8 = false := by simp [State.launch]
  simp only [State.debugArmed, htf, hdr, bne_self_eq_false, Bool.or_self]

theorem State.launch_mxcsrReserved (s : State) : mxcsrReserved s.launch.mxcsr = 0#16 := by
  show (s.mxcsr &&& 0xFFFF#32).extractLsb' 16 16 = 0#16
  rw [BitVec.extractLsb'_and]
  exact BitVec.and_zero

/-- R243: the launch puts a state in scope. -/
theorem State.launch_scopeRefusal (s : State) : s.launch.scopeRefusal = none := by
  simp [State.scopeRefusal, s.launch_longMode, s.launch_debugArmed, s.launch_mxcsrReserved]

/-- There is room for any instruction at the launch address. -/
theorem State.launch_textRoom (s : State) : s.launch.textRoom = true := by
  have hlow : ∀ k, k < 15 → ((BitVec.ofNat 64 k).setWidth s.params.vaBits.bits).signExtend 64 = BitVec.ofNat 64 k := by
    cases s.params.vaBits <;> decide
  refine s.launch.textRoom_iff.mpr ⟨by simp [State.launch], fun k hk => (State.canonical_iff _ _).mpr ?_⟩
  rw [show s.launch.pc + BitVec.ofNat 64 k = BitVec.ofNat 64 k from BitVec.zero_add _]
  exact hlow k hk

theorem State.launchedForText_ready (s : State) :
    s.launchedForText.scopeRefusal = none ∧ s.launchedForText.textRoom = true := by
  unfold State.launchedForText
  split
  · rename_i h
    simpa using h
  · exact ⟨s.launch_scopeRefusal, s.launch_textRoom⟩

/-- Text loaded after the launch runs as the instruction whose encoding heads it, but for ignored bits. -/
theorem step_of_heads {s : State} {bs : List Byte} {i : Instr} (hlen : bs.length ≤ 15) (h : Heads i bs) :
    step (s.launchedForText.loadText bs) = exec i (s.launchedForText.loadText bs) := by
  obtain ⟨hscope, hroom⟩ := s.launchedForText_ready
  have htext := State.loadText_textAt hroom hlen
  obtain ⟨hwf, u, rest, rfl, hu⟩ := h
  obtain ⟨hruns, -⟩ := encodedInstructionRuns
  refine hruns _ i u hscope hwf hu fun k hk => ?_
  rw [htext k (by rw [List.length_append]; omega), List.getElem_append_left hk]

theorem decode_of_decodeTableWord {nbits w : Nat} {i : Instr} (h : decodeTableWord nbits w = some i) :
    decode (tableBytes nbits w) = .form i := by
  unfold decodeTableWord at h
  split at h <;> cases h
  assumption

/-- Settles O16: loaded text is fetched as it was loaded, and what it encodes or decodes to heads it. -/
theorem loadedInstructionRuns : Obligations.LoadedInstructionRuns := by
  refine ⟨fun s i hwf => ?_, fun s nbits w i h => ?_⟩
  · have hlen : (encode i).length ≤ 15 := by
      obtain ⟨-, hlength, -⟩ := i.wf_iff.mp hwf
      rw [encode_length]
      exact of_decide_eq_true hlength
    exact step_of_heads hlen (heads_encode hwf)
  · exact step_of_heads (by simp [tableBytes]) (decode_form (decode_of_decodeTableWord h))

/-! ## Changes of state that an operand read sees only in the state of its faults -/

theorem src3Of_of_register {i : Instr} (h : memOf i = none) : ∃ n, ∀ s, src3Of s i = .ok (s.low n) := by
  have vex : ∀ {o : VexOperands}, memOf.vexMem o = none → ∃ n, ∀ s, readVexSrc3 o s = .ok (s.low n) := by
    intro o ho
    cases h3 : o.src3 with
    | reg n => exact ⟨vexReg n, fun s => by simp only [readVexSrc3, h3]⟩
    | mem a => simp only [memOf.vexMem, h3, reduceCtorEq] at ho
  have evex : ∀ {o : EvexOperands}, memOf.evexMem o = none → ∃ n, ∀ s, readEvexSrc3 o s = .ok (s.low n) := by
    intro o ho
    cases h3 : o.src3 with
    | reg n er => exact ⟨n, fun s => by simp only [readEvexSrc3, h3]⟩
    | mem a bc => simp only [memOf.evexMem, h3, reduceCtorEq] at ho
  cases i with
  | vfnmadd132sdVex o => exact vex h
  | vfnmadd213sdVex o => exact vex h
  | vfnmadd231sdVex o => exact vex h
  | vfnmadd132sdEvex o => exact evex h
  | vfnmadd213sdEvex o => exact evex h
  | vfnmadd231sdEvex o => exact evex h

theorem faultOf_commutes {g : State → State} (hrecord : ∀ x t, Exception.record x (g t) = g (x.record t)) (x : Exception)
    (t : State) : faultOf x (g t) = onFault g (faultOf x t) :=
  congrArg (Fault.exception x) (hrecord x t)

/-- A change that the read of the 8 bytes from `la` in `s` does not see: it leaves what they translate to, what is held
there and the checks of R55, and commutes with what raising an exception does to the state. -/
structure ReadsAlike (g : State → State) (s : State) (la : Word) : Prop where
  translate : ∀ a ∈ operandAddrs la, (g s).translate a .dataRead = s.translate a .dataRead
  held : ∀ a ∈ operandAddrs la, ∀ loc, s.translate a .dataRead = .ok loc →
    Memory.read (g s).mem loc.toNat = Memory.read s.mem loc.toNat
  canonicalOperand : (g s).canonicalOperand la = s.canonicalOperand la
  misaligned : (g s).misaligned la = s.misaligned la
  draws : (g s).draws = s.draws
  consumeDraw : (g s).consumeDraw = g s.consumeDraw
  record : ∀ x t, Exception.record x (g t) = g (x.record t)

theorem firstDenied_congr {s u : State} {as : List Word}
    (h : ∀ a ∈ as, u.translate a .dataRead = s.translate a .dataRead) : u.firstDenied as = s.firstDenied as := by
  induction as with
  | nil => rfl
  | cons a as ih =>
    obtain ⟨ha, has⟩ := List.forall_mem_cons.mp h
    simp only [State.firstDenied, ha, ih has]

theorem bytesAt_commutes {g : State → State} {s : State} {access : Access} {as : List Word}
    (h : ∀ a ∈ as, byteAt a access (g s) = (byteAt a access s).mapError (onFault g)) :
    bytesAt access (g s) as = (bytesAt access s as).mapError (onFault g) := by
  induction as with
  | nil => rfl
  | cons a as ih =>
    obtain ⟨ha, has⟩ := List.forall_mem_cons.mp h
    rw [bytesAt, bytesAt, ha, ih has]
    cases byteAt a access s with
    | error f => rfl
    | ok b => cases bytesAt access s as <;> rfl

section
variable {g : State → State} {s : State} {la : Word} (h : ReadsAlike g s la)
include h

theorem ReadsAlike.byteAt {a : Word} (ha : a ∈ operandAddrs la) :
    byteAt a .dataRead (g s) = (byteAt a .dataRead s).mapError (onFault g) := by
  unfold Machine.byteAt
  rw [h.translate a ha]
  split
  · exact congrArg Except.error (faultOf_commutes h.record _ s)
  · rename_i loc hloc
    rw [h.held a ha loc hloc]
    split <;> rfl

theorem ReadsAlike.pageFault : (g s).pageFault la = s.pageFault la := by
  have denied (p : Word → Bool) :
      (g s).firstDenied ((operandAddrs la).filter p) = s.firstDenied ((operandAddrs la).filter p) :=
    firstDenied_congr fun a ha => h.translate a (List.mem_of_mem_filter ha)
  simp only [State.pageFault, State.pageFaults, denied, h.draws]

theorem ReadsAlike.accessFault : accessFault la (g s) = (accessFault la s).map (onFault g) := by
  have raised (x : Exception) (t : State) : some (faultOf x (g t)) = (some (faultOf x t)).map (onFault g) :=
    congrArg some (faultOf_commutes h.record x t)
  unfold Machine.accessFault
  rw [h.pageFault, h.misaligned, h.draws, h.consumeDraw]
  split
  · rfl
  · exact raised _ _
  · rename_i drawn _ _
    cases drawn <;> exact raised _ _
  · split <;> exact raised _ _

/-- R55: the read answers the same value, or the same fault in the changed state. -/
theorem ReadsAlike.memRead (stack : Bool) : memRead la stack (g s) = (memRead la stack s).mapError (onFault g) := by
  unfold Machine.memRead
  rw [h.canonicalOperand, h.accessFault, bytesAt_commutes fun a ha => h.byteAt ha]
  split
  · cases Machine.accessFault la s with
    | some f => rfl
    | none => cases bytesAt .dataRead s (operandAddrs la) <;> rfl
  · exact congrArg Except.error (faultOf_commutes h.record _ s)

end

/-! ## Changes of state that an instruction sees only in what it hands on -/

/-- A change that no instruction sees beside its enable conditions, operand 3 and the mask bit: it leaves what the
arithmetic reads, and commutes with raising, completing and trapping. -/
structure ExecBlind (g : State → State) : Prop where
  scopeRefusal : ∀ s, (g s).scopeRefusal = s.scopeRefusal
  vreg : ∀ s, (g s).vreg = s.vreg
  mxcsr : ∀ s, (g s).mxcsr = s.mxcsr
  draws : ∀ s, (g s).draws = s.draws
  trapsAsXm : ∀ s, (g s).cr4.getLsbD 10 = s.cr4.getLsbD 10
  record : ∀ x s, Exception.record x (g s) = g (x.record s)
  completed : ∀ s d r f len, (g s).completed d r f len = g (s.completed d r f len)
  trapped : ∀ s f, (g s).trapped f = g (s.trapped f)

section
variable {g : State → State} (hg : ExecBlind g) {s : State}
include hg

theorem ExecBlind.low (n : VregNum) : (g s).low n = s.low n := by
  simp only [State.low, State.vregAt, hg.vreg]

theorem ExecBlind.raise (x : Exception) (t : State) : raise x (g t) = onStates g (raise x t) :=
  congrArg Host.Outcome.fault (faultOf_commutes hg.record x t)

theorem ExecBlind.raiseSimd (f : FpFlags) : raiseSimd f (g s) = onStates g (raiseSimd f s) := by
  rw [Machine.raiseSimd, hg.trapsAsXm, hg.trapped]
  exact hg.raise _ _

theorem ExecBlind.complete (d : VregNum) (r : Word) (f : FpFlags) (len : Nat) :
    complete d r f len (g s) = onStates g (complete d r f len s) :=
  congrArg Host.Outcome.next (hg.completed s d r f len)

theorem ExecBlind.execVex {o : VexOperands} (he : (g s).enableFault .vex = s.enableFault .vex)
    (hread : readVexSrc3 o (g s) = (readVexSrc3 o s).mapError (onFault g)) (ord : FmaOrder) :
    execVex ord o (g s) = onStates g (execVex ord o s) := by
  have hr (c : Word) : vexResult ord o c (g s) = vexResult ord o c s := by
    simp only [vexResult, hg.low, hg.mxcsr, hg.draws]
  unfold Machine.execVex
  rw [hg.scopeRefusal, he, hread]
  cases s.scopeRefusal with
  | some r => rfl
  | none =>
    cases s.enableFault .vex with
    | some x => exact hg.raise x s
    | none =>
      cases readVexSrc3 o s with
      | error f => exact (onStates_fault g f).symm
      | ok c =>
        simp only [Except.mapError, hr]
        cases vexResult ord o c s with
        | trap f => exact hg.raiseSimd f
        | value r f => exact hg.complete _ r f _

theorem ExecBlind.execEvex {o : EvexOperands} (he : (g s).enableFault .evex = s.enableFault .evex)
    (hm : maskBit o (g s) = maskBit o s)
    (hread : readEvexSrc3 o (g s) = (readEvexSrc3 o s).mapError (onFault g)) (ord : FmaOrder) :
    execEvex ord o (g s) = onStates g (execEvex ord o s) := by
  have hr (c : Word) : evexResult ord o c (g s) = evexResult ord o c s := by
    simp only [evexResult, evexRounding, evexControl, hg.low, hg.mxcsr, hg.draws]
  unfold Machine.execEvex
  rw [hg.scopeRefusal, he, hread, hm]
  cases s.scopeRefusal with
  | some r => rfl
  | none =>
    cases s.enableFault .evex with
    | some x => exact hg.raise x s
    | none =>
      cases readEvexSrc3 o s with
      | error f => exact (onStates_fault g f).symm
      | ok c =>
        cases maskBit o s with
        | false =>
          simp only [Except.mapError, Bool.false_eq_true, if_false, evexMaskedOff, hg.low]
          exact hg.complete _ _ _ _
        | true =>
          simp only [Except.mapError, hr, if_true]
          cases evexResult ord o c s with
          | trap f => exact hg.raiseSimd f
          | value r f => exact hg.complete _ r _ _

/-- An instruction whose enable conditions, opmask registers and operand 3 the change leaves does the same. -/
theorem ExecBlind.exec {i : Instr} (he : ∀ k, (g s).enableFault k = s.enableFault k) (hk : (g s).kreg = s.kreg)
    (hread : src3Of (g s) i = (src3Of s i).mapError (onFault g)) : exec i (g s) = onStates g (exec i s) := by
  have hm (o : EvexOperands) : maskBit o (g s) = maskBit o s := by simp only [maskBit, State.kregAt, hk]
  cases i with
  | vfnmadd132sdVex o => exact hg.execVex (he _) hread .o132
  | vfnmadd213sdVex o => exact hg.execVex (he _) hread .o213
  | vfnmadd231sdVex o => exact hg.execVex (he _) hread .o231
  | vfnmadd132sdEvex o => exact hg.execEvex (he _) (hm o) hread .o132
  | vfnmadd213sdEvex o => exact hg.execEvex (he _) (hm o) hread .o213
  | vfnmadd231sdEvex o => exact hg.execEvex (he _) (hm o) hread .o231

/-- Operand 3 of a register form, and of a memory form whose 8 bytes are read alike. -/
theorem ExecBlind.src3Of {i : Instr}
    (hmem : ∀ a, memOf i = some a →
      linearAddrOf i a (g s) = linearAddrOf i a s ∧ ReadsAlike g s (linearAddrOf i a s)) :
    src3Of (g s) i = (src3Of s i).mapError (onFault g) := by
  cases ha : memOf i with
  | none =>
    obtain ⟨n, hn⟩ := src3Of_of_register ha
    rw [hn, hn, hg.low]
    rfl
  | some a =>
    obtain ⟨hla, halike⟩ := hmem a ha
    rw [src3Of_of_memOf ha, src3Of_of_memOf ha, hla]
    exact halike.memRead _

end

/-! ## Other memory and another translation (R51) -/

/-- The state with another memory and another translation. -/
def State.withMemory (m : Memory) (xl : List TransEntry) (s : State) : State := { s with mem := m, xlat := xl }

theorem ExecBlind.withMemory (m : Memory) (xl : List TransEntry) : ExecBlind (State.withMemory m xl) where
  scopeRefusal _ := rfl
  vreg _ := rfl
  mxcsr _ := rfl
  draws _ := rfl
  trapsAsXm _ := rfl
  record x _ := by cases x <;> rfl
  completed _ _ _ _ _ := rfl
  trapped _ _ := rfl

theorem ReadsAlike.withMemory {m : Memory} {xl : List TransEntry} {s : State} {la : Word}
    (h : ∀ k : Fin 8, (s.withMemory m xl).translate (la + BitVec.ofNat 64 k) .dataRead =
        s.translate (la + BitVec.ofNat 64 k) .dataRead ∧
      ∀ loc, s.translate (la + BitVec.ofNat 64 k) .dataRead = .ok loc →
        Memory.read m loc.toNat = Memory.read s.mem loc.toNat) :
    ReadsAlike (State.withMemory m xl) s la where
  translate := by
    rw [operandAddrs_eq_ofFn, List.forall_mem_ofFn_iff]
    exact fun k => (h k).1
  held := by
    rw [operandAddrs_eq_ofFn, List.forall_mem_ofFn_iff]
    exact fun k => (h k).2
  canonicalOperand := rfl
  misaligned := rfl
  draws := rfl
  consumeDraw := rfl
  record x _ := by cases x <;> rfl

theorem linearAddrOf_withMemory (m : Memory) (xl : List TransEntry) (s : State) (i : Instr) (a : MemAddr) :
    linearAddrOf i a (s.withMemory m xl) = linearAddrOf i a s := by
  have haddr (w n8 len : Nat) : effAddrAt w n8 len (s.withMemory m xl) a = effAddrAt w n8 len s a := by
    cases a <;> rfl
  have hbase (seg : Option SegOverride) : (s.withMemory m xl).segBase seg = s.segBase seg := by
    cases seg with
    | none => rfl
    | some seg => cases seg <;> rfl
  simp only [linearAddrOf, linearAddr, effAddr, haddr, hbase]

/-- Settles O29: memory and translation are read through the 8 bytes of operand 3 alone. -/
theorem onlyEightBytesRead : Obligations.OnlyEightBytesRead := by
  intro i s m xl u h
  have hblind := ExecBlind.withMemory m xl
  refine hblind.exec (fun _ => rfl) rfl (hblind.src3Of fun a ha => ?_)
  exact ⟨linearAddrOf_withMemory m xl s i a, .withMemory (h a ha)⟩

end Sys2Proof.Machine

/-! The proofs of the family 30_encoding: the decoder against the encoder, the bits it ignores, what an encoding that is
illegal, too long or of another instruction does to a step, and the operands an encoding names. -/

namespace Sys2Proof.Machine

/-! ## Decoding and encoding agree (R70 to R108) -/

theorem Heads.sameUpTo_take {i : Instr} {bs : List Byte} (h : Heads i bs) :
    i.length ≤ bs.length ∧ SameUpTo (ignoredBits i) (bs.take i.length) (encode i) := by
  obtain ⟨-, u, rest, rfl, hu⟩ := h
  have hlen : u.length = i.length := hu.length.1.trans (ignoredBits_length i)
  rw [← hlen, List.take_left, List.length_append]
  exact ⟨Nat.le_add_right _ _, hu⟩

theorem heads_of_sameUpTo_take {i : Instr} {bs : List Byte} (hwf : i.wf = true)
    (h : SameUpTo (ignoredBits i) (bs.take i.length) (encode i)) : Heads i bs :=
  ⟨hwf, bs.take i.length, bs.drop i.length, (List.take_append_drop _ _).symm, h⟩

/-- What stands after the instruction does not matter. -/
theorem Heads.append {i : Instr} {bs : List Byte} (h : Heads i bs) (more : List Byte) : Heads i (bs ++ more) := by
  obtain ⟨hwf, u, rest, rfl, hu⟩ := h
  exact ⟨hwf, u, rest ++ more, List.append_assoc _ _ _, hu⟩

/-- The instruction's own bytes are enough. -/
theorem Heads.take {i : Instr} {bs : List Byte} (h : Heads i bs) : Heads i (bs.take i.length) := by
  obtain ⟨-, hu⟩ := h.sameUpTo_take
  obtain ⟨hwf, -⟩ := h
  exact ⟨hwf, bs.take i.length, [], (List.append_nil _).symm, hu⟩

theorem Heads.decode {i : Instr} {bs : List Byte} (h : Heads i bs) : decode bs = .form i := by
  obtain ⟨-, hu⟩ := h.sameUpTo_take
  obtain ⟨hwf, -⟩ := h
  obtain ⟨-, -, henc⟩ := i.wf_iff.mp hwf
  rw [decode_sameUpTo henc hu, verdictOf_of_wf _ hwf]

/-- Settles O6: an encoding heads itself, and so whatever it is followed by. -/
theorem encodeDecodeAgree : Obligations.EncodeDecodeAgree := by
  intro i rest hwf
  exact ((heads_encode hwf).append rest).decode

/-- Settles O7: bytes decode to an instruction exactly when its encoding but for ignored bits heads them. -/
theorem decodedIsWellFormed : Obligations.DecodedIsWellFormed := by
  refine fun bs i => ⟨fun h => ?_, fun hwf h => (heads_of_sameUpTo_take hwf h).decode⟩
  have hheads := decode_form h
  obtain ⟨hlen, hu⟩ := hheads.sameUpTo_take
  have ⟨hwf, _⟩ := hheads
  exact ⟨hwf, hlen, hheads.take.decode, hu⟩

/-- Settles O8: the decoder, run on each of the twenty byte strings. -/
theorem workedEncodingsDecode : Obligations.WorkedEncodingsDecode := by
  unfold Obligations.WorkedEncodingsDecode
  decide

/-! ## The length bits (R74, R77) -/

theorem decode_prefixes_vex (pfx : List LegacyPrefix) (bs : List Byte) :
    decode (pfx.map LegacyPrefix.byte ++ 0xC4#8 :: bs) = decodeVex pfx bs := by
  simp only [decode, takePrefixes_append pfx prefixOf_vex, if_true]

theorem decode_prefixes_evex (pfx : List LegacyPrefix) (bs : List Byte) :
    decode (pfx.map LegacyPrefix.byte ++ 0x62#8 :: bs) = decodeEvex pfx bs := by
  have hne : (0x62#8 : Byte) ≠ 0xC4#8 := by decide
  simp only [decode, takePrefixes_append pfx prefixOf_evex, if_neg hne, if_true]

/-- R72: no field of VEX byte 2 that is read holds the bit L. -/
theorem vexByte2_invert_length (v : Byte) :
    (v ^^^ 4#8).extractLsb' 0 2 = v.extractLsb' 0 2 ∧ (v ^^^ 4#8).getLsbD 7 = v.getLsbD 7 ∧
      vvvvOf (v ^^^ 4#8) = vvvvOf v := by
  revert v; decide +kernel

/-- R74: the bit L is not read. -/
theorem decodeVex_invert_length (pfx : List LegacyPrefix) (b1 b2 : Byte) (bs : List Byte) :
    decodeVex pfx (b1 :: (b2 ^^^ 4#8) :: bs) = decodeVex pfx (b1 :: b2 :: bs) := by
  obtain ⟨hpp, hw, hvvvv⟩ := vexByte2_invert_length b2
  have htail (ord : FmaOrder) (ms : List Byte) :
      decodeVexTail pfx b1 (b2 ^^^ 4#8) ord ms = decodeVexTail pfx b1 b2 ord ms := by
    cases ms with
    | nil => rfl
    | cons m ms => simp only [decodeVexTail, hvvvv]
  simp only [decodeVex, hpp, hw, htail]

/-- R76: no field of EVEX P2 but L'L holds its bits 6:5. -/
theorem evexP2_replace_length (v : Byte) (ll : BitVec 2) :
    let w := (v &&& 0x9F#8) ||| (ll.setWidth 8 <<< 5)
    w.getLsbD 4 = v.getLsbD 4 ∧ w.getLsbD 3 = v.getLsbD 3 ∧ w.getLsbD 7 = v.getLsbD 7 ∧ low3 w = low3 v := by
  revert ll v; decide +kernel

/-- R77: with b = 0 the field L'L is not read. -/
theorem decodeEvex_replace_length (pfx : List LegacyPrefix) (p0 p1 : Byte) {p2 : Byte} (hb : p2.getLsbD 4 = false)
    (ll : BitVec 2) (bs : List Byte) :
    decodeEvex pfx (p0 :: p1 :: ((p2 &&& 0x9F#8) ||| (ll.setWidth 8 <<< 5)) :: bs) =
      decodeEvex pfx (p0 :: p1 :: p2 :: bs) := by
  obtain ⟨hbit, hv, hz, haaa⟩ := evexP2_replace_length p2 ll
  have htail (ord : FmaOrder) (ms : List Byte) :
      decodeEvexTail pfx p0 p1 ((p2 &&& 0x9F#8) ||| (ll.setWidth 8 <<< 5)) ord ms =
        decodeEvexTail pfx p0 p1 p2 ord ms := by
    cases ms with
    | nil => rfl
    | cons m ms => simp only [decodeEvexTail, hbit, hb, hv, hz, haaa, Bool.false_eq_true, if_false]
  simp only [decodeEvex, htail]

theorem exec_next_upper {i : Instr} {s t : State} (h : exec i s = .next t) : t.vregAt (destOf i) >>> 128 = 0 := by
  obtain ⟨-, -, -, r, f, -, rfl⟩ := exec_next h
  exact (s.completed_completion (destOf i) r f i.length).upper

/-- Settles O9: L is in no field that is read, and every completion zeroes the bits from 128 up. -/
theorem vexLengthBitIgnored : Obligations.VexLengthBitIgnored := by
  refine ⟨fun pfx b1 b2 rest => ?_, by decide, by decide, fun ord o s t h => ?_⟩
  · rw [decode_prefixes_vex, decode_prefixes_vex, decodeVex_invert_length]
  · rw [← destOf_vex ord o]
    exact exec_next_upper h

/-- The EVEX decoder answers a form only from the ModRM byte on. -/
theorem decodeEvex_form_tail {pfx : List LegacyPrefix} {p0 p1 p2 op : Byte} {bs : List Byte} {i : Instr}
    (h : decodeEvex pfx (p0 :: p1 :: p2 :: op :: bs) = .form i) :
    ∃ ord, decodeEvexTail pfx p0 p1 p2 ord bs = .form i := by
  simp only [decodeEvex] at h
  split at h
  · split at h <;> cases h
  · split at h
    · split at h
      · cases h
      · exact ⟨_, h⟩
    · cases h

theorem FmaOrder.evex_inj {ord ord' : FmaOrder} {o o' : EvexOperands} (h : ord.evex o = ord'.evex o') : o = o' := by
  cases ord <;> cases ord' <;> cases h <;> rfl

/-- R94: a register form with b = 1 carries the rounding mode of L'L. -/
theorem decodeEvexTail_rounding {pfx : List LegacyPrefix} {p0 p1 p2 m : Byte} {ord ord' : FmaOrder} {bs : List Byte}
    {o : EvexOperands} (hb : p2.getLsbD 4 = true) (hm : hi2 m = 3#2)
    (h : decodeEvexTail pfx p0 p1 p2 ord' (m :: bs) = .form (ord.evex o)) :
    ∃ n, o.src3 = .reg n (some (RoundingMode.ofBits (p2.extractLsb' 5 2))) := by
  simp only [decodeEvexTail, hm, hb, if_true] at h
  obtain ⟨hi, -⟩ := verdictOf_eq_form h (by rw [encodable_evex]; rfl)
  rw [← FmaOrder.evex_inj hi]
  exact ⟨_, rfl⟩

/-- Settles O10: L'L is read under embedded rounding alone, and there as the rounding mode. -/
theorem evexLengthBits : Obligations.EvexLengthBits := by
  refine ⟨fun pfx p0 p1 p2 ll rest hb => ?_, fun ord o s t h => ?_, fun pfx p0 p1 p2 op m rest ord o hb hm h => ?_⟩
  · rw [decode_prefixes_evex, decode_prefixes_evex, decodeEvex_replace_length pfx p0 p1 hb]
  · rw [← destOf_evex ord o]
    exact exec_next_upper h
  · rw [decode_prefixes_evex] at h
    obtain ⟨ord', htail⟩ := decodeEvex_form_tail h
    obtain ⟨n, hn⟩ := decodeEvexTail_rounding hb hm htail
    refine ⟨n, _, hn, ?_, ?_, ?_, ?_⟩ <;> exact fun hrc => congrArg RoundingMode.ofBits hrc

end Sys2Proof.Machine

/-! ## Encodings that do not run (R84, R95, R106, R109, R110): the step they get -/

namespace Sys2Proof.Machine

theorem verdictOf_of_illegal (k : EncKind) {i : Instr} (hlen : i.length ≤ 15) (h : i.legal = false) :
    verdictOf k i = .ud := by
  simp only [verdictOf, lengthLegal, hlen, decide_true, if_true, h, Bool.false_eq_true, if_false]

theorem verdictOf_of_tooLong (k : EncKind) {i : Instr} (hlen : 15 < i.length) :
    verdictOf k i = .tooLong k (!i.legal) := by
  simp only [verdictOf, lengthLegal, Nat.not_le.mpr hlen, decide_false, Bool.false_eq_true, if_false]

theorem step_of_ud {s : State} (hs : s.scopeRefusal = none) (h : decode (fetchWindow s).1 = .ud) :
    step s = .fault (.exception .ud s) := by
  simp only [step, hs, h]
  rfl

theorem step_of_tooLong {s : State} (hs : s.scopeRefusal = none) {k : EncKind} {illegal : Bool}
    (h : decode (fetchWindow s).1 = .tooLong k illegal) : step s = raiseTooLong k illegal s := by
  simp only [step, hs, h]

theorem step_of_refused {s : State} (hs : s.scopeRefusal = none) {why : DecodeRefusal}
    (h : decode (fetchWindow s).1 = .refused why) : step s = .refused (.otherInstruction why) := by
  simp only [step, hs, h]

theorem raiseTooLong_of_legal {k : EncKind} {s : State} (h : s.enabled k = true) :
    raiseTooLong k false s = .fault (.exception .gp s) := by
  simp only [raiseTooLong, h, Bool.not_true, Bool.or_false, Bool.false_eq_true, if_false]
  rfl

/-- R210: whatever the free value says, #GP(0) or #UD is raised, and no more than that value is consumed. -/
theorem raiseTooLong_fault (k : EncKind) (illegal : Bool) (s : State) :
    ∃ x t, raiseTooLong k illegal s = .fault (.exception x t) ∧ (x = .gp ∨ x = .ud) ∧
      t = { s with draws := t.draws } := by
  unfold raiseTooLong
  split
  · split
    · exact ⟨.ud, s.consumeDraw, rfl, .inr rfl, rfl⟩
    · exact ⟨.gp, s.consumeDraw, rfl, .inl rfl, rfl⟩
  · exact ⟨.gp, s, rfl, .inl rfl, rfl⟩

/-! ## Text that settles the verdict whatever follows it -/

theorem le_length_takePrefixes (pfx : List LegacyPrefix) (bs : List Byte) :
    pfx.length ≤ (takePrefixes (pfx.map LegacyPrefix.byte ++ bs)).1.length := by
  induction pfx with
  | nil => exact Nat.zero_le _
  | cons p ps ih => simpa [takePrefixes] using ih

theorem TextAt.of_append {s : State} {bs cs : List Byte} (h : TextAt s (bs ++ cs)) : TextAt s bs := by
  intro k hk
  rw [h k (by rw [List.length_append]; omega), List.getElem_append_left hk]

/-- Behind any number of prefixes, text of at most 11 bytes with one verdict whatever follows it gets that verdict. -/
theorem decode_fetchWindow_of_settled {s : State} {pfx : List LegacyPrefix} {bs : List Byte} {v : Verdict}
    (hlen : bs.length ≤ 11) (ht : TextAt s (pfx.map LegacyPrefix.byte ++ bs))
    (h : ∀ more, decode (pfx.map LegacyPrefix.byte ++ (bs ++ more)) = v) : decode (fetchWindow s).1 = v := by
  have hpfx := le_length_takePrefixes pfx bs
  obtain ⟨more, stop, hw⟩ := fetchWindow_of_text
    (by rw [List.length_append, List.length_map]; omega) ht
  rw [hw, List.append_assoc]
  exact h more

/-- R108 step 3: what wrong reserved bits of EVEX are. -/
theorem decodeEvex_reserved {p0 p1 : Byte} (h : p0.extractLsb' 2 2 ≠ 0#2 ∨ p1.getLsbD 2 = false)
    (pfx : List LegacyPrefix) (p2 : Byte) (bs : List Byte) :
    decodeEvex pfx (p0 :: p1 :: p2 :: bs) =
      if lengthLegal (pfx.length + 4) then .ud else .tooLong .evex true := if_pos h

theorem decode_fetchWindow_of_reserved {s : State} {pfx : List LegacyPrefix} {p0 p1 p2 : Byte}
    (h : p0.extractLsb' 2 2 ≠ 0#2 ∨ p1.getLsbD 2 = false)
    (ht : TextAt s (pfx.map LegacyPrefix.byte ++ [0x62#8, p0, p1, p2])) :
    decode (fetchWindow s).1 = if lengthLegal (pfx.length + 4) then .ud else .tooLong .evex true :=
  decode_fetchWindow_of_settled (by simp) ht fun more =>
    (decode_prefixes_evex pfx _).trans (decodeEvex_reserved h pfx p2 more)

/-- Settles O11: the verdict is `ud`, of the whole encoding or of its reserved bits. -/
theorem illegalEncodingsAreUd : Obligations.IllegalEncodingsAreUd := by
  refine ⟨fun s i bs hs henc hlen hlegal h ht => step_of_ud hs ?_,
    fun s pfx p0 p1 p2 hs hlen h ht => step_of_ud hs ?_⟩
  · rw [decode_fetchWindow_of_encoding henc h ht, verdictOf_of_illegal _ hlen hlegal]
  · have hshort : lengthLegal (pfx.length + 4) = true := decide_eq_true hlen
    rw [decode_fetchWindow_of_reserved h ht, if_pos hshort]

/-- Settles O12: the verdict is `tooLong`, and with a legal and enabled form no free value is consulted. -/
theorem overlongRaisesGp : Obligations.OverlongRaisesGp := by
  refine ⟨fun s i bs hs henc hlen h ht => ?_, fun s pfx p0 p1 p2 hs hlen h ht => ?_⟩
  · have hstep : step s = raiseTooLong (kindOf i) (!i.legal) s :=
      step_of_tooLong hs ((decode_fetchWindow_of_encoding henc h ht).trans (verdictOf_of_tooLong _ hlen))
    rw [hstep]
    refine ⟨fun hlegal henabled => ?_, raiseTooLong_fault _ _ s⟩
    rw [hlegal]
    exact raiseTooLong_of_legal henabled
  · have hlong : ¬ lengthLegal (pfx.length + 4) = true := fun hle => absurd (of_decide_eq_true hle) (by omega)
    rw [step_of_tooLong hs ((decode_fetchWindow_of_reserved h ht).trans (if_neg hlong))]
    exact raiseTooLong_fault _ _ s

/-! ## Neighbours of the six encodings (R73, R75, R78, R110) -/

theorem orderOf_eq_none {op : Byte} (h : op ≠ 0x9D#8 ∧ op ≠ 0xAD#8 ∧ op ≠ 0xBD#8) : orderOf op = none := by
  obtain ⟨h132, h213, h231⟩ := h
  simp only [orderOf, if_neg h132, if_neg h213, if_neg h231]

/-- R76: the fields of P0 and P1 that tell the map, the reserved bits and pp, taken apart. -/
theorem evexPayload_fields (p0 p1 : Byte) (h0 : p0.extractLsb' 0 4 = 2#4) (h1 : p1.extractLsb' 0 3 = 5#3) :
    (p0.extractLsb' 2 2 = 0#2 ∧ p0.extractLsb' 0 2 = 2#2) ∧ p1.getLsbD 2 = true ∧ p1.extractLsb' 0 2 = 1#2 := by
  constructor
  · revert p0; decide +kernel
  · revert p1; decide +kernel

theorem decode_neighbour {bs : List Byte} {why : DecodeRefusal} (h : Neighbour bs why) (pfx : List LegacyPrefix) :
    decode (pfx.map LegacyPrefix.byte ++ bs) = .refused why := by
  cases h with
  | otherFirst b rest hp h =>
    obtain ⟨hvex, hevex⟩ := h
    simp only [decode, takePrefixes_append pfx hp, if_neg hvex, if_neg hevex]
  | vexPayload b1 b2 rest h =>
    have hpayload : ¬ (b1.extractLsb' 0 5 = 2#5 ∧ b2.extractLsb' 0 2 = 1#2 ∧ b2.getLsbD 7 = true) := by
      simpa only [not_and_or, ne_eq, Bool.not_eq_true] using h
    simp only [decode_prefixes_vex, decodeVex, if_neg hpayload]
  | evexPayload p0 p1 p2 rest hr h =>
    obtain ⟨hr0, hr1⟩ := hr
    have hreserved : ¬ (p0.extractLsb' 2 2 ≠ 0#2 ∨ p1.getLsbD 2 = false) := by simp [hr0, hr1]
    have hpayload : ¬ (p0.extractLsb' 0 2 = 2#2 ∧ p1.extractLsb' 0 2 = 1#2 ∧ p1.getLsbD 7 = true) := by
      simpa only [not_and_or, ne_eq, Bool.not_eq_true] using h
    simp only [decode_prefixes_evex, decodeEvex, if_neg hreserved, if_neg hpayload]
  | vexOpcode b1 b2 op rest hp h =>
    simp only [decode_prefixes_vex, decodeVex, if_pos hp, orderOf_eq_none h]
  | evexOpcode p0 p1 p2 op rest hp h =>
    obtain ⟨h0, h1, hw⟩ := hp
    obtain ⟨⟨hr0, hmap⟩, hr1, hpp⟩ := evexPayload_fields p0 p1 h0 h1
    have hreserved : ¬ (p0.extractLsb' 2 2 ≠ 0#2 ∨ p1.getLsbD 2 = false) := by simp [hr0, hr1]
    have hpayload : p0.extractLsb' 0 2 = 2#2 ∧ p1.extractLsb' 0 2 = 1#2 ∧ p1.getLsbD 7 = true := ⟨hmap, hpp, hw⟩
    simp only [decode_prefixes_evex, decodeEvex, if_neg hreserved, if_pos hpayload, orderOf_eq_none h]

/-- At most five bytes make a neighbour, whatever follows them. -/
theorem Neighbour.head {bs : List Byte} {why : DecodeRefusal} (h : Neighbour bs why) :
    ∃ hd rest, bs = hd ++ rest ∧ hd.length ≤ 5 ∧ ∀ more, Neighbour (hd ++ more) why := by
  cases h with
  | otherFirst b rest hp h => exact ⟨[b], rest, rfl, by simp, fun more => .otherFirst b more hp h⟩
  | vexPayload b1 b2 rest h => exact ⟨[_, b1, b2], rest, rfl, by simp, fun more => .vexPayload b1 b2 more h⟩
  | evexPayload p0 p1 p2 rest hr h =>
    exact ⟨[_, p0, p1, p2], rest, rfl, by simp, fun more => .evexPayload p0 p1 p2 more hr h⟩
  | vexOpcode b1 b2 op rest hp h =>
    exact ⟨[_, b1, b2, op], rest, rfl, by simp, fun more => .vexOpcode b1 b2 op more hp h⟩
  | evexOpcode p0 p1 p2 op rest hp h =>
    exact ⟨[_, p0, p1, p2, op], rest, rfl, by simp, fun more => .evexOpcode p0 p1 p2 op more hp h⟩

/-- Settles O13: a neighbour's first bytes settle the verdict, and the window holds them. -/
theorem neighboursRefused : Obligations.NeighboursRefused := by
  intro s pfx tail why hs h ht
  obtain ⟨hd, rest, rfl, hlen, hmore⟩ := h.head
  rw [← List.append_assoc] at ht
  exact step_of_refused hs (decode_fetchWindow_of_settled (by omega) ht.of_append fun more =>
    decode_neighbour (hmore more) pfx)

end Sys2Proof.Machine

/-! ## Embedded rounding (R94, R149, R172) -/

namespace Sys2Proof.Machine

theorem State.scopeRefusal_eq_none_iff (s : State) :
    s.scopeRefusal = none ↔ s.longMode = true ∧ s.debugArmed = false ∧ mxcsrReserved s.mxcsr = 0#16 := by
  cases hl : s.longMode <;> cases hd : s.debugArmed <;> simp [State.scopeRefusal, hl, hd]

/-- Of MXCSR only bits 31:16 bear on being ready (R205, R206, R243). -/
theorem State.Ready.withMxcsr {s : State} {k : EncKind} (hs : s.Ready k) {m : BitVec 32} (hm : mxcsrReserved m = 0#16) :
    ({ s with mxcsr := m } : State).Ready k where
  scope := by
    obtain ⟨hlong, hdebug, -⟩ := s.scopeRefusal_eq_none_iff.mp hs.scope
    exact (State.scopeRefusal_eq_none_iff _).mpr ⟨hlong, hdebug, hm⟩
  enabled := hs.enabled
  available := hs.available

/-- R149: of MXCSR the controls under suppress-all-exceptions read DAZ and FTZ alone. -/
theorem saeControl_congr {m m' : BitVec 32} (hdaz : m.getLsbD 6 = m'.getLsbD 6) (hftz : m.getLsbD 15 = m'.getLsbD 15) :
    saeControl m = saeControl m' := by
  simp only [saeControl, mxcsrControl, hdaz, hftz]

theorem saeControl_allMasked (m : BitVec 32) : (saeControl m).AllMasked := ⟨rfl, rfl, rfl, rfl, rfl⟩

section
variable {o : EvexOperands} {n : VregNum} {rm : RoundingMode} (h3 : o.src3 = .reg n (some rm))
include h3

theorem embeddedRounding_of_src3 : embeddedRounding o = some rm := by
  simp only [embeddedRounding, h3]

theorem evexOperand3_of_src3 (s : State) : EvexOperand3 o (s.low n) s := by
  simp only [EvexOperand3, h3]

theorem evexRounding_of_src3 (s : State) : evexRounding o s = rm := by
  simp only [evexRounding, embeddedRounding_of_src3 h3]

theorem evexControl_of_src3 (s : State) : evexControl o s = saeControl s.mxcsr := by
  simp only [evexControl, embeddedRounding_of_src3 h3]

theorem evexFlags_of_src3 : evexFlags o = fun _ => {} := by
  funext f
  simp only [evexFlags, embeddedRounding_of_src3 h3]

/-- R172: an EVEX form with embedded rounding completes without a flag, and delivers one element for every MXCSR of the
same DAZ and FTZ. -/
theorem exec_embeddedRounding {s : State} (hs : s.Ready .evex) (ord : FmaOrder) :
    ∃ r, ∀ m : BitVec 32, mxcsrReserved m = 0#16 → saeControl m = saeControl s.mxcsr →
      exec (ord.evex o) { s with mxcsr := m } =
        .next (({ s with mxcsr := m } : State).completed o.dst r {} o.length) := by
  simp only [exec_evex]
  cases hmask : maskBit o s with
  | false =>
    refine ⟨if o.zeroing then 0 else s.low o.dst, fun m hm _ => ?_⟩
    exact execEvex_of_maskedOff (hs.withMxcsr hm) (evexOperand3_of_src3 h3 _).read hmask
  | true =>
    let p := roles ord (s.low o.dst) (s.low o.src2) (s.low n)
    obtain ⟨r, f, hv⟩ := fnmadd64_of_allMasked (saeControl_allMasked s.mxcsr) p.x p.y p.z rm
    refine ⟨r, fun m hm hctl => ?_⟩
    have hr : evexResult ord o (s.low n) { s with mxcsr := m } = .value r f := by
      rw [evexResult, evexRounding_of_src3 h3, evexControl_of_src3 h3, hctl]
      exact hv _
    have hnext := execEvex_of_value (hs.withMxcsr hm) (evexOperand3_of_src3 h3 _).read hmask hr
    rwa [evexFlags_of_src3 h3] at hnext

end

/-- Settles O21: with every exception masked FNMAdd64 is a value, of which no flag is kept. -/
theorem embeddedRoundingSuppresses : Obligations.EmbeddedRoundingSuppresses := by
  intro o n rm s hs h3
  refine ⟨fun ord => ?_, fun hmask => ?_⟩
  · obtain ⟨-, -, hreserved⟩ := s.scopeRefusal_eq_none_iff.mp hs.scope
    obtain ⟨r, hr⟩ := exec_embeddedRounding h3 hs ord
    refine ⟨_, hr s.mxcsr hreserved rfl, orFlags_none s.mxcsr, fun m hdaz hftz hm => ?_⟩
    rw [hr m hm (saeControl_congr hdaz hftz)]
    simp only [State.completed, State.writeScalar, State.vregAt, orFlags_none]
  · have h := computes_evex hs (evexOperand3_of_src3 h3 s) ((maskBit_eq_true_iff o s).mpr hmask)
    simp only [evexRounding_of_src3 h3, evexControl_of_src3 h3, evexFlags_of_src3 h3] at h
    exact ⟨h .o132, h .o213, h .o231⟩

/-! ## Other bits of the vector registers (R89, R90, R164) -/

/-- The state with other vector registers. -/
def State.withVreg (v : Vector (BitVec 512) 32) (s : State) : State := { s with vreg := v }

theorem State.ready_of_enableFault {s : State} {k : EncKind} (hs : s.scopeRefusal = none)
    (he : s.enableFault k = none) : s.Ready k := by
  unfold State.enableFault at he
  split at he
  · cases he
  · rename_i henabled
    split at he
    · cases he
    · rename_i hts
      exact ⟨hs, by simpa using henabled, by simpa using hts⟩

theorem State.Ready.withVreg {s : State} {k : EncKind} (hs : s.Ready k) (v : Vector (BitVec 512) 32) :
    (s.withVreg v).Ready k := ⟨hs.scope, hs.enabled, hs.available⟩

theorem OperandBlind.withVreg (v : Vector (BitVec 512) 32) : OperandBlind (State.withVreg v) where
  translate _ := rfl
  canonicalOperand _ := rfl
  misaligned _ := rfl
  mem _ := rfl
  draws _ := rfl
  consumeDraw _ := rfl
  record x _ := by cases x <;> rfl

/-- R54, R97: an address is computed from the general registers, `pc` and the two segment bases alone. -/
theorem linearAddr_congr {s u : State} (hgpr : u.gpr = s.gpr) (hpc : u.pc = s.pc) (hfs : u.fsBase = s.fsBase)
    (hgs : u.gsBase = s.gsBase) (pfx : List LegacyPrefix) (n8 len : Nat) (a : MemAddr) :
    linearAddr pfx n8 len a u = linearAddr pfx n8 len a s := by
  have hreg (w : Nat) (n : GprNum) : u.addrReg w n = s.addrReg w n := by
    simp only [State.addrReg, State.gprAt, hgpr]
  have haddr (w : Nat) : effAddrAt w n8 len u a = effAddrAt w n8 len s a := by
    cases a <;> simp only [effAddrAt, State.indexPart, hreg, hpc]
  have hbase (seg : Option SegOverride) : u.segBase seg = s.segBase seg := by
    cases seg with
    | none => rfl
    | some seg =>
      cases seg with
      | fs => exact hfs
      | gs => exact hgs
  simp only [linearAddr, effAddr, haddr, hbase]

/-- R90: a memory operand does not depend on any vector register. -/
theorem memOperand_withVreg {v : Vector (BitVec 512) 32} {s : State} {pfx : List LegacyPrefix} {n8 len : Nat}
    {a : MemAddr} {c : Word} (h : memOperand pfx n8 len a s = .ok c) :
    memOperand pfx n8 len a (s.withVreg v) = .ok c := by
  unfold memOperand at h ⊢
  rw [linearAddr_congr (u := s.withVreg v) (s := s) rfl rfl rfl rfl, (OperandBlind.withVreg v).memRead, h]
  rfl

theorem mem_vexRegs (o : VexOperands) :
    vexReg o.dst ∈ operandRegs.vexRegs o ∧ vexReg o.src2 ∈ operandRegs.vexRegs o ∧
      ∀ n, o.src3 = .reg n → vexReg n ∈ operandRegs.vexRegs o := by
  cases h3 : o.src3 <;> simp [operandRegs.vexRegs, h3]

theorem mem_evexRegs (o : EvexOperands) :
    o.dst ∈ operandRegs.evexRegs o ∧ o.src2 ∈ operandRegs.evexRegs o ∧
      ∀ n er, o.src3 = .reg n er → n ∈ operandRegs.evexRegs o := by
  cases h3 : o.src3 <;> simp [operandRegs.evexRegs, h3]

theorem execVex_withVreg {v : Vector (BitVec 512) 32} {s t : State} {ord : FmaOrder} {o : VexOperands}
    (hlow : ∀ n ∈ operandRegs.vexRegs o, (s.withVreg v).low n = s.low n) (h : execVex ord o s = .next t) :
    ∃ r f, t = s.completed (vexReg o.dst) r f o.length ∧
      execVex ord o (s.withVreg v) = .next ((s.withVreg v).completed (vexReg o.dst) r f o.length) := by
  obtain ⟨hs, he, c, r, f, hc, hr, rfl⟩ := execVex_next h
  obtain ⟨hdst, hsrc2, hsrc3⟩ := mem_vexRegs o
  have hread : readVexSrc3 o (s.withVreg v) = .ok c := by
    cases h3 : o.src3 with
    | reg n =>
      simp only [readVexSrc3, h3] at hc ⊢
      rw [hlow _ (hsrc3 n h3), hc]
    | mem a =>
      simp only [readVexSrc3, h3] at hc ⊢
      exact memOperand_withVreg hc
  have hresult : vexResult ord o c (s.withVreg v) = .value r f := by
    rw [vexResult, hlow _ hdst, hlow _ hsrc2]
    exact hr
  exact ⟨r, f, rfl, execVex_of_value ((State.ready_of_enableFault hs he).withVreg v) hread hresult⟩

theorem execEvex_withVreg {v : Vector (BitVec 512) 32} {s t : State} {ord : FmaOrder} {o : EvexOperands}
    (hlow : ∀ n ∈ operandRegs.evexRegs o, (s.withVreg v).low n = s.low n) (h : execEvex ord o s = .next t) :
    ∃ r f, t = s.completed o.dst r f o.length ∧
      execEvex ord o (s.withVreg v) = .next ((s.withVreg v).completed o.dst r f o.length) := by
  obtain ⟨hs, he, c, r, f, hc, hdelivers, rfl⟩ := execEvex_next h
  obtain ⟨hdst, hsrc2, hsrc3⟩ := mem_evexRegs o
  have hready := (State.ready_of_enableFault hs he).withVreg v
  have hread : readEvexSrc3 o (s.withVreg v) = .ok c := by
    cases h3 : o.src3 with
    | reg n er =>
      simp only [readEvexSrc3, h3] at hc ⊢
      rw [hlow _ (hsrc3 n er h3), hc]
    | mem a b =>
      simp only [readEvexSrc3, h3] at hc ⊢
      exact memOperand_withVreg hc
  refine ⟨r, f, rfl, ?_⟩
  obtain ⟨hm, g, hr, rfl⟩ | ⟨hm, rfl, rfl⟩ := hdelivers
  · have hresult : evexResult ord o c (s.withVreg v) = .value r g := by
      rw [evexResult, hlow _ hdst, hlow _ hsrc2]
      exact hr
    exact execEvex_of_value hready hread hm hresult
  · rw [← hlow _ hdst]
    exact execEvex_of_maskedOff hready hread hm

/-- R164: with other vector registers that agree on bits 63:0 of the operands, the same element and flags are
delivered. -/
theorem exec_withVreg {v : Vector (BitVec 512) 32} {s t : State} {i : Instr}
    (hlow : ∀ n ∈ operandRegs i, (s.withVreg v).low n = s.low n) (h : exec i s = .next t) :
    ∃ r f, t = s.completed (destOf i) r f i.length ∧
      exec i (s.withVreg v) = .next ((s.withVreg v).completed (destOf i) r f i.length) := by
  cases i with
  | vfnmadd132sdVex o => exact execVex_withVreg hlow h
  | vfnmadd213sdVex o => exact execVex_withVreg hlow h
  | vfnmadd231sdVex o => exact execVex_withVreg hlow h
  | vfnmadd132sdEvex o => exact execEvex_withVreg hlow h
  | vfnmadd213sdEvex o => exact execEvex_withVreg hlow h
  | vfnmadd231sdEvex o => exact execEvex_withVreg hlow h

/-- Settles O30: the two completions deliver one element with one set of flags. -/
theorem onlyLowBitsRead : Obligations.OnlyLowBitsRead := by
  intro i s t v u hlow h
  obtain ⟨r, f, rfl, hu⟩ := exec_withVreg hlow h
  exact ⟨_, hu, by rw [State.completed_low, State.completed_low], rfl, rfl⟩

/-! ## Effective addresses (R97 to R101) -/

theorem effAddr_of_no_addrSize {pfx : List LegacyPrefix} (h : .addrSize ∉ pfx) (n8 len : Nat) (a : MemAddr)
    (s : State) : effAddr pfx n8 len a s = effAddrAt 64 n8 len s a := by
  have h64 : ¬ addrSize32 pfx = true := by simpa [addrSize32] using h
  exact if_neg h64

theorem effAddr_of_addrSize {pfx : List LegacyPrefix} (h : .addrSize ∈ pfx) (n8 len : Nat) (a : MemAddr) (s : State) :
    effAddr pfx n8 len a s = (effAddrAt 32 n8 len s a).setWidth 64 := by
  have h32 : addrSize32 pfx = true := by simpa [addrSize32] using h
  exact if_pos h32

@[simp] theorem State.addrReg_64 (s : State) (n : GprNum) : s.addrReg 64 n = s.gprAt n := BitVec.setWidth_eq _

theorem effAddrAt_base (n8 len : Nat) (s : State) (b : GprNum) (d : Disp) :
    effAddrAt 64 n8 len s (.base b d) = s.gprAt b + dispValue 64 n8 d := by
  rw [effAddrAt, State.addrReg_64]

theorem effAddrAt_sib (n8 len : Nat) (s : State) (b i : GprNum) (sc : BitVec 2) (d : Disp) :
    effAddrAt 64 n8 len s (.sib b i sc d) =
      s.gprAt b + (if i = 4#4 then 0 else s.gprAt i <<< sc.toNat) + dispValue 64 n8 d := by
  rw [effAddrAt, State.indexPart, State.addrReg_64, State.addrReg_64]

theorem effAddrAt_sibNoBase (n8 len : Nat) (s : State) (i : GprNum) (sc : BitVec 2) (d : BitVec 32) :
    effAddrAt 64 n8 len s (.sibNoBase i sc d) =
      d.signExtend 64 + (if i = 4#4 then 0 else s.gprAt i <<< sc.toNat) := by
  rw [effAddrAt, State.indexPart, State.addrReg_64]

/-- What a displacement that was read adds (R96, R101). -/
theorem decodeDisp_value {mod : BitVec 2} {bs : List Byte} {d : Disp} (h : decodeDisp mod bs = some d) (n8 : Nat) :
    (mod = 0#2 → dispValue 64 n8 d = 0) ∧
    (mod = 1#2 → ∃ e, bs.head? = some e ∧ dispValue 64 n8 d = e.signExtend 64 * BitVec.ofNat 64 n8) ∧
    (mod = 2#2 → ∃ e, takeDisp32 bs = some e ∧ dispValue 64 n8 d = e.signExtend 64) := by
  refine ⟨?_, ?_, ?_⟩ <;> rintro rfl
  · cases h
    rfl
  · obtain ⟨e, he, rfl⟩ := Option.map_eq_some_iff.mp h
    exact ⟨e, he, rfl⟩
  · obtain ⟨e, he, rfl⟩ := Option.map_eq_some_iff.mp h
    exact ⟨e, he, rfl⟩

/-- Everything a memory operand without a SIB byte can be read as (R97). -/
theorem decodeMem_of_no_sib {x b : Bool} {mod : BitVec 2} {rm : BitVec 3} {bs : List Byte} {a : MemAddr}
    (hrm : rm ≠ 4#3) (h : decodeMem x b mod rm bs = some a) :
    (mod = 0#2 ∧ rm = 5#3 ∧ ∃ d, takeDisp32 bs = some d ∧ a = .ripRel d) ∨
      (¬ (mod = 0#2 ∧ rm = 5#3) ∧ ∃ d, decodeDisp mod bs = some d ∧ a = .base (ext4 b rm) d) := by
  unfold decodeMem at h
  rw [if_neg hrm] at h
  split at h
  · rename_i hrip
    obtain ⟨hmod, h5⟩ := hrip
    obtain ⟨d, hd, rfl⟩ := Option.map_eq_some_iff.mp h
    exact .inl ⟨hmod, h5, d, hd, rfl⟩
  · rename_i hbase
    obtain ⟨d, hd, rfl⟩ := Option.map_eq_some_iff.mp h
    exact .inr ⟨hbase, d, hd, rfl⟩

/-- Everything a memory operand with a SIB byte can be read as (R99). -/
theorem decodeMem_of_sib {x b : Bool} {mod : BitVec 2} {bs : List Byte} {a : MemAddr}
    (h : decodeMem x b mod 4#3 bs = some a) :
    ∃ sib rest, bs = sib :: rest ∧
      ((low3 sib = 5#3 ∧ mod = 0#2 ∧ ∃ d, takeDisp32 rest = some d ∧
          a = .sibNoBase (ext4 x (mid3 sib)) (hi2 sib) d) ∨
        (¬ (low3 sib = 5#3 ∧ mod = 0#2) ∧ ∃ d, decodeDisp mod rest = some d ∧
          a = .sib (ext4 b (low3 sib)) (ext4 x (mid3 sib)) (hi2 sib) d)) := by
  unfold decodeMem at h
  rw [if_pos rfl] at h
  split at h
  · cases h
  · rename_i sib rest
    refine ⟨sib, rest, rfl, ?_⟩
    split at h
    · rename_i hnone
      obtain ⟨hbase, hmod⟩ := hnone
      obtain ⟨d, hd, rfl⟩ := Option.map_eq_some_iff.mp h
      exact .inl ⟨hbase, hmod, d, hd, rfl⟩
    · rename_i hbase
      obtain ⟨d, hd, rfl⟩ := Option.map_eq_some_iff.mp h
      exact .inr ⟨hbase, d, hd, rfl⟩

/-- Settles O41: the address of each form that can be read, at the address size 64. -/
theorem effectiveAddressForms : Obligations.EffectiveAddressForms := by
  intro s pfx n8 len x b mod rm tail a hpfx hmod h ea
  have hea : ea = effAddrAt 64 n8 len s a := effAddr_of_no_addrSize hpfx n8 len a s
  rw [hea]
  by_cases hrm : rm = 4#3
  · subst hrm
    refine ⟨fun _ hne => absurd rfl hne, fun _ hne => absurd hne (by decide), fun _ hne => absurd rfl hne,
      fun _ hne => absurd rfl hne, fun _ => ?_⟩
    obtain ⟨sib, rest, rfl, ⟨hbase, rfl, d, hd, rfl⟩ | ⟨hbase, d, hd, rfl⟩⟩ := decodeMem_of_sib h
    · exact ⟨sib, rest, rfl, fun _ _ => ⟨d, hd, effAddrAt_sibNoBase _ _ _ _ _ _⟩, fun _ hne => absurd hbase hne,
        fun hne => absurd hne (by decide), fun hne => absurd hne (by decide)⟩
    · obtain ⟨h0, h1, h2⟩ := decodeDisp_value hd n8
      rw [effAddrAt_sib]
      refine ⟨sib, rest, rfl, fun hm hb => absurd ⟨hb, hm⟩ hbase, fun hm _ => ?_, fun hm => ?_, fun hm => ?_⟩
      · rw [h0 hm]
        exact BitVec.add_zero _
      · obtain ⟨e, he, hv⟩ := h1 hm
        exact ⟨e, he, congrArg _ hv⟩
      · obtain ⟨e, he, hv⟩ := h2 hm
        exact ⟨e, he, congrArg _ hv⟩
  · obtain ⟨rfl, rfl, d, hd, rfl⟩ | ⟨hbase, d, hd, rfl⟩ := decodeMem_of_no_sib hrm h
    · exact ⟨fun _ _ hne => absurd rfl hne, fun _ _ => ⟨d, hd, BitVec.setWidth_eq _⟩,
        fun hne => absurd hne (by decide), fun hne => absurd hne (by decide), fun hsib => absurd hsib hrm⟩
    · obtain ⟨h0, h1, h2⟩ := decodeDisp_value hd n8
      rw [effAddrAt_base]
      refine ⟨fun hm _ _ => ?_, fun hm h5 => absurd ⟨hm, h5⟩ hbase, fun hm _ => ?_, fun hm _ => ?_,
        fun hsib => absurd hsib hrm⟩
      · rw [h0 hm]
        exact BitVec.add_zero _
      · obtain ⟨e, he, hv⟩ := h1 hm
        exact ⟨e, he, congrArg _ hv⟩
      · obtain ⟨e, he, hv⟩ := h2 hm
        exact ⟨e, he, congrArg _ hv⟩

/-! ## 32-bit addresses (R100) -/

theorem setWidth_signExtend_32 {n : Nat} (d : BitVec n) :
    (d.signExtend 64).setWidth 32 = d.signExtend 32 := by
  apply BitVec.eq_of_getLsbD_eq
  intro j hj
  simp only [BitVec.getLsbD_setWidth, BitVec.getLsbD_signExtend, hj, show j < 64 by omega, decide_true, Bool.true_and]

theorem dispValue_32 (n8 : Nat) (d : Disp) : (dispValue 64 n8 d).setWidth 32 = dispValue 32 n8 d := by
  cases d with
  | none => rfl
  | d8 d =>
    rw [dispValue, dispValue, BitVec.setWidth_mul _ _ (by decide), setWidth_signExtend_32,
      BitVec.setWidth_ofNat_of_le (by decide)]
  | d32 d => exact setWidth_signExtend_32 d

theorem State.addrReg_32 (s : State) (n : GprNum) : (s.addrReg 64 n).setWidth 32 = s.addrReg 32 n :=
  congrArg (BitVec.setWidth 32) (s.addrReg_64 n)

theorem State.indexPart_32 (s : State) (index : GprNum) (scale : BitVec 2) :
    (s.indexPart 64 index scale).setWidth 32 = s.indexPart 32 index scale := by
  unfold State.indexPart
  split
  · rfl
  · rw [BitVec.setWidth_shiftLeft_of_le (by decide), s.addrReg_32]

/-- R100: truncation commutes with every operation of an effective address. -/
theorem effAddrAt_32 (n8 len : Nat) (s : State) (a : MemAddr) :
    effAddrAt 32 n8 len s a = (effAddrAt 64 n8 len s a).setWidth 32 := by
  have hadd (x y : Word) : (x + y).setWidth 32 = x.setWidth 32 + y.setWidth 32 := BitVec.setWidth_add x y (by decide)
  cases a with
  | ripRel d => rw [effAddrAt, effAddrAt, BitVec.setWidth_eq]
  | base n d => rw [effAddrAt, effAddrAt, hadd, s.addrReg_32, dispValue_32]
  | sib n i sc d => rw [effAddrAt, effAddrAt, hadd, hadd, s.addrReg_32, s.indexPart_32, dispValue_32]
  | sibNoBase i sc d =>
    rw [effAddrAt, effAddrAt, hadd, s.indexPart_32, setWidth_signExtend_32]

/-- Settles O42: the 32-bit address is the 64-bit one truncated. -/
theorem addressSize32 : Obligations.AddressSize32 := by
  intro pfx n8 len a s h
  rw [effAddr_of_addrSize h, effAddr_of_no_addrSize (List.not_mem_nil), effAddrAt_32]

/-! ## The scale of a displacement (R101) -/

/-- R54, R97: without 64H, 65H and 67H the linear address is the 64-bit effective one. -/
theorem linearAddr_of_no_override {pfx : List LegacyPrefix} (hfs : .fs ∉ pfx) (hgs : .gs ∉ pfx)
    (hsize : .addrSize ∉ pfx) (n8 len : Nat) (a : MemAddr) (s : State) :
    linearAddr pfx n8 len a s = effAddrAt 64 n8 len s a := by
  rw [linearAddr, (segOverride_eq_none_iff pfx).mpr ⟨hfs, hgs⟩, State.segBase, effAddr_of_no_addrSize hsize]
  exact BitVec.zero_add _

theorem readVexSrc3_base {o : VexOperands} (hfs : .fs ∉ o.pfx) (hgs : .gs ∉ o.pfx) (hsize : .addrSize ∉ o.pfx)
    {b : GprNum} {d : Disp} (h3 : o.src3 = .mem (.base b d)) (s : State) :
    readVexSrc3 o s = memRead (s.gprAt b + dispValue 64 1 d) (stackAccess o.pfx (.base b d)) s := by
  simp only [readVexSrc3, h3, memOperand, linearAddr_of_no_override hfs hgs hsize, effAddrAt_base]

theorem readEvexSrc3_base {o : EvexOperands} (hfs : .fs ∉ o.pfx) (hgs : .gs ∉ o.pfx) (hsize : .addrSize ∉ o.pfx)
    {b : GprNum} {d : Disp} {bc : Bool} (h3 : o.src3 = .mem (.base b d) bc) (s : State) :
    readEvexSrc3 o s = memRead (s.gprAt b + dispValue 64 8 d) (stackAccess o.pfx (.base b d)) s := by
  simp only [readEvexSrc3, h3, memOperand, linearAddr_of_no_override hfs hgs hsize, effAddrAt_base]

/-- Settles O44: `dispValue` with the scale of each kind of form. -/
theorem displacementScaling : Obligations.DisplacementScaling := by
  refine ⟨fun o s b d hfs hgs hsize h3 => ?_, fun o s b d hfs hgs hsize h3 => readEvexSrc3_base hfs hgs hsize h3 s,
    fun o s b d hfs hgs hsize h3 => readVexSrc3_base hfs hgs hsize h3 s,
    fun o s b d hfs hgs hsize h3 => readEvexSrc3_base hfs hgs hsize h3 s⟩
  have hscale : d.signExtend 64 * BitVec.ofNat 64 1 = d.signExtend 64 := BitVec.mul_one _
  rw [readVexSrc3_base hfs hgs hsize h3, dispValue, hscale]

end Sys2Proof.Machine

/-! The proofs of the family 40_fnmadd_numerics: what FNMAdd64 returns, case by case, and that its one rounding is the
correct one. -/

namespace Sys2Proof.Machine

/-! ## Classes and fields of a pattern (R120, R121) -/

theorem isNaN_of_isFinite {w : Word} (h : isFinite w = true) : isNaN w = false := by
  simp_all [isFinite, isNaN]

theorem isInf_of_isFinite {w : Word} (h : isFinite w = true) : isInf w = false := by
  simp_all [isFinite, isInf]

theorem isNaN_of_isInf {w : Word} (h : isInf w = true) : isNaN w = false := by
  simp_all [isInf, isNaN]

theorem isZero_of_isInf {w : Word} (h : isInf w = true) : isZero w = false := by
  simp_all [isInf, isZero]

/-- A pattern is its sign, its exponent and its fraction. -/
theorem word_fields (w : Word) : BitVec.ofBool (fSign w) ++ w.extractLsb' 52 11 ++ w.extractLsb' 0 52 = w := by
  apply BitVec.eq_of_getLsbD_eq
  intro i hi
  rw [BitVec.getLsbD_append, BitVec.getLsbD_append, BitVec.getLsbD_extractLsb', BitVec.getLsbD_extractLsb',
    BitVec.getLsbD_ofBool]
  split
  · simp [*]
  · split
    · rw [show 52 + (i - 52) = i by omega]
      simp [*]
    · have h63 : i = 63 := by omega
      simp [h63, fSign]

theorem extractLsb'_of_fExp {w : Word} {e : Nat} (h : fExp w = e) : w.extractLsb' 52 11 = BitVec.ofNat 11 e := by
  rw [← h, fExp, BitVec.ofNat_toNat, BitVec.setWidth_eq]

theorem extractLsb'_of_fFrac {w : Word} {m : Nat} (h : fFrac w = m) : w.extractLsb' 0 52 = BitVec.ofNat 52 m := by
  rw [← h, fFrac, BitVec.ofNat_toNat, BitVec.setWidth_eq]

/-- An infinity is known by its sign. -/
theorem signedInf_fSign {w : Word} (h : isInf w = true) : signedInf (fSign w) = w := by
  simp only [isInf, Bool.and_eq_true, beq_iff_eq] at h
  have hw := word_fields w
  rwa [extractLsb'_of_fExp h.1, extractLsb'_of_fFrac h.2] at hw

theorem signedInf_eq (neg : Bool) :
    signedInf neg = if neg then 0xFFF0000000000000#64 else 0x7FF0000000000000#64 := by
  cases neg <;> decide

theorem signedZero_eq (neg : Bool) : signedZero neg = if neg then 0x8000000000000000#64 else 0 := by
  cases neg <;> decide

theorem signedZero_getLsbD (neg : Bool) {i : Nat} (hi : i < 64) :
    (signedZero neg).getLsbD i = (decide (i = 63) && neg) := by
  rw [signedZero, BitVec.getLsbD_append, BitVec.getLsbD_zero, BitVec.getLsbD_ofBool]
  split
  · simp [show i ≠ 63 by omega]
  · simp [show i = 63 by omega]

/-- Keeping the sign bit alone gives the zero of that sign. -/
theorem and_signBit (w : Word) : w &&& 0x8000000000000000#64 = signedZero (fSign w) := by
  apply BitVec.eq_of_getLsbD_eq
  intro i hi
  rw [BitVec.getLsbD_and, signedZero_getLsbD _ hi, show 0x8000000000000000#64 = signedZero true from rfl,
    signedZero_getLsbD _ hi]
  by_cases h63 : i = 63
  · simp [h63, fSign]
  · simp [h63]

/-! ### Quiet NaNs -/

@[simp] theorem fSign_quiet (w : Word) : fSign (quiet w) = fSign w := by
  simp [fSign, quiet]

@[simp] theorem fExp_quiet (w : Word) : fExp (quiet w) = fExp w := by
  have hq : (0x0008000000000000#64).extractLsb' 52 11 = 0#11 := by decide
  simp [fExp, quiet, BitVec.extractLsb'_or]

theorem quiet_getLsbD_51 (w : Word) : (quiet w).getLsbD 51 = true := by
  simp [quiet]

theorem fFrac_quiet_ne_zero (w : Word) : fFrac (quiet w) ≠ 0 := by
  intro h
  have hbit := congrArg (fun v : BitVec 52 => v.getLsbD 51) (extractLsb'_of_fFrac h)
  simp only [BitVec.getLsbD_extractLsb', Nat.zero_add, quiet_getLsbD_51] at hbit
  exact absurd hbit (by decide)

theorem quiet_payload (w : Word) : (quiet w).extractLsb' 0 51 = w.extractLsb' 0 51 := by
  simp [quiet, BitVec.extractLsb'_or]

theorem isNaN_quiet {w : Word} (h : isNaN w = true) : isNaN (quiet w) = true := by
  simp only [isNaN, fExp_quiet, Bool.and_eq_true, bne_iff_ne] at h ⊢
  exact ⟨h.1, fFrac_quiet_ne_zero w⟩

theorem isSNaN_quiet (w : Word) : isSNaN (quiet w) = false := by
  simp [isSNaN, quiet_getLsbD_51]

/-! ## The steps of R133 as `fnmadd64` takes them, DAZ having been applied -/

@[simp] theorem productSign_applyDaz (ctl : FpControl) (x y : Word) :
    productSign (applyDaz ctl x) (applyDaz ctl y) = productSign x y := by
  simp [productSign]

theorem isZero_applyDaz_iff (ctl : FpControl) (w : Word) : isZero (applyDaz ctl w) = true ↔ readsAsZero ctl w := by
  simp [readsAsZero]

theorem denormalOperand_eq (ctl : FpControl) (x y z : Word) :
    (isDenormal (applyDaz ctl x) || isDenormal (applyDaz ctl y) || isDenormal (applyDaz ctl z)) =
      denormalOperand ctl x y z := by
  simp only [isDenormal_applyDaz, denormalOperand]
  cases ctl.daz <;> rfl

section
variable {x y z : Word} (rm : RoundingMode) (ctl : FpControl) (pe : Bool)

/-- R136: the NaN chosen is one, which DAZ does not touch. -/
theorem firstNaN_applyDaz (h : isNaN x = true ∨ isNaN y = true ∨ isNaN z = true) :
    firstNaN (applyDaz ctl x) (applyDaz ctl y) (applyDaz ctl z) = firstNaN x y z := by
  simp only [firstNaN, isNaN_applyDaz]
  split
  · next hx => exact applyDaz_of_isNaN ctl hx
  · split
    · next hy => exact applyDaz_of_isNaN ctl hy
    · next hx hy => exact applyDaz_of_isNaN ctl ((h.resolve_left hx).resolve_left hy)

theorem isNaN_firstNaN (h : isNaN x = true ∨ isNaN y = true ∨ isNaN z = true) :
    isNaN (firstNaN x y z) = true := by
  unfold firstNaN
  split
  · assumption
  · split
    · assumption
    · next hx hy => exact (h.resolve_left hx).resolve_left hy

/-- R133 step 2. -/
theorem fnmadd64_of_isNaN (h : isNaN x = true ∨ isNaN y = true ∨ isNaN z = true) :
    fnmadd64 x y z rm ctl pe = nanResult ctl x y z := by
  have hnan : (isNaN x || isNaN y || isNaN z) = true := by simpa [or_assoc] using h
  simp only [fnmadd64, fnmaddRead, isNaN_applyDaz, hnan, if_true, nanResult, isSNaN_applyDaz, firstNaN_applyDaz ctl h]

/-- R133 steps 3 on. -/
theorem fnmadd64_of_no_nan (hx : isNaN x = false) (hy : isNaN y = false) (hz : isNaN z = false) :
    fnmadd64 x y z rm ctl pe =
      if invalidOp (applyDaz ctl x) (applyDaz ctl y) (applyDaz ctl z) = true then
        if ctl.im then .value qnanIndefinite { ie := true } else .trap { ie := true }
      else numericStep rm ctl pe (applyDaz ctl x) (applyDaz ctl y) (applyDaz ctl z) := by
  simp [fnmadd64, fnmaddRead, hx, hy, hz]

/-- R133 steps 5 on, DE being masked or not arising. -/
theorem numericStep_of_denormalPasses (h : denormalPasses ctl x y z) :
    numericStep rm ctl pe (applyDaz ctl x) (applyDaz ctl y) (applyDaz ctl z) =
      if (isInf x || isInf y) = true then
        .value (signedInf (productSign x y)) { de := denormalOperand ctl x y z }
      else if isInf z = true then .value (applyDaz ctl z) { de := denormalOperand ctl x y z }
      else finiteStep rm ctl pe (denormalOperand ctl x y z) (applyDaz ctl x) (applyDaz ctl y) (applyDaz ctl z) := by
  have hpass : (denormalOperand ctl x y z && !ctl.dm) = false := by
    cases hd : denormalOperand ctl x y z
    · rfl
    · rw [h hd]
      rfl
  simp only [numericStep, denormalOperand_eq, hpass, isInf_applyDaz, productSign_applyDaz, Bool.false_eq_true, if_false]

/-- R133 step 4, an unmasked DE. -/
theorem numericStep_of_not_denormalPasses (h : ¬ denormalPasses ctl x y z) :
    numericStep rm ctl pe (applyDaz ctl x) (applyDaz ctl y) (applyDaz ctl z) = .trap { de := true } := by
  simp only [denormalPasses, Classical.not_imp, Bool.not_eq_true] at h
  simp only [numericStep, denormalOperand_eq, h.1, h.2]
  rfl

/-- R133 step 3: an operand of the product is an infinity. -/
theorem invalidOp_of_not_isInf (hx : isInf x = false) (hy : isInf y = false) : invalidOp x y z = false := by
  simp [invalidOp, hx, hy]

/-- R133 steps 6 on: finite operands. -/
theorem fnmadd64_of_isFinite (hx : isFinite x = true) (hy : isFinite y = true) (hz : isFinite z = true)
    (h : denormalPasses ctl x y z) :
    fnmadd64 x y z rm ctl pe =
      finiteStep rm ctl pe (denormalOperand ctl x y z) (applyDaz ctl x) (applyDaz ctl y) (applyDaz ctl z) := by
  have hvalid : invalidOp (applyDaz ctl x) (applyDaz ctl y) (applyDaz ctl z) = false :=
    invalidOp_of_not_isInf (by simp [isInf_of_isFinite hx]) (by simp [isInf_of_isFinite hy])
  rw [fnmadd64_of_no_nan rm ctl pe (isNaN_of_isFinite hx) (isNaN_of_isFinite hy) (isNaN_of_isFinite hz), hvalid,
    numericStep_of_denormalPasses rm ctl pe h]
  simp [isInf_of_isFinite hx, isInf_of_isFinite hy, isInf_of_isFinite hz]

end

/-! ## NaN operands and invalid operations (R135 to R138) -/

/-- Settles O46: the NaN stage answers, and making a NaN quiet sets one bit. -/
theorem nanSelection : Obligations.NanSelection := by
  intro x y z rm ctl pe n snan hnan
  have hn : isNaN n = true := isNaN_firstNaN hnan
  rw [fnmadd64_of_isNaN rm ctl pe hnan]
  refine ⟨fun h => ?_, fun hs him => ?_, fSign_quiet n, quiet_payload n, isNaN_quiet hn, isSNaN_quiet n⟩
  · obtain ⟨hv, -⟩ | ⟨-, hs, him⟩ := nanResult_cases ctl x y z
    · exact hv
    · rcases h with h | h
      · exact absurd (hs.symm.trans h) (by decide)
      · exact absurd (h.symm.trans him) (by decide)
  · obtain ⟨-, h⟩ | ⟨ht, -⟩ := nanResult_cases ctl x y z
    · exact absurd ((h hs).symm.trans him) (by decide)
    · exact ht

section
variable {x y z : Word} {ctl : FpControl}

/-- R137. -/
theorem invalidOp_of_inf_zero (h : (isInf x = true ∧ isZero y = true) ∨ (isZero x = true ∧ isInf y = true)) :
    invalidOp x y z = true := by
  rcases h with ⟨hx, hy⟩ | ⟨hx, hy⟩ <;> simp [invalidOp, hx, hy]

/-- R138: an infinite product, neither operand being zero, is invalid only against an infinity of the other sign. -/
theorem invalidOp_of_infinite_product
    (h : (isInf x = true ∧ isZero y = false) ∨ (isZero x = false ∧ isInf y = true)) :
    invalidOp x y z = (isInf z && (fSign z != productSign x y)) := by
  rcases h with ⟨hx, hy⟩ | ⟨hx, hy⟩ <;> simp [invalidOp, hx, hy, isZero_of_isInf]

/-- An infinite product as the arithmetic reads it, in the words of the statements. -/
theorem infinite_product_applyDaz
    (h : (isInf x = true ∧ ¬ readsAsZero ctl y) ∨ (¬ readsAsZero ctl x ∧ isInf y = true)) :
    (isInf (applyDaz ctl x) = true ∧ isZero (applyDaz ctl y) = false) ∨
      (isZero (applyDaz ctl x) = false ∧ isInf (applyDaz ctl y) = true) := by
  simpa only [isInf_applyDaz, ← isZero_applyDaz_iff, Bool.not_eq_true] using h

/-- R140: an infinite product with a valid addend. -/
theorem fnmadd64_of_infinite_product (rm : RoundingMode) (pe : Bool) (hx : isNaN x = false) (hy : isNaN y = false)
    (hz : isNaN z = false) (hpass : denormalPasses ctl x y z)
    (h : (isInf x = true ∧ ¬ readsAsZero ctl y) ∨ (¬ readsAsZero ctl x ∧ isInf y = true))
    (hsign : isInf z = true → fSign z = productSign x y) :
    fnmadd64 x y z rm ctl pe =
      .value (signedInf (productSign x y)) { de := denormalOperand ctl x y z } := by
  have hvalid : invalidOp (applyDaz ctl x) (applyDaz ctl y) (applyDaz ctl z) = false := by
    rw [invalidOp_of_infinite_product (infinite_product_applyDaz h)]
    simpa using hsign
  have hinf : (isInf x || isInf y) = true := by
    rw [Bool.or_eq_true]
    exact h.imp And.left And.right
  rw [fnmadd64_of_no_nan rm ctl pe hx hy hz, hvalid, numericStep_of_denormalPasses rm ctl pe hpass, if_pos hinf]
  rfl

end

/-- Settles O47: the invalid operations of step 3, and an infinity of the product's own sign. -/
theorem invalidOperations : Obligations.InvalidOperations := by
  intro x y z rm ctl pe hx hy hz invalid ps
  have hinvalid (h : invalidOp (applyDaz ctl x) (applyDaz ctl y) (applyDaz ctl z) = true) :
      fnmadd64 x y z rm ctl pe = invalid := by
    rw [fnmadd64_of_no_nan rm ctl pe hx hy hz, if_pos h]
    rfl
  refine ⟨fun h => hinvalid (invalidOp_of_inf_zero ?_),
    fun h hinf => ⟨fun hsign => hinvalid ?_, fun hsign hpass => ?_⟩⟩
  · simpa only [isInf_applyDaz, isZero_applyDaz_iff] using h
  · rw [invalidOp_of_infinite_product (infinite_product_applyDaz h)]
    simpa only [isInf_applyDaz, hinf, Bool.true_and, bne_iff_ne, fSign_applyDaz, productSign_applyDaz]
  · rw [fnmadd64_of_infinite_product rm pe hx hy hz hpass h fun _ => hsign]
    rw [← show fSign z = productSign x y from hsign, signedInf_fSign hinf]

/-- Settles O48: step 5 for a valid operation. -/
theorem infiniteResultsExact : Obligations.InfiniteResultsExact := by
  intro x y z rm ctl pe hpass ps
  refine ⟨fun h hz => ?_, fun hx hy hz => ?_⟩
  · have hnan : isNaN x = false ∧ isNaN y = false := by
      rcases h with ⟨hx, hy, -⟩ | ⟨hy, hx, -⟩
      · exact ⟨isNaN_of_isInf hx, hy⟩
      · exact ⟨hx, isNaN_of_isInf hy⟩
    have hprod : (isInf x = true ∧ ¬ readsAsZero ctl y) ∨ (¬ readsAsZero ctl x ∧ isInf y = true) :=
      h.imp (fun ⟨hx, _, hy⟩ => ⟨hx, hy⟩) (fun ⟨hy, _, hx⟩ => ⟨hx, hy⟩)
    rw [fnmadd64_of_infinite_product rm pe hnan.1 hnan.2 (isNaN_of_isFinite hz) hpass hprod, signedInf_eq]
    · rfl
    · simp [isInf_of_isFinite hz]
  · have hvalid : invalidOp (applyDaz ctl x) (applyDaz ctl y) (applyDaz ctl z) = false :=
      invalidOp_of_not_isInf (by simp [isInf_of_isFinite hx]) (by simp [isInf_of_isFinite hy])
    have hden : isDenormal z = false := by
      simp_all [isInf, isDenormal]
    rw [fnmadd64_of_no_nan rm ctl pe (isNaN_of_isFinite hx) (isNaN_of_isFinite hy) (isNaN_of_isInf hz), hvalid,
      numericStep_of_denormalPasses rm ctl pe hpass]
    simp [isInf_of_isFinite hx, isInf_of_isFinite hy, hz, applyDaz_of_not_denormal ctl hden]

/-! ## The flags each stage reports -/

@[simp] theorem FmaResult.flags_value (r : Word) (f : FpFlags) : (FmaResult.value r f).flags = f := rfl
@[simp] theorem FmaResult.flags_trap (f : FpFlags) : (FmaResult.trap f).flags = f := rfl

@[simp] theorem precisionStep_flags (ctl : FpControl) (r : Word) (f : FpFlags) : (precisionStep ctl r f).flags = f := by
  obtain ⟨h, -⟩ | ⟨h, -⟩ := precisionStep_cases ctl r f <;> rw [h] <;> rfl

section
variable (rm : RoundingMode) (ctl : FpControl) (pe de neg : Bool) (mag : Nat)

@[simp] theorem overflowStep_flags :
    (overflowStep rm ctl pe de neg).flags = { de := de, oe := true, pe := ctl.om || pe } := by
  unfold overflowStep
  cases ctl.om <;> simp

theorem tinyStep_flags :
    (tinyStep rm ctl pe de neg mag).flags.de = de ∧ (tinyStep rm ctl pe de neg mag).flags.oe = false := by
  unfold tinyStep
  cases ctl.um <;> cases ctl.ftz <;> simp

theorem roundStep_flags_de : (roundStep rm ctl pe de neg mag).flags.de = de := by
  simp only [roundStep]
  split
  · simp
  · split
    · exact (tinyStep_flags rm ctl pe de neg mag).1
    · simp

theorem finiteStep_flags_de (x y z : Word) : (finiteStep rm ctl pe de x y z).flags.de = de := by
  simp only [finiteStep]
  split
  · rfl
  · exact roundStep_flags_de rm ctl pe de _ _

/-- R139: whatever else is flagged, DE is flagged exactly for a denormal operand. -/
theorem numericStep_flags_de (x y z : Word) :
    (numericStep rm ctl pe (applyDaz ctl x) (applyDaz ctl y) (applyDaz ctl z)).flags.de =
      denormalOperand ctl x y z := by
  by_cases h : denormalPasses ctl x y z
  · rw [numericStep_of_denormalPasses rm ctl pe h]
    split
    · rfl
    · split
      · rfl
      · exact finiteStep_flags_de rm ctl pe _ _ _ _
  · rw [numericStep_of_not_denormalPasses rm ctl pe h]
    exact (Classical.not_imp.mp h).1.symm

end

/-- R139, decision D21: an operand is a NaN or the operation is invalid, so that DE is not looked for. -/
def suppressesDenormal (ctl : FpControl) (x y z : Word) : Bool :=
  isNaN x || isNaN y || isNaN z || invalidOp (applyDaz ctl x) (applyDaz ctl y) (applyDaz ctl z)

/-- Without a NaN and an invalid operation, step 4 is reached. -/
theorem fnmadd64_of_not_suppressed {ctl : FpControl} {x y z : Word} (h : suppressesDenormal ctl x y z = false)
    (rm : RoundingMode) (pe : Bool) :
    fnmadd64 x y z rm ctl pe = numericStep rm ctl pe (applyDaz ctl x) (applyDaz ctl y) (applyDaz ctl z) := by
  simp only [suppressesDenormal, Bool.or_eq_false_iff] at h
  obtain ⟨⟨⟨hx, hy⟩, hz⟩, hvalid⟩ := h
  rw [fnmadd64_of_no_nan rm ctl pe hx hy hz, hvalid]
  rfl

theorem fnmadd64_flags_de_of_suppressed {ctl : FpControl} {x y z : Word} (h : suppressesDenormal ctl x y z = true)
    (rm : RoundingMode) (pe : Bool) : (fnmadd64 x y z rm ctl pe).flags.de = false := by
  by_cases hnan : isNaN x = true ∨ isNaN y = true ∨ isNaN z = true
  · rw [fnmadd64_of_isNaN rm ctl pe hnan]
    obtain ⟨hv, -⟩ | ⟨ht, -⟩ := nanResult_cases ctl x y z
    · rw [hv]
      rfl
    · rw [ht]
      rfl
  · simp only [not_or, Bool.not_eq_true] at hnan
    obtain ⟨hx, hy, hz⟩ := hnan
    have hinvalid : invalidOp (applyDaz ctl x) (applyDaz ctl y) (applyDaz ctl z) = true := by
      simpa [suppressesDenormal, hx, hy, hz] using h
    rw [fnmadd64_of_no_nan rm ctl pe hx hy hz, if_pos hinvalid]
    cases ctl.im <;> rfl

/-- Settles O49: DE is step 4's, which a NaN and an invalid operation come before. -/
theorem denormalOperandFlag : Obligations.DenormalOperandFlag := by
  intro x y z rm ctl pe special f
  refine ⟨fun h => fnmadd64_flags_de_of_suppressed h rm pe, fun h => ?_, fun h hd hm => ?_⟩
  · show (fnmadd64 x y z rm ctl pe).flags.de = _
    rw [fnmadd64_of_not_suppressed h, numericStep_flags_de]
  · rw [fnmadd64_of_not_suppressed h, numericStep_of_not_denormalPasses]
    intro hpass
    rw [hpass hd] at hm
    cases hm

/-! ## DAZ (R134) -/

theorem applyDaz_signedZero (ctl : FpControl) (neg : Bool) : applyDaz ctl (signedZero neg) = signedZero neg :=
  applyDaz_of_not_denormal ctl (by simp [isDenormal])

theorem applyDaz_of_denormal {ctl : FpControl} {w : Word} (hdaz : ctl.daz = true) (h : isDenormal w = true) :
    applyDaz ctl w = applyDaz ctl (w &&& 0x8000000000000000#64) := by
  rw [and_signBit, applyDaz_signedZero, applyDaz, hdaz, h]
  rfl

/-- Settles O50: the operands are used as DAZ reads them. -/
theorem denormalsAreZeros : Obligations.DenormalsAreZeros := by
  intro x y z rm ctl pe
  refine ⟨fun hdaz => ⟨fun h => ?_, fun h => ?_, fun h => ?_, ?_⟩, fun hx hy hz => ?_⟩
  · rw [fnmadd64, applyDaz_of_denormal hdaz h]
    rfl
  · rw [fnmadd64, applyDaz_of_denormal hdaz h]
    rfl
  · rw [fnmadd64, applyDaz_of_denormal hdaz h]
    rfl
  · cases h : suppressesDenormal ctl x y z with
    | true => exact fnmadd64_flags_de_of_suppressed h rm pe
    | false =>
      rw [fnmadd64_of_not_suppressed h, numericStep_flags_de, denormalOperand, hdaz]
      rfl
  · simp only [fnmadd64, applyDaz_of_not_denormal _ hx, applyDaz_of_not_denormal _ hy, applyDaz_of_not_denormal _ hz]
    rfl

/-! ## Traps (R147, R149, R201) -/

/-- Flags other than PE that are masked whenever they are reported. -/
structure FpFlags.MaskedBy (f : FpFlags) (ctl : FpControl) : Prop where
  ie : f.ie = true → ctl.im = true
  de : f.de = true → ctl.dm = true
  oe : f.oe = true → ctl.om = true
  ue : f.ue = true → ctl.um = true

/-- One of the flags is not masked. -/
def FpFlags.HasUnmasked (f : FpFlags) (ctl : FpControl) : Prop :=
  (f.ie = true ∧ ctl.im = false) ∨ (f.de = true ∧ ctl.dm = false) ∨ (f.oe = true ∧ ctl.om = false) ∨
    (f.ue = true ∧ ctl.um = false) ∨ (f.pe = true ∧ ctl.pm = false)

/-- R147, R201: what a result may report under the masks: a value masked causes alone, a trap an unmasked one, and
nothing beside an IE or an unmasked DE. -/
inductive Respects (ctl : FpControl) : FmaResult → Prop
  | value (r : Word) (f : FpFlags) (h : f.MaskedBy ctl) (hpe : f.pe = true → ctl.pm = true) :
      Respects ctl (.value r f)
  | trap (f : FpFlags) (h : f.HasUnmasked ctl) (hie : f.ie = true → f = { ie := true })
      (hde : f.de = true → ctl.dm = false → f = { de := true }) : Respects ctl (.trap f)

section
variable {ctl : FpControl} {de : Bool} (hde : de = true → ctl.dm = true)
include hde

/-- R139: beside other flags DE is reported masked. -/
theorem masked_de_of_unmasked (f : FpFlags) (hf : f.de = de) (h : f.de = true) (hdm : ctl.dm = false) :
    f = { de := true } :=
  absurd ((hde (hf ▸ h)).symm.trans hdm) (by decide)

/-- R133 step 12, the flags being DE and masked ones. -/
theorem precisionStep_respects (r : Word) {oe ue pe : Bool} (hoe : oe = true → ctl.om = true)
    (hue : ue = true → ctl.um = true) :
    Respects ctl (precisionStep ctl r { de := de, oe := oe, ue := ue, pe := pe }) := by
  obtain ⟨hv, hpe⟩ | ⟨ht, hpe⟩ := precisionStep_cases ctl r { de := de, oe := oe, ue := ue, pe := pe }
  · rw [hv]
    exact .value _ _ ⟨nofun, hde, hoe, hue⟩ hpe
  · rw [ht]
    exact .trap _ (.inr (.inr (.inr (.inr hpe)))) nofun (masked_de_of_unmasked hde _ rfl)

variable (rm : RoundingMode) (pe neg : Bool) (mag : Nat)

theorem overflowStep_respects : Respects ctl (overflowStep rm ctl pe de neg) := by
  unfold overflowStep
  split
  · next hom => exact precisionStep_respects hde _ (fun _ => hom) nofun
  · next hom =>
    exact .trap _ (.inr (.inr (.inl ⟨rfl, by simpa using hom⟩))) nofun (masked_de_of_unmasked hde _ rfl)

theorem tinyStep_respects : Respects ctl (tinyStep rm ctl pe de neg mag) := by
  simp only [tinyStep]
  cases hum : ctl.um with
  | false =>
    exact .trap _ (.inr (.inr (.inr (.inl ⟨rfl, hum⟩)))) nofun (masked_de_of_unmasked hde _ rfl)
  | true =>
    cases ctl.ftz with
    | true => exact precisionStep_respects hde _ nofun fun _ => hum
    | false => exact precisionStep_respects hde _ nofun fun _ => hum

theorem roundStep_respects : Respects ctl (roundStep rm ctl pe de neg mag) := by
  simp only [roundStep]
  split
  · exact overflowStep_respects hde rm pe neg
  · split
    · exact tinyStep_respects hde rm pe neg mag
    · exact precisionStep_respects hde _ nofun nofun

theorem finiteStep_respects (x y z : Word) : Respects ctl (finiteStep rm ctl pe de x y z) := by
  simp only [finiteStep]
  split
  · exact .value _ _ ⟨nofun, hde, nofun, nofun⟩ nofun
  · exact roundStep_respects hde rm pe _ _

end

theorem numericStep_respects (rm : RoundingMode) (ctl : FpControl) (pe : Bool) (x y z : Word) :
    Respects ctl (numericStep rm ctl pe (applyDaz ctl x) (applyDaz ctl y) (applyDaz ctl z)) := by
  by_cases h : denormalPasses ctl x y z
  · rw [numericStep_of_denormalPasses rm ctl pe h]
    split
    · exact .value _ _ ⟨nofun, h, nofun, nofun⟩ nofun
    · split
      · exact .value _ _ ⟨nofun, h, nofun, nofun⟩ nofun
      · exact finiteStep_respects h rm pe _ _ _
  · rw [numericStep_of_not_denormalPasses rm ctl pe h]
    simp only [denormalPasses, Classical.not_imp, Bool.not_eq_true] at h
    exact .trap _ (.inr (.inl ⟨rfl, h.2⟩)) nofun fun _ _ => rfl

theorem respects_trap_ie {ctl : FpControl} (him : ctl.im = false) : Respects ctl (.trap { ie := true }) :=
  .trap _ (.inl ⟨rfl, him⟩) (fun _ => rfl) nofun

theorem fnmadd64_respects (x y z : Word) (rm : RoundingMode) (ctl : FpControl) (pe : Bool) :
    Respects ctl (fnmadd64 x y z rm ctl pe) := by
  by_cases hnan : isNaN x = true ∨ isNaN y = true ∨ isNaN z = true
  · rw [fnmadd64_of_isNaN rm ctl pe hnan]
    obtain ⟨hv, him⟩ | ⟨ht, -, him⟩ := nanResult_cases ctl x y z
    · rw [hv]
      exact .value _ _ ⟨him, nofun, nofun, nofun⟩ nofun
    · rw [ht]
      exact respects_trap_ie him
  · simp only [not_or, Bool.not_eq_true] at hnan
    obtain ⟨hx, hy, hz⟩ := hnan
    rw [fnmadd64_of_no_nan rm ctl pe hx hy hz]
    split
    · cases him : ctl.im with
      | true => exact .value _ _ ⟨fun _ => him, nofun, nofun, nofun⟩ nofun
      | false => exact respects_trap_ie him
    · exact numericStep_respects rm ctl pe x y z

/-- Settles O57: every stage respects the masks, and no flag stands at bit 2. -/
theorem unmaskedCauseTraps : Obligations.UnmaskedCauseTraps := by
  intro x y z rm ctl pe
  have h := fnmadd64_respects x y z rm ctl pe
  refine ⟨fun r f hv => ?_, fun f ht => ?_⟩
  · rw [hv] at h
    obtain ⟨_, _, ⟨hie, hde, hoe, hue⟩, hpe⟩ := h
    exact ⟨hie, hde, hoe, hue, hpe⟩
  · rw [ht] at h
    cases h with
    | trap _ hcause hie hde =>
      obtain ⟨-, -, hze, -⟩ := f.bits_get
      exact ⟨hcause, hie, hde, hze⟩

/-- Settles O58, by the lemma that no stage traps when every exception is masked. -/
theorem allMaskedNeverTraps : Obligations.AllMaskedNeverTraps := by
  intro x y z rm ctl h
  exact fnmadd64_of_allMasked h x y z rm

/-! ## The multiplicands commute (R152) -/

theorem productSign_comm (x y : Word) : productSign x y = productSign y x := by
  rw [productSign, Bool.xor_comm, productSign]

theorem exactSum_comm (x y z : Word) : exactSum x y z = exactSum y x z := by
  rw [exactSum, Int.mul_comm, exactSum]

theorem zeroSumSign_comm (rm : RoundingMode) (x y z : Word) : zeroSumSign rm x y z = zeroSumSign rm y x z := by
  rw [zeroSumSign, Bool.or_comm, productSign_comm, zeroSumSign]

theorem invalidOp_comm (x y z : Word) : invalidOp x y z = invalidOp y x z := by
  rw [invalidOp, productSign_comm, Bool.or_comm (isInf x) (isInf y), Bool.or_comm (isInf x && isZero y),
    Bool.and_comm (isZero x), Bool.and_comm (isInf x) (isZero y), invalidOp]

theorem numericStep_comm (rm : RoundingMode) (ctl : FpControl) (pe : Bool) (x y z : Word) :
    numericStep rm ctl pe x y z = numericStep rm ctl pe y x z := by
  simp only [numericStep, finiteStep, productSign_comm x y, exactSum_comm x y, zeroSumSign_comm rm x y,
    Bool.or_comm (isDenormal x), Bool.or_comm (isInf x)]

/-- R136: the choice alone depends on the order, and only between two NaNs. -/
theorem firstNaN_comm {x y : Word} (h : (isNaN x && isNaN y) = false) (z : Word) :
    firstNaN x y z = firstNaN y x z := by
  unfold firstNaN
  cases hx : isNaN x <;> cases hy : isNaN y <;> simp_all

/-- Settles O59: every stage but the choice of a NaN is symmetric in the multiplicands. -/
theorem multiplicandsCommute : Obligations.MultiplicandsCommute := by
  intro x y z rm ctl pe h
  have hd : (isNaN (applyDaz ctl x) && isNaN (applyDaz ctl y)) = false := by simpa using h
  simp only [fnmadd64, fnmaddRead, nanResult, firstNaN_comm hd, invalidOp_comm (applyDaz ctl x),
    numericStep_comm rm ctl pe (applyDaz ctl x), Bool.or_comm (isNaN (applyDaz ctl x)),
    Bool.or_comm (isSNaN (applyDaz ctl x))]

/-- Settles O60: the four evaluations of R153, for both free values. -/
theorem workedValues : Obligations.WorkedValues := by
  intro pe
  cases pe with
  | false => decide +kernel
  | true => decide +kernel

/-! ## The grid of a rounding (R122)

A magnitude `mag` lies between two neighbours on the grid of the multiples of `2^k`: `gridBelow mag k` and the next. -/

/-- The multiple of `2^k` at or below a magnitude: `lo` of R122. -/
def gridBelow (mag k : Nat) : Nat := 2 ^ k * (mag / 2 ^ k)

theorem gridBelow_le (mag k : Nat) : gridBelow mag k ≤ mag := Nat.mul_div_le mag _

theorem lt_gridBelow_add (mag k : Nat) : mag < gridBelow mag k + 2 ^ k :=
  Nat.lt_mul_div_succ mag (Nat.two_pow_pos k)

theorem dvd_gridBelow (mag k : Nat) : 2 ^ k ∣ gridBelow mag k := Nat.dvd_mul_right _ _

theorem le_gridBelow_of_dvd {mag k g : Nat} (hg : 2 ^ k ∣ g) (h : g ≤ mag) : g ≤ gridBelow mag k := by
  obtain ⟨c, rfl⟩ := hg
  exact Nat.mul_le_mul_left _ ((Nat.le_div_iff_mul_le (Nat.two_pow_pos k)).mpr (by rwa [Nat.mul_comm]))

/-- Two multiples of `q` are at least `q` apart. -/
theorem add_le_of_dvd {q a b : Nat} (ha : q ∣ a) (hb : q ∣ b) (h : a < b) : a + q ≤ b := by
  have := Nat.le_of_dvd (Nat.sub_pos_of_lt h) (Nat.dvd_sub hb ha)
  omega

theorem gridBelow_add_le_of_dvd {mag k g : Nat} (hg : 2 ^ k ∣ g) (h : gridBelow mag k < g) :
    gridBelow mag k + 2 ^ k ≤ g :=
  add_le_of_dvd (dvd_gridBelow mag k) hg h

/-! ## Directions: the four modes on the magnitude of a value of known sign -/

/-- To the nearest magnitude, toward zero or away from it. -/
inductive Direction
  | nearest | inward | outward

/-- What a mode does to the magnitude of a value of sign `neg`. -/
def direction (rm : RoundingMode) (neg : Bool) : Direction :=
  match rm with
  | .rn => .nearest
  | .rz => .inward
  | .ru => if neg then .inward else .outward
  | .rd => if neg then .outward else .inward

/-- `u` is the one of the neighbours `lo ≤ mag < hi` that a direction chooses. -/
def Chooses (d : Direction) (lo hi mag u : Nat) : Prop :=
  match d with
  | .nearest => (2 * mag ≤ lo + hi ∧ u = lo) ∨ (lo + hi ≤ 2 * mag ∧ u = hi)
  | .inward => u = lo
  | .outward => (mag = lo ∧ u = lo) ∨ (lo < mag ∧ u = hi)

theorem roundTo_nearest (neg : Bool) (mag k : Nat) :
    roundTo .rn neg mag k =
      if 2 * mag < 2 * gridBelow mag k + 2 ^ k ∨ (2 * mag = 2 * gridBelow mag k + 2 ^ k ∧ mag / 2 ^ k % 2 = 0) then
        gridBelow mag k
      else gridBelow mag k + 2 ^ k := by
  have hlo := gridBelow_le mag k
  have hhi := lt_gridBelow_add mag k
  have hdef : 2 ^ k * (mag / 2 ^ k) = gridBelow mag k := rfl
  simp only [roundTo, hdef]
  split_ifs <;> omega

theorem roundTo_inward {rm : RoundingMode} {neg : Bool} (h : direction rm neg = .inward) (mag k : Nat) :
    roundTo rm neg mag k = gridBelow mag k := by
  cases rm <;> cases neg <;> cases h <;> exact ite_eq_right_iff.mpr id

theorem roundTo_outward {rm : RoundingMode} {neg : Bool} (h : direction rm neg = .outward) (mag k : Nat) :
    roundTo rm neg mag k = if mag = gridBelow mag k then mag else gridBelow mag k + 2 ^ k := by
  cases rm <;> cases neg <;> cases h <;> rfl

theorem direction_eq_nearest {rm : RoundingMode} {neg : Bool} (h : direction rm neg = .nearest) : rm = .rn := by
  cases rm <;> cases neg <;> cases h <;> rfl

/-- R122: which neighbour `RoundTo` returns. -/
theorem roundTo_chooses (rm : RoundingMode) (neg : Bool) (mag k : Nat) :
    Chooses (direction rm neg) (gridBelow mag k) (gridBelow mag k + 2 ^ k) mag (roundTo rm neg mag k) := by
  have hlo := gridBelow_le mag k
  cases h : direction rm neg with
  | nearest =>
    obtain rfl := direction_eq_nearest h
    rw [roundTo_nearest, Chooses]
    split <;> omega
  | inward => exact roundTo_inward h mag k
  | outward =>
    rw [roundTo_outward h, Chooses]
    split <;> omega

/-- R122: half way between the neighbours the one with the even quotient is returned. -/
theorem roundTo_tie {rm : RoundingMode} {neg : Bool} (h : direction rm neg = .nearest) {mag k : Nat}
    (htie : 2 * mag = 2 * gridBelow mag k + 2 ^ k) : 2 ^ (k + 1) ∣ roundTo rm neg mag k := by
  obtain rfl := direction_eq_nearest h
  have heven (c : Nat) (hc : c % 2 = 0) : 2 ^ (k + 1) ∣ 2 ^ k * c := by
    rw [Nat.pow_succ]
    exact Nat.mul_dvd_mul_left _ (Nat.dvd_of_mod_eq_zero hc)
  rw [roundTo_nearest]
  split
  · exact heven _ (by omega)
  · exact heven (mag / 2 ^ k + 1) (by omega)

theorem Chooses.mem {d : Direction} {lo hi mag u : Nat} (h : Chooses d lo hi mag u) : u = lo ∨ u = hi := by
  cases d with
  | nearest => exact h.imp And.right And.right
  | inward => exact .inl h
  | outward => exact h.imp And.right And.right

/-- R122: a magnitude on the grid is kept. -/
theorem Chooses.eq_of_exact {d : Direction} {lo hi mag u : Nat} (h : Chooses d lo hi mag u) (hexact : mag = lo)
    (hhi : lo < hi) : u = lo := by
  cases d <;> simp only [Chooses] at h <;> omega

section
variable (rm : RoundingMode) (neg : Bool) {mag k g : Nat}

/-- Rounding does not pass a point of the grid. -/
theorem le_roundTo_of_dvd (hg : 2 ^ k ∣ g) (h : g ≤ mag) : g ≤ roundTo rm neg mag k := by
  have := le_gridBelow_of_dvd hg h
  rcases (roundTo_chooses rm neg mag k).mem with hu | hu <;> omega

theorem roundTo_le_of_dvd (hg : 2 ^ k ∣ g) (h : mag ≤ g) : roundTo rm neg mag k ≤ g := by
  have hlo := gridBelow_le mag k
  rcases hlo.lt_or_eq with hlt | heq
  · have := gridBelow_add_le_of_dvd hg (hlt.trans_le h)
    rcases (roundTo_chooses rm neg mag k).mem with hu | hu <;> omega
  · rw [(roundTo_chooses rm neg mag k).eq_of_exact heq.symm (Nat.lt_add_of_pos_right (Nat.two_pow_pos k))]
    exact hlo.trans h

theorem dvd_roundTo : 2 ^ k ∣ roundTo rm neg mag k := by
  rcases (roundTo_chooses rm neg mag k).mem with hu | hu <;> rw [hu]
  · exact dvd_gridBelow mag k
  · exact (dvd_gridBelow mag k).add (dvd_refl _)

end

/-! ## When a rounding reaches a power of two (R143, R144) -/

/-- A magnitude is rounded to `g` or more, `g` being an even multiple of the spacing `q` below it. -/
def Attains (d : Direction) (g q mag : Nat) : Prop :=
  match d with
  | .nearest => 2 * g ≤ 2 * mag + q
  | .inward => g ≤ mag
  | .outward => g < mag + q

theorem Attains.of_le {d : Direction} {g q mag : Nat} (hq : 0 < q) (h : g ≤ mag) : Attains d g q mag := by
  cases d <;> simp only [Attains] <;> omega

theorem Attains.mono {d : Direction} {g q q' mag : Nat} (hq : q ≤ q') (h : Attains d g q mag) :
    Attains d g q' mag := by
  cases d <;> simp only [Attains] at h ⊢ <;> omega

theorem Attains.lt_add {d : Direction} {g q mag : Nat} (hq : 0 < q) (h : Attains d g q mag) : g < mag + q := by
  cases d <;> simp only [Attains] at h <;> omega

/-- The threshold of an even multiple of the spacing; at the tie just below it the even multiple wins. -/
theorem le_roundTo_iff (rm : RoundingMode) (neg : Bool) {mag k g : Nat} (hg : 2 ^ (k + 1) ∣ g) :
    g ≤ roundTo rm neg mag k ↔ Attains (direction rm neg) g (2 ^ k) mag := by
  have hgk : 2 ^ k ∣ g := (pow_dvd_pow 2 k.le_succ).trans hg
  have hq := Nat.two_pow_pos k
  have hlo := gridBelow_le mag k
  have hhi := lt_gridBelow_add mag k
  by_cases hle : g ≤ mag
  · exact iff_of_true (le_roundTo_of_dvd rm neg hgk hle) (.of_le hq hle)
  have hu := roundTo_chooses rm neg mag k
  rcases (gridBelow_add_le_of_dvd hgk (show gridBelow mag k < g by omega)).lt_or_eq with hfar | hnext
  · have := add_le_of_dvd ((dvd_gridBelow mag k).add (dvd_refl _)) hgk hfar
    refine iff_of_false (fun h => ?_) (fun h => ?_)
    · rcases hu.mem with hu | hu <;> omega
    · have := h.lt_add hq
      omega
  subst hnext
  cases hd : direction rm neg with
  | nearest =>
    rw [hd] at hu
    have htie : 2 * mag = 2 * gridBelow mag k + 2 ^ k → roundTo rm neg mag k ≠ gridBelow mag k := by
      intro h heq
      have heven : 2 ^ (k + 1) ∣ gridBelow mag k := heq ▸ roundTo_tie hd h
      exact Nat.not_dvd_of_pos_of_lt hq (Nat.pow_lt_pow_right (by decide) k.lt_succ_self)
        ((Nat.dvd_add_right heven).mp hg)
    simp only [Chooses, Attains] at hu ⊢
    omega
  | inward =>
    rw [hd] at hu
    simp only [Chooses, Attains] at hu ⊢
    omega
  | outward =>
    rw [hd] at hu
    simp only [Chooses, Attains] at hu ⊢
    omega

/-- R143, R144: the thresholds of the rounding to 53 significant bits. -/
theorem le_roundUnbounded_iff (rm : RoundingMode) (neg : Bool) {mag p : Nat} (hm : mag ≠ 0) (hp : 53 ≤ p) :
    2 ^ p ≤ roundUnbounded rm neg mag ↔ Attains (direction rm neg) (2 ^ p) (2 ^ (p - 53)) mag := by
  have hlow := Nat.log2_self_le hm
  have hhigh : mag < 2 ^ (mag.log2 + 1) := Nat.lt_log2_self
  by_cases hle : p ≤ mag.log2
  · have hpow : 2 ^ p ≤ 2 ^ mag.log2 := Nat.pow_le_pow_right (by decide) hle
    refine iff_of_true (hpow.trans ?_) (.of_le (Nat.two_pow_pos _) (hpow.trans hlow))
    exact le_roundTo_of_dvd rm neg (pow_dvd_pow 2 (Nat.sub_le _ _)) hlow
  · rw [roundUnbounded, le_roundTo_iff rm neg (pow_dvd_pow 2 (by omega))]
    by_cases heq : mag.log2 + 1 = p
    · rw [show mag.log2 - 52 = p - 53 by omega]
    · have hmag : mag < 2 ^ (p - 1) := hhigh.trans_le (Nat.pow_le_pow_right (by decide) (by omega))
      have hp1 : 2 ^ p = 2 * 2 ^ (p - 1) := by
        rw [← Nat.pow_succ', Nat.succ_eq_add_one, Nat.sub_add_cancel (by omega)]
      have hfar {k : Nat} (hk : k ≤ p - 1) : ¬ Attains (direction rm neg) (2 ^ p) (2 ^ k) mag := by
        intro h
        have := h.lt_add (Nat.two_pow_pos k)
        have : 2 ^ k ≤ 2 ^ (p - 1) := Nat.pow_le_pow_right (by decide) hk
        omega
      exact iff_of_false (hfar (by omega)) (hfar (by omega))

/-! ## The one rounding of a delivered result (R142, R145)

Below the smallest normal number the spacing stays that of the denormal grid, `2^s`. -/

/-- The spacing, as an exponent, of the patterns about a magnitude: 53 significant bits, and never below the denormal
grid's `s`. -/
def finalShift (s mag : Nat) : Nat := max s (mag.log2 - 52)

theorem le_finalShift (s mag : Nat) : s ≤ finalShift s mag := Nat.le_max_left _ _

theorem lt_two_pow_finalShift (s mag : Nat) : mag < 2 ^ (finalShift s mag + 53) :=
  Nat.lt_log2_self.trans_le (Nat.pow_le_pow_right (by decide) (by unfold finalShift; omega))

theorem two_pow_finalShift_le {s mag : Nat} (hm : mag ≠ 0) (h : finalShift s mag ≠ s) :
    2 ^ (finalShift s mag + 52) ≤ mag := by
  refine le_trans ?_ (Nat.log2_self_le hm)
  refine Nat.pow_le_pow_right (by decide) ?_
  unfold finalShift at h ⊢
  omega

section
variable {rm : RoundingMode} {neg : Bool} {mag s : Nat}

theorem two_pow_log2_le_roundUnbounded (hm : mag ≠ 0) : 2 ^ mag.log2 ≤ roundUnbounded rm neg mag :=
  le_roundTo_of_dvd rm neg (pow_dvd_pow 2 (Nat.sub_le _ _)) (Nat.log2_self_le hm)

/-- R144: a tiny result lies on the denormal grid. -/
theorem finalShift_of_tiny (hm : mag ≠ 0) (h : roundUnbounded rm neg mag < 2 ^ (s + 52)) : finalShift s mag = s := by
  have hlog := (Nat.pow_lt_pow_iff_right (by decide)).mp ((two_pow_log2_le_roundUnbounded hm).trans_lt h)
  unfold finalShift
  omega

/-- R142, R144: for a result that is not tiny the rounding with no limit on the exponent is the delivered one, also
where it only rounds up to the smallest normal number. -/
theorem roundUnbounded_eq_roundTo (hs : 1 ≤ s) (h : 2 ^ (s + 52) ≤ roundUnbounded rm neg mag) :
    roundUnbounded rm neg mag = roundTo rm neg mag (finalShift s mag) := by
  by_cases hle : s + 52 ≤ mag.log2
  · rw [roundUnbounded, finalShift, Nat.max_eq_right (by omega)]
  have hmag : mag ≤ 2 ^ (s + 52) :=
    (Nat.lt_log2_self (n := mag)).le.trans (Nat.pow_le_pow_right (by decide) (by omega))
  have hshift : finalShift s mag = s := by
    unfold finalShift
    omega
  have hreach := (le_roundTo_iff rm neg (pow_dvd_pow 2 (by omega : mag.log2 - 52 + 1 ≤ s + 52))).mp h
  have hfinal : 2 ^ (s + 52) ≤ roundTo rm neg mag s :=
    (le_roundTo_iff rm neg (pow_dvd_pow 2 (by omega))).mpr
      (hreach.mono (Nat.pow_le_pow_right (by decide) (by omega)))
  rw [hshift]
  exact (h.antisymm' (roundTo_le_of_dvd rm neg (pow_dvd_pow 2 (by omega)) hmag)).trans
    (hfinal.antisymm (roundTo_le_of_dvd rm neg (pow_dvd_pow 2 (by omega)) hmag))

end

/-! ## The finite patterns among the magnitudes (R120) -/

/-- The magnitude of a finite pattern in the unit of the exact sum, 2^-2148. -/
def unitMag (w : Word) : Nat := fMag w * 2 ^ denormalShift

theorem two_pow_denormalShift_pos : 0 < 2 ^ denormalShift := pow_pos (by decide) _

theorem fExp_lt (w : Word) : fExp w < 2048 := (w.extractLsb' 52 11).isLt
theorem fFrac_lt (w : Word) : fFrac w < 2 ^ 52 := (w.extractLsb' 0 52).isLt

theorem mul_two_pow_mul_two_pow (m e s : Nat) : m * 2 ^ e * 2 ^ s = m * 2 ^ (s + e) := by
  rw [Nat.pow_add, Nat.mul_assoc, Nat.mul_comm (2 ^ e)]

/-- A finite magnitude has at most 53 significant bits, in units of a power of two from the denormal grid on. -/
theorem unitMag_of_isFinite {w : Word} (h : isFinite w = true) :
    ∃ m e, m < 2 ^ 53 ∧ denormalShift ≤ e ∧ e ≤ denormalShift + 2045 ∧ unitMag w = m * 2 ^ e := by
  have hfrac := fFrac_lt w
  have hexp := fExp_lt w
  simp only [isFinite, bne_iff_ne] at h
  by_cases h0 : fExp w = 0
  · exact ⟨fFrac w, denormalShift, by omega, le_refl _, by omega, by simp [unitMag, fMag, h0]⟩
  · refine ⟨2 ^ 52 + fFrac w, denormalShift + (fExp w - 1), by omega, by omega, by omega, ?_⟩
    rw [unitMag, fMag, if_neg h0, mul_two_pow_mul_two_pow]

/-- No finite pattern lies between the neighbours that a rounding to the patterns' spacing chooses from. -/
theorem unitMag_gap {w : Word} (h : isFinite w = true) {mag : Nat} (hm : mag ≠ 0) :
    unitMag w ≤ gridBelow mag (finalShift denormalShift mag) ∨
      gridBelow mag (finalShift denormalShift mag) + 2 ^ finalShift denormalShift mag ≤ unitMag w := by
  obtain ⟨m, e, hbits, hgrid, -, hw⟩ := unitMag_of_isFinite h
  rw [hw]
  by_cases he : finalShift denormalShift mag ≤ e
  · by_cases hle : m * 2 ^ e ≤ gridBelow mag (finalShift denormalShift mag)
    · exact .inl hle
    · exact .inr (gridBelow_add_le_of_dvd ((pow_dvd_pow 2 he).mul_left m) (not_le.mp hle))
  · left
    have hlow := two_pow_finalShift_le hm (show finalShift denormalShift mag ≠ denormalShift by omega)
    calc m * 2 ^ e ≤ 2 ^ 53 * 2 ^ e := Nat.mul_le_mul_right _ hbits.le
      _ = 2 ^ (53 + e) := (Nat.pow_add ..).symm
      _ ≤ 2 ^ (finalShift denormalShift mag + 52) := Nat.pow_le_pow_right (by decide) (by omega)
      _ ≤ _ := le_gridBelow_of_dvd (pow_dvd_pow 2 (by omega)) hlow

/-- Bit 0 of a pattern is the parity of its fraction. -/
theorem getLsbD_zero_of_even {w : Word} (h : 2 ∣ fFrac w) : w.getLsbD 0 = false := by
  have hbit : (w.extractLsb' 0 52).getLsbD 0 = w.getLsbD 0 := by simp
  rw [← hbit, ← BitVec.testBit_toNat, Nat.testBit_zero, decide_eq_false_iff_not]
  simp only [fFrac] at h
  omega

theorem even_of_two_pow_dvd {m e k : Nat} (he : e ≤ k) (h : 2 ^ (k + 1) ∣ m * 2 ^ e) : 2 ∣ m := by
  have htwo : 2 * 2 ^ e ∣ m * 2 ^ e := by
    rw [← Nat.pow_succ']
    exact (pow_dvd_pow 2 (by omega)).trans h
  exact Nat.dvd_of_mul_dvd_mul_right (Nat.two_pow_pos e) htwo

/-- A pattern that is an even multiple of the spacing about it has an even fraction. -/
theorem getLsbD_zero_of_dvd {w : Word} {k : Nat} (hk : denormalShift ≤ k) (hdvd : 2 ^ (k + 1) ∣ unitMag w)
    (hle : unitMag w ≤ 2 ^ (k + 53)) : w.getLsbD 0 = false := by
  refine getLsbD_zero_of_even ?_
  by_cases h0 : fExp w = 0
  · rw [unitMag, fMag, if_pos h0] at hdvd
    exact even_of_two_pow_dvd hk hdvd
  · have hw : unitMag w = (2 ^ 52 + fFrac w) * 2 ^ (denormalShift + (fExp w - 1)) := by
      rw [unitMag, fMag, if_neg h0, mul_two_pow_mul_two_pow]
    rw [hw] at hdvd hle
    by_cases hsmall : denormalShift + (fExp w - 1) ≤ k
    · have := even_of_two_pow_dvd hsmall hdvd
      omega
    · have hpow : 2 ^ (k + 53) ≤ 2 ^ 52 * 2 ^ (denormalShift + (fExp w - 1)) := by
        rw [← Nat.pow_add]
        exact Nat.pow_le_pow_right (by decide) (by omega)
      have := Nat.le_of_mul_le_mul_right (hle.trans hpow) (Nat.two_pow_pos _)
      omega

/-! ## Encoding (R120, R133 steps 10 and 11) -/

/-- A finite pattern of the sign and the magnitude given. -/
structure Encodes (r : Word) (neg : Bool) (u : Nat) : Prop where
  finite : isFinite r = true
  sign : fSign r = neg
  mag : unitMag r = u

/-- The fields of a pattern that is written as a number. -/
theorem fields_of_toNat {w : Word} {neg : Bool} {e m : Nat} (h : w.toNat = neg.toNat * 2 ^ 63 + e * 2 ^ 52 + m)
    (he : e < 2048) (hm : m < 2 ^ 52) : fSign w = neg ∧ fExp w = e ∧ fFrac w = m := by
  refine ⟨?_, ?_, ?_⟩
  · rw [fSign, ← BitVec.testBit_toNat, Nat.testBit_eq_decide_div_mod_eq, h]
    cases neg
    · simp only [Bool.toNat_false, decide_eq_false_iff_not]
      omega
    · simp only [Bool.toNat_true, decide_eq_true_eq]
      omega
  · rw [fExp, BitVec.extractLsb'_toNat, Nat.shiftRight_eq_div_pow, h]
    omega
  · rw [fFrac, BitVec.extractLsb'_toNat, Nat.shiftRight_eq_div_pow, h]
    omega

theorem toNat_ofBool_append {n : Nat} (neg : Bool) (v : BitVec n) :
    (BitVec.ofBool neg ++ v).toNat = neg.toNat * 2 ^ n + v.toNat := by
  rw [BitVec.toNat_append, ← Nat.shiftLeft_add_eq_or_of_lt v.isLt, Nat.shiftLeft_eq, BitVec.toNat_ofBool]

theorem encodeDenormal_encodes (neg : Bool) {u : Nat} (hdvd : 2 ^ denormalShift ∣ u)
    (hle : u ≤ 2 ^ (denormalShift + 52)) : Encodes (encodeDenormal neg u) neg u := by
  obtain ⟨d, hd⟩ := hdvd
  have hquot : u / 2 ^ denormalShift = d := Nat.div_eq_of_eq_mul_right two_pow_denormalShift_pos hd
  rw [hd, pow_add 2 denormalShift 52, Nat.mul_le_mul_left_iff two_pow_denormalShift_pos] at hle
  have hbits : (encodeDenormal neg u).toNat = neg.toNat * 2 ^ 63 + (d / 2 ^ 52) * 2 ^ 52 + d % 2 ^ 52 := by
    rw [encodeDenormal, hquot, toNat_ofBool_append, BitVec.toNat_ofNat]
    omega
  obtain ⟨hsign, hexp, hfrac⟩ := fields_of_toNat hbits (by omega) (Nat.mod_lt _ (by decide))
  refine ⟨?_, hsign, ?_⟩
  · rw [isFinite, hexp, bne_iff_ne]
    omega
  · rw [unitMag, fMag, hexp, hfrac, hd, Nat.mul_comm]
    congr 1
    split
    · omega
    · rw [show d = 2 ^ 52 by omega]
      rfl

/-- The significant bits of a magnitude on its own 53-bit grid. -/
theorem significand_bounds {u d : Nat} (hlow : 52 ≤ u.log2) (hd : u = 2 ^ (u.log2 - 52) * d) :
    2 ^ 52 ≤ d ∧ d < 2 ^ 53 := by
  have hu : u ≠ 0 := by
    rintro rfl
    exact absurd hlow (by decide)
  have hpos := Nat.two_pow_pos (u.log2 - 52)
  have h1 : 2 ^ (u.log2 - 52) * 2 ^ 52 ≤ 2 ^ (u.log2 - 52) * d := by
    rw [← hd, ← Nat.pow_add, Nat.sub_add_cancel hlow]
    exact Nat.log2_self_le hu
  have h2 : 2 ^ (u.log2 - 52) * d < 2 ^ (u.log2 - 52) * 2 ^ 53 := by
    rw [← hd, ← Nat.pow_add, show u.log2 - 52 + 53 = u.log2 + 1 by omega]
    exact Nat.lt_log2_self
  exact ⟨Nat.le_of_mul_le_mul_left h1 hpos, Nat.lt_of_mul_lt_mul_left h2⟩

theorem encodeNormal_encodes (neg : Bool) {u : Nat} (hlow : 1126 ≤ u.log2) (hhigh : u.log2 < 3172)
    (hdvd : 2 ^ (u.log2 - 52) ∣ u) : Encodes (encodeNormal neg u) neg u := by
  obtain ⟨d, hd⟩ := hdvd
  obtain ⟨hd1, hd2⟩ := significand_bounds (by omega) hd
  have hquot : u / 2 ^ (u.log2 - 52) = d := Nat.div_eq_of_eq_mul_right (Nat.two_pow_pos _) hd
  have hbits : (encodeNormal neg u).toNat = neg.toNat * 2 ^ 63 + (u.log2 - 1125) * 2 ^ 52 + (d - 2 ^ 52) := by
    rw [encodeNormal, hquot, BitVec.toNat_append, toNat_ofBool_append,
      ← Nat.shiftLeft_add_eq_or_of_lt (BitVec.isLt _), Nat.shiftLeft_eq, BitVec.toNat_ofNat, BitVec.toNat_ofNat]
    omega
  obtain ⟨hsign, hexp, hfrac⟩ := fields_of_toNat hbits (by omega) (by omega)
  refine ⟨?_, hsign, ?_⟩
  · rw [isFinite, hexp, bne_iff_ne]
    omega
  · rw [unitMag, fMag, hexp, hfrac, if_neg (by omega), Nat.add_sub_cancel' hd1, mul_two_pow_mul_two_pow,
      show denormalShift + (u.log2 - 1125 - 1) = u.log2 - 52 by unfold denormalShift; omega, Nat.mul_comm, ← hd]

/-! ## Real values and exact sums as integers of 2^-2148 (R120, R133 step 6) -/

/-- The unit of an exact sum. -/
def sumUnit : ℚ := 2 ^ (-2148 : ℤ)

theorem sumUnit_pos : 0 < sumUnit := zpow_pos (by norm_num) _

theorem sumUnit_eq_mul : sumUnit = 2 ^ (-1074 : ℤ) * 2 ^ (-1074 : ℤ) := by
  rw [sumUnit, ← zpow_add₀ two_ne_zero]
  rfl

/-- A power of two in the unit. -/
theorem two_zpow_eq_sumUnit (n : ℕ) {e : ℤ} (h : e = n - 2148) : (2 : ℚ) ^ e = 2 ^ n * sumUnit := by
  rw [h, sumUnit, ← zpow_natCast, ← zpow_add₀ two_ne_zero]
  rfl

/-- The integer of a sign and a magnitude. -/
def signedInt (neg : Bool) (mag : Nat) : ℤ := if neg then -(mag : ℤ) else mag

@[simp] theorem signedInt_true (mag : Nat) : signedInt true mag = -(mag : ℤ) := rfl
@[simp] theorem signedInt_false (mag : Nat) : signedInt false mag = mag := rfl

@[simp] theorem signedInt_not (neg : Bool) (mag : Nat) : signedInt (!neg) mag = -signedInt neg mag := by
  cases neg <;> simp

@[simp] theorem natAbs_signedInt (neg : Bool) (mag : Nat) : (signedInt neg mag).natAbs = mag := by
  cases neg <;> simp

theorem signedInt_natAbs (v : ℤ) : signedInt (decide (v < 0)) v.natAbs = v := by
  unfold signedInt
  split
  · next h =>
    have := of_decide_eq_true h
    omega
  · next h =>
    have : ¬ v < 0 := fun hv => h (decide_eq_true hv)
    omega

theorem signedInt_mul (neg : Bool) (m q : Nat) : signedInt neg (m * q) = signedInt neg m * q := by
  cases neg <;> simp [signedInt]

theorem fVal_eq (w : Word) : fVal w = signedInt (fSign w) (fMag w) := rfl

theorem realValue_eq_fVal (w : Word) : realValue w = fVal w * 2 ^ (-1074 : ℤ) := by
  have hmag : (fMag w : ℚ) * 2 ^ (-1074 : ℤ) =
      if fExp w = 0 then (fFrac w : ℚ) * 2 ^ (-1074 : ℤ)
      else (2 ^ 52 + (fFrac w : ℚ)) * 2 ^ ((fExp w : ℤ) - 1075) := by
    rw [fMag]
    split
    · rfl
    · have hexp : ((fExp w : ℤ) - 1075) = ((fExp w - 1 : ℕ) : ℤ) + (-1074) := by omega
      rw [hexp, zpow_add₀ two_ne_zero, zpow_natCast, ← mul_assoc]
      simp only [Nat.cast_mul, Nat.cast_add, Nat.cast_pow, Nat.cast_ofNat]
  rw [realValue, ← hmag, fVal]
  cases fSign w <;> simp

/-- The denormal grid in the unit of the exact sum. -/
theorem two_pow_1074_mul_sumUnit : (2 : ℚ) ^ 1074 * sumUnit = 2 ^ (-1074 : ℤ) :=
  (two_zpow_eq_sumUnit 1074 (by norm_num)).symm

theorem realValue_eq (w : Word) : realValue w = signedInt (fSign w) (unitMag w) * sumUnit := by
  rw [realValue_eq_fVal, unitMag, signedInt_mul, fVal_eq, ← two_pow_1074_mul_sumUnit, denormalShift, Nat.cast_pow,
    Int.cast_mul, Int.cast_pow, mul_assoc]
  rfl

theorem exactReal_eq (x y z : Word) : exactReal x y z = exactSum x y z * sumUnit := by
  rw [exactReal, realValue_eq_fVal, realValue_eq_fVal, realValue_eq_fVal, exactSum]
  rw [Int.cast_add, Int.cast_neg, Int.cast_mul, Int.cast_mul, Int.cast_pow, Int.cast_ofNat, add_mul,
    mul_assoc _ _ sumUnit, two_pow_1074_mul_sumUnit, sumUnit_eq_mul]
  ring

theorem realValue_eq_zero {w : Word} : realValue w = 0 ↔ isZero w = true := by
  rw [← fMag_eq_zero, realValue_eq_fVal, fVal]
  cases fSign w <;> simp

/-! ### Comparisons of integers of the unit -/

theorem mul_sumUnit_le {a b : ℤ} : (a : ℚ) * sumUnit ≤ b * sumUnit ↔ a ≤ b := by
  rw [mul_le_mul_iff_of_pos_right sumUnit_pos, Int.cast_le]

theorem mul_sumUnit_inj {a b : ℤ} : (a : ℚ) * sumUnit = b * sumUnit ↔ a = b := by
  rw [mul_left_inj' sumUnit_pos.ne', Int.cast_inj]

theorem abs_mul_sumUnit (a : ℤ) : |(a : ℚ) * sumUnit| = (a.natAbs : ℤ) * sumUnit := by
  rw [abs_mul, abs_of_pos sumUnit_pos, ← Int.cast_abs, Int.abs_eq_natAbs]

theorem abs_sub_mul_sumUnit (a b : ℤ) : |(a : ℚ) * sumUnit - b * sumUnit| = ((a - b).natAbs : ℤ) * sumUnit := by
  rw [← sub_mul, ← Int.cast_sub, abs_mul_sumUnit]

theorem mul_sumUnit_neg {neg : Bool} {mag : Nat} (hm : mag ≠ 0) :
    (signedInt neg mag : ℚ) * sumUnit < 0 ↔ neg = true := by
  rw [← not_le, mul_nonneg_iff_of_pos_right sumUnit_pos, Int.cast_nonneg_iff]
  cases neg
  · simp
  · simpa using hm

/-! ## A rounding of magnitudes is a rounding of reals (R122) -/

section
variable {neg : Bool} {lo hi mag u : Nat} (hlo : lo ≤ mag) (hhi : mag < hi)
include hlo hhi

/-- Nothing off the open interval of the neighbours is nearer than the chosen one, and a tie is half way. -/
theorem nearest_neighbour (hu : Chooses .nearest lo hi mag u) (sw : Bool) {g : Nat} (hg : g ≤ lo ∨ hi ≤ g) :
    (signedInt neg u - signedInt neg mag).natAbs ≤ (signedInt sw g - signedInt neg mag).natAbs ∧
      (signedInt sw g ≠ signedInt neg u →
        (signedInt sw g - signedInt neg mag).natAbs = (signedInt neg u - signedInt neg mag).natAbs →
        2 * mag = lo + hi) := by
  simp only [Chooses] at hu
  cases neg <;> cases sw <;> simp only [signedInt_true, signedInt_false] <;> omega

/-- Rounding down: the chosen neighbour is the greatest value at or below. -/
theorem greatest_below (hu : Chooses (direction .rd neg) lo hi mag u) :
    signedInt neg u ≤ signedInt neg mag ∧ ∀ (sw : Bool) (g : Nat), g ≤ lo ∨ hi ≤ g →
      signedInt sw g ≤ signedInt neg mag → signedInt sw g ≤ signedInt neg u := by
  cases neg with
  | false =>
    have hu : u = lo := hu
    refine ⟨by simpa [hu] using hlo, fun sw g hg => ?_⟩
    cases sw <;> simp only [signedInt_true, signedInt_false] <;> omega
  | true =>
    have hu : (mag = lo ∧ u = lo) ∨ (lo < mag ∧ u = hi) := hu
    refine ⟨by simp only [signedInt_true]; omega, fun sw g hg => ?_⟩
    cases sw <;> simp only [signedInt_true, signedInt_false] <;> omega

/-- Rounding up is rounding the negated value down. -/
theorem least_above (hu : Chooses (direction .ru neg) lo hi mag u) :
    signedInt neg mag ≤ signedInt neg u ∧ ∀ (sw : Bool) (g : Nat), g ≤ lo ∨ hi ≤ g →
      signedInt neg mag ≤ signedInt sw g → signedInt neg u ≤ signedInt sw g := by
  have hdown : Chooses (direction .rd (!neg)) lo hi mag u := by
    cases neg <;> exact hu
  obtain ⟨hle, hgreatest⟩ := greatest_below hlo hhi hdown
  refine ⟨by simpa using hle, fun sw g hg => ?_⟩
  simpa using hgreatest (!sw) g hg

end

section
variable {rm : RoundingMode} {neg : Bool} {lo hi mag u : Nat} {r : Word}

theorem Encodes.realValue_eq (h : Encodes r neg u) : realValue r = signedInt neg u * sumUnit := by
  rw [Machine.realValue_eq, h.sign, h.mag]

/-- The pattern of the neighbour that the mode's direction chooses is the rounded value, when no finite pattern lies
between the neighbours. -/
theorem roundsTo_of_chooses (hlo : lo ≤ mag) (hhi : mag < hi) (hu : Chooses (direction rm neg) lo hi mag u)
    (hr : Encodes r neg u) (hgap : ∀ w, isFinite w = true → unitMag w ≤ lo ∨ hi ≤ unitMag w)
    (htie : direction rm neg = .nearest → 2 * mag = lo + hi → r.getLsbD 0 = false) :
    RoundsTo rm (signedInt neg mag * sumUnit) r := by
  cases rm with
  | rn =>
    intro w hw
    obtain ⟨hnear, hhalf⟩ := nearest_neighbour hlo hhi hu (neg := neg) (fSign w) (hgap w hw)
    rw [hr.realValue_eq, realValue_eq w, abs_sub_mul_sumUnit, abs_sub_mul_sumUnit, mul_sumUnit_le, Ne, mul_sumUnit_inj,
      mul_sumUnit_inj, Nat.cast_le, Nat.cast_inj]
    exact ⟨hnear, fun hne heq => htie rfl (hhalf hne heq)⟩
  | rd =>
    obtain ⟨hle, hgreatest⟩ := greatest_below hlo hhi hu
    refine ⟨?_, fun w hw => ?_⟩
    · rw [hr.realValue_eq, mul_sumUnit_le]
      exact hle
    · rw [hr.realValue_eq, realValue_eq w, mul_sumUnit_le, mul_sumUnit_le]
      exact hgreatest _ _ (hgap w hw)
  | ru =>
    obtain ⟨hle, hleast⟩ := least_above hlo hhi hu
    refine ⟨?_, fun w hw => ?_⟩
    · rw [hr.realValue_eq, mul_sumUnit_le]
      exact hle
    · rw [hr.realValue_eq, realValue_eq w, mul_sumUnit_le, mul_sumUnit_le]
      exact hleast _ _ (hgap w hw)
  | rz =>
    have hu : u = lo := hu
    refine ⟨?_, ?_, fun w hw => ?_⟩
    · rw [hr.realValue_eq, abs_mul_sumUnit, abs_mul_sumUnit, mul_sumUnit_le]
      simpa [hu] using hlo
    · have hsquare : (0 : ℚ) ≤ signedInt neg u * signedInt neg mag := by
        cases neg <;> simp <;> positivity
      rw [hr.realValue_eq, mul_mul_mul_comm]
      exact mul_nonneg hsquare (mul_self_nonneg _)
    · have hgap := hgap w hw
      rw [hr.realValue_eq, realValue_eq w, abs_mul_sumUnit, abs_mul_sumUnit, abs_mul_sumUnit, mul_sumUnit_le,
        mul_sumUnit_le]
      simp only [natAbs_signedInt, Nat.cast_le]
      omega

end

/-! ## The thresholds as real numbers (R143, R144) -/

/-- The rounding of `v` to 53 significant bits reaches the power of two `p` in magnitude, the 53-bit numbers below it
being `q` apart. -/
def AttainsReal (rm : RoundingMode) (v p q : ℚ) : Prop :=
  match rm with
  | .rn => p - q / 2 ≤ |v|
  | .rz => p ≤ |v|
  | .ru => p - q < v ∨ v ≤ -p
  | .rd => p ≤ v ∨ v < -(p - q)

theorem two_zpow_half (e : ℤ) : (2 : ℚ) ^ e / 2 = 2 ^ (e - 1) := by
  rw [zpow_sub_one₀ two_ne_zero, div_eq_mul_inv]

theorem overflowsReal_iff_attainsReal (rm : RoundingMode) (v : ℚ) :
    OverflowsReal rm v ↔ AttainsReal rm v (2 ^ (1024 : ℤ)) (2 ^ (971 : ℤ)) := by
  cases rm with
  | rn =>
    rw [AttainsReal, two_zpow_half]
    rfl
  | rz => rfl
  | ru => rfl
  | rd => rfl

theorem tinyReal_iff_not_attainsReal (rm : RoundingMode) {v : ℚ} (hv : v ≠ 0) :
    TinyReal rm v ↔ ¬ AttainsReal rm v (2 ^ (-1022 : ℤ)) (2 ^ (-1075 : ℤ)) := by
  refine (and_iff_right hv).trans ?_
  cases rm with
  | rn =>
    rw [AttainsReal, two_zpow_half]
    exact not_le.symm
  | rz => exact not_le.symm
  | ru => simp only [AttainsReal, not_or, not_lt, not_le]
  | rd => simp only [AttainsReal, not_or, not_lt, not_le]

theorem attainsReal_mul (rm : RoundingMode) (v p q : ℚ) {c : ℚ} (hc : 0 < c) :
    AttainsReal rm (v * c) (p * c) (q * c) ↔ AttainsReal rm v p q := by
  have hle (a b : ℚ) : a * c ≤ b * c ↔ a ≤ b := mul_le_mul_iff_of_pos_right hc
  have hlt (a b : ℚ) : a * c < b * c ↔ a < b := mul_lt_mul_iff_of_pos_right hc
  have habs : |v * c| = |v| * c := by
    rw [abs_mul, abs_of_pos hc]
  cases rm with
  | rn => rw [AttainsReal, habs, mul_div_right_comm, ← sub_mul, hle, AttainsReal]
  | rz => rw [AttainsReal, habs, hle, AttainsReal]
  | ru => rw [AttainsReal, ← sub_mul, ← neg_mul, hlt, hle, AttainsReal]
  | rd => rw [AttainsReal, ← sub_mul, ← neg_mul, hlt, hle, AttainsReal]

/-- On integers the thresholds are those of the magnitude. -/
theorem attainsReal_signedInt (rm : RoundingMode) (neg : Bool) {mag p q : Nat} (hp : 0 < p) (hq : q ≤ p) :
    AttainsReal rm (signedInt neg mag) p q ↔ Attains (direction rm neg) p q mag := by
  have habs : |(signedInt neg mag : ℚ)| = mag := by
    cases neg <;> simp
  have hmag : (0 : ℚ) ≤ mag := Nat.cast_nonneg mag
  have hp : (0 : ℚ) < p := Nat.cast_pos.mpr hp
  have hq : (q : ℚ) ≤ p := Nat.cast_le.mpr hq
  have hle : (p : ℚ) ≤ mag ↔ p ≤ mag := Nat.cast_le
  have hlt : (p : ℚ) - q < mag ↔ p < mag + q := by
    rw [sub_lt_iff_lt_add, ← Nat.cast_add, Nat.cast_lt]
  cases rm with
  | rn =>
    simp only [AttainsReal, direction, Attains, habs]
    rw [← Nat.cast_le (α := ℚ)]
    push_cast
    constructor <;> intro h <;> linarith
  | rz =>
    rw [AttainsReal, habs]
    exact hle
  | ru =>
    cases neg with
    | true =>
      simp only [AttainsReal, direction, Attains, signedInt_true, Int.cast_neg, Int.cast_natCast, neg_le_neg_iff, hle,
        if_true]
      exact or_iff_right (by linarith)
    | false =>
      simp only [AttainsReal, direction, Attains, signedInt_false, Int.cast_natCast, hlt, Bool.false_eq_true, if_false]
      exact or_iff_left (by linarith)
  | rd =>
    cases neg with
    | true =>
      simp only [AttainsReal, direction, Attains, signedInt_true, Int.cast_neg, Int.cast_natCast, neg_lt_neg_iff, hlt,
        if_true]
      exact or_iff_right (by linarith)
    | false =>
      simp only [AttainsReal, direction, Attains, signedInt_false, Int.cast_natCast, hle, Bool.false_eq_true, if_false]
      exact or_iff_left (by linarith)

/-- The thresholds tell what the rounding with no limit on the exponent reaches. -/
theorem attainsReal_iff_roundUnbounded (rm : RoundingMode) (neg : Bool) {mag e : Nat} {a b : ℤ} (hm : mag ≠ 0)
    (he : 53 ≤ e) (ha : a = e - 2148) (hb : b = (e - 53 : ℕ) - 2148) :
    AttainsReal rm (signedInt neg mag * sumUnit) (2 ^ a) (2 ^ b) ↔ 2 ^ e ≤ roundUnbounded rm neg mag := by
  have hpow (n : ℕ) : (2 : ℚ) ^ n = ((2 ^ n : ℕ) : ℚ) := by
    rw [Nat.cast_pow, Nat.cast_ofNat]
  rw [two_zpow_eq_sumUnit e ha, two_zpow_eq_sumUnit (e - 53) hb, attainsReal_mul rm _ _ _ sumUnit_pos, hpow, hpow,
    attainsReal_signedInt rm neg (Nat.two_pow_pos e) (Nat.pow_le_pow_right (by decide) (Nat.sub_le e 53)),
    le_roundUnbounded_iff rm neg hm he]

theorem overflowsReal_iff (rm : RoundingMode) (neg : Bool) {mag : Nat} (hm : mag ≠ 0) :
    OverflowsReal rm (signedInt neg mag * sumUnit) ↔ overflowMag ≤ roundUnbounded rm neg mag := by
  rw [overflowsReal_iff_attainsReal, overflowMag,
    attainsReal_iff_roundUnbounded rm neg (e := 3172) hm (by norm_num) (by norm_num) (by norm_num)]

theorem signedInt_mul_sumUnit_ne_zero (neg : Bool) {mag : Nat} (hm : mag ≠ 0) :
    (signedInt neg mag : ℚ) * sumUnit ≠ 0 := by
  refine mul_ne_zero ?_ sumUnit_pos.ne'
  cases neg <;> simpa using hm

theorem tinyReal_iff (rm : RoundingMode) (neg : Bool) {mag : Nat} (hm : mag ≠ 0) :
    TinyReal rm (signedInt neg mag * sumUnit) ↔ roundUnbounded rm neg mag < minNormalMag := by
  rw [tinyReal_iff_not_attainsReal rm (signedInt_mul_sumUnit_ne_zero neg hm), ← not_le, minNormalMag,
    attainsReal_iff_roundUnbounded rm neg (e := 1126) hm (by norm_num) (by norm_num) (by norm_num)]

/-! ## What each step of R133 delivers -/

theorem minNormalMag_eq : minNormalMag = 2 ^ (denormalShift + 52) := by
  rw [minNormalMag, show 1126 = denormalShift + 52 from rfl]

theorem minNormalMag_pos : 0 < minNormalMag := pow_pos (by decide) 1126

theorem minNormalMag_le_overflowMag : minNormalMag ≤ overflowMag := pow_le_pow_right₀ (by decide) (by norm_num)

section
variable {rm : RoundingMode} {neg : Bool} {mag : Nat}

/-- The pattern of the rounded magnitude is the rounded value. -/
theorem roundsTo_of_encodes {r : Word} (hm : mag ≠ 0)
    (hr : Encodes r neg (roundTo rm neg mag (finalShift denormalShift mag))) :
    RoundsTo rm (signedInt neg mag * sumUnit) r := by
  refine roundsTo_of_chooses (gridBelow_le _ _) (lt_gridBelow_add _ _) (roundTo_chooses _ _ _ _) hr
    (fun w hw => unitMag_gap hw hm) (fun hd htie => ?_)
  refine getLsbD_zero_of_dvd (le_finalShift denormalShift mag) ?_ ?_
  · rw [hr.mag]
    exact roundTo_tie hd (by omega)
  · rw [hr.mag]
    exact roundTo_le_of_dvd rm neg (pow_dvd_pow 2 (Nat.le_add_right _ _)) (lt_two_pow_finalShift _ _).le

/-- R145: an encoded magnitude is inexact as a real number exactly when it is inexact as an integer. -/
theorem Encodes.inexact {r : Word} {u : Nat} (hr : Encodes r neg u) :
    (u != mag) = decide (realValue r ≠ signedInt neg mag * sumUnit) := by
  rw [Bool.eq_iff_iff, bne_iff_ne, decide_eq_true_iff, hr.realValue_eq, Ne, Ne, mul_sumUnit_inj, not_iff_not]
  exact ⟨congrArg _, fun h => by simpa using congrArg Int.natAbs h⟩

/-- R142: the rounding with no limit on the exponent has 53 significant bits. -/
theorem dvd_roundUnbounded :
    2 ^ ((roundUnbounded rm neg mag).log2 - 52) ∣ roundUnbounded rm neg mag := by
  by_cases hle : (roundUnbounded rm neg mag).log2 ≤ mag.log2
  · exact (pow_dvd_pow 2 (Nat.sub_le_sub_right hle 52)).trans (dvd_roundTo rm neg)
  · have hu : roundUnbounded rm neg mag ≠ 0 := by
      intro h
      rw [h] at hle
      exact hle (Nat.zero_le _)
    have hupper : roundUnbounded rm neg mag ≤ 2 ^ (mag.log2 + 1) :=
      roundTo_le_of_dvd rm neg (pow_dvd_pow 2 (by omega)) Nat.lt_log2_self.le
    have hlower : 2 ^ (mag.log2 + 1) ≤ roundUnbounded rm neg mag := (Nat.le_log2 hu).mp (by omega)
    rw [hupper.antisymm hlower]
    exact pow_dvd_pow 2 (by rw [Nat.log2_two_pow]; omega)

theorem log2_bounds {u a b : Nat} (hu : u ≠ 0) (ha : 2 ^ a ≤ u) (hb : u < 2 ^ b) : a ≤ u.log2 ∧ u.log2 < b :=
  ⟨(Nat.le_log2 hu).mpr ha, (Nat.log2_lt hu).mpr hb⟩

/-- R133 step 11: what is neither tiny nor overflows is encoded as it was rounded. -/
theorem encodeNormal_roundUnbounded (hlow : minNormalMag ≤ roundUnbounded rm neg mag)
    (hhigh : roundUnbounded rm neg mag < overflowMag) :
    Encodes (encodeNormal neg (roundUnbounded rm neg mag)) neg (roundUnbounded rm neg mag) := by
  have hu : roundUnbounded rm neg mag ≠ 0 := by
    have := minNormalMag_pos
    omega
  obtain ⟨hlog1, hlog2⟩ := log2_bounds hu hlow hhigh
  exact encodeNormal_encodes neg hlog1 hlog2 dvd_roundUnbounded

/-- R133 step 10: a tiny result is encoded as it was rounded to the denormal grid. -/
theorem encodeDenormal_roundTo (hm : mag ≠ 0) (h : roundUnbounded rm neg mag < minNormalMag) :
    Encodes (encodeDenormal neg (roundTo rm neg mag denormalShift)) neg (roundTo rm neg mag denormalShift) := by
  rw [minNormalMag_eq] at h
  have hmag : mag ≤ 2 ^ (denormalShift + 52) := by
    have hlog := (Nat.pow_lt_pow_iff_right (by decide)).mp ((two_pow_log2_le_roundUnbounded hm).trans_lt h)
    exact (Nat.lt_log2_self (n := mag)).le.trans (Nat.pow_le_pow_right (by decide) hlog)
  exact encodeDenormal_encodes neg (dvd_roundTo rm neg)
    (roundTo_le_of_dvd rm neg (pow_dvd_pow 2 (Nat.le_add_right _ _)) hmag)

end

/-! ### Overflow to the largest finite pattern (R143) -/

/-- The magnitude of `MaxFinite`. -/
def maxFiniteMag : Nat := (2 ^ 53 - 1) * 2 ^ (denormalShift + 2045)

theorem unitMag_le_maxFiniteMag {w : Word} (h : isFinite w = true) : unitMag w ≤ maxFiniteMag := by
  obtain ⟨m, e, hm, -, he, hw⟩ := unitMag_of_isFinite h
  rw [hw]
  exact Nat.mul_le_mul (Nat.le_sub_one_of_lt hm) (pow_le_pow_right₀ (by decide) he)

theorem overflowMag_eq : overflowMag = 2 ^ 53 * 2 ^ (denormalShift + 2045) := by
  rw [← pow_add, overflowMag, show 3172 = 53 + (denormalShift + 2045) from rfl]

theorem maxFiniteMag_lt_overflowMag : maxFiniteMag < overflowMag :=
  calc maxFiniteMag < 2 ^ 53 * 2 ^ (denormalShift + 2045) :=
        Nat.mul_lt_mul_of_pos_right (by decide) (pow_pos (by decide) _)
    _ = overflowMag := overflowMag_eq.symm

theorem signedMax_encodes (neg : Bool) : Encodes (signedMax neg) neg maxFiniteMag := by
  have hfields : fSign (signedMax neg) = neg ∧ fExp (signedMax neg) = 2046 ∧
      fFrac (signedMax neg) = 2 ^ 52 - 1 := by
    cases neg <;> decide
  obtain ⟨hsign, hexp, hfrac⟩ := hfields
  refine ⟨by rw [isFinite, hexp]; rfl, hsign, ?_⟩
  calc unitMag (signedMax neg) = (2 ^ 53 - 1) * 2 ^ 2045 * 2 ^ denormalShift := by
        rw [unitMag, fMag, hexp, hfrac, if_neg (by decide), show 2046 - 1 = 2045 from rfl,
          show 2 ^ 52 + (2 ^ 52 - 1) = 2 ^ 53 - 1 from rfl]
    _ = maxFiniteMag := mul_two_pow_mul_two_pow _ _ _

theorem isFinite_signedInf (neg : Bool) : isFinite (signedInf neg) = false := by
  cases neg <;> decide

/-- R143: an overflow is stopped at `MaxFinite` where the mode rounds inward. -/
theorem overflowResult_of_inward {rm : RoundingMode} {neg : Bool} (h : direction rm neg = .inward) :
    overflowResult rm neg = signedMax neg := by
  cases rm <;> cases neg <;> cases h <;> rfl

theorem overflowResult_of_not_inward {rm : RoundingMode} {neg : Bool} (h : direction rm neg ≠ .inward) :
    overflowResult rm neg = signedInf neg := by
  cases rm <;> cases neg <;> trivial

theorem direction_of_isFinite_overflowResult {rm : RoundingMode} {neg : Bool}
    (h : isFinite (overflowResult rm neg) = true) : direction rm neg = .inward := by
  by_contra hd
  rw [overflowResult_of_not_inward hd, isFinite_signedInf] at h
  cases h

/-- A value delivered for the real `v` by one rounding. -/
structure Delivers (rm : RoundingMode) (v : ℚ) (r : Word) : Prop where
  rounds : RoundsTo rm v r
  finite : isFinite r = true
  sign : fSign r = decide (v < 0)

/-- R133 step 10 with the value and its exactness worked out. -/
def tinyResult (ctl : FpControl) (pe de neg : Bool) (r : Word) (inexact : Bool) : FmaResult :=
  if !ctl.um then .trap { de := de, ue := true, pe := inexact && pe }
  else if ctl.ftz then precisionStep ctl (signedZero neg) { de := de, ue := true, pe := true }
  else precisionStep ctl r { de := de, ue := inexact, pe := inexact }

/-- R133 steps 8 to 12 on the exact sum `v` as a real number: which step answers, and with what. -/
inductive RoundOutcome (rm : RoundingMode) (ctl : FpControl) (pe de : Bool) (v : ℚ) : FmaResult → Prop
  | overflow (hover : OverflowsReal rm v) (htiny : ¬ TinyReal rm v)
      (hr : isFinite (overflowResult rm (decide (v < 0))) = true →
        RoundsTo rm v (overflowResult rm (decide (v < 0))) ∧ realValue (overflowResult rm (decide (v < 0))) ≠ v) :
      RoundOutcome rm ctl pe de v (overflowStep rm ctl pe de (decide (v < 0)))
  | tiny (hover : ¬ OverflowsReal rm v) (htiny : TinyReal rm v) (r : Word) (hr : Delivers rm v r) :
      RoundOutcome rm ctl pe de v (tinyResult ctl pe de (decide (v < 0)) r (decide (realValue r ≠ v)))
  | normal (hover : ¬ OverflowsReal rm v) (htiny : ¬ TinyReal rm v) (r : Word) (hr : Delivers rm v r) :
      RoundOutcome rm ctl pe de v (precisionStep ctl r { de := de, pe := decide (realValue r ≠ v) })

section
variable {rm : RoundingMode} {neg : Bool} {mag : Nat}

/-- R143: `MaxFinite` is the value rounded inward, and not the value. -/
theorem overflowResult_rounds (hm : mag ≠ 0) (h : overflowMag ≤ roundUnbounded rm neg mag)
    (hr : isFinite (overflowResult rm neg) = true) :
    RoundsTo rm (signedInt neg mag * sumUnit) (overflowResult rm neg) ∧
      realValue (overflowResult rm neg) ≠ signedInt neg mag * sumUnit := by
  have hd := direction_of_isFinite_overflowResult hr
  have hreach := (le_roundUnbounded_iff rm neg hm (p := 3172) (by norm_num)).mp h
  rw [hd] at hreach
  have hlt : maxFiniteMag < mag := maxFiniteMag_lt_overflowMag.trans_le hreach
  have hencodes := signedMax_encodes neg
  rw [overflowResult_of_inward hd]
  refine ⟨?_, ?_⟩
  · refine roundsTo_of_chooses hlt.le mag.lt_succ_self (by rw [hd]; rfl) hencodes
      (fun w hw => .inl (unitMag_le_maxFiniteMag hw)) (fun hn => ?_)
    rw [hd] at hn
    cases hn
  · refine of_decide_eq_true ?_
    rw [← hencodes.inexact, bne_iff_ne]
    exact hlt.ne

theorem Delivers.of_encodes {r : Word} (hm : mag ≠ 0)
    (hr : Encodes r neg (roundTo rm neg mag (finalShift denormalShift mag))) :
    Delivers rm (signedInt neg mag * sumUnit) r := by
  refine ⟨roundsTo_of_encodes hm hr, hr.finite, ?_⟩
  rw [hr.sign, eq_comm]
  simp only [mul_sumUnit_neg hm, Bool.decide_eq_true]

theorem roundStep_outcome (rm : RoundingMode) (ctl : FpControl) (pe de neg : Bool) {mag : Nat} (hm : mag ≠ 0) :
    RoundOutcome rm ctl pe de (signedInt neg mag * sumUnit) (roundStep rm ctl pe de neg mag) := by
  have hneg : decide ((signedInt neg mag : ℚ) * sumUnit < 0) = neg := by
    simp only [mul_sumUnit_neg hm, Bool.decide_eq_true]
  have hover := overflowsReal_iff rm neg hm
  have htiny := tinyReal_iff rm neg hm
  simp only [roundStep]
  split
  · next h =>
    have hbig : ¬ roundUnbounded rm neg mag < minNormalMag :=
      not_lt.mpr (minNormalMag_le_overflowMag.trans h)
    have hout := RoundOutcome.overflow (ctl := ctl) (pe := pe) (de := de) (hover.mpr h) (htiny.not.mpr hbig)
      (by rw [hneg]; exact overflowResult_rounds hm h)
    rwa [hneg] at hout
  · next h =>
    split
    · next ht =>
      have hr := encodeDenormal_roundTo hm ht
      have hfinal : Encodes (encodeDenormal neg (roundTo rm neg mag denormalShift)) neg
          (roundTo rm neg mag (finalShift denormalShift mag)) := by
        rw [finalShift_of_tiny hm (minNormalMag_eq ▸ ht)]
        exact hr
      have hout := RoundOutcome.tiny (ctl := ctl) (pe := pe) (de := de) (hover.not.mpr h) (htiny.mpr ht) _
        (.of_encodes hm hfinal)
      rwa [hneg, ← hr.inexact] at hout
    · next ht =>
      have hr := encodeNormal_roundUnbounded (not_lt.mp ht) (not_le.mp h)
      have hfinal : Encodes (encodeNormal neg (roundUnbounded rm neg mag)) neg
          (roundTo rm neg mag (finalShift denormalShift mag)) := by
        rw [← roundUnbounded_eq_roundTo (by decide) (minNormalMag_eq ▸ not_lt.mp ht)]
        exact hr
      have hout := RoundOutcome.normal (ctl := ctl) (pe := pe) (de := de) (hover.not.mpr h) (htiny.not.mpr ht) _
        (.of_encodes hm hfinal)
      rwa [← hr.inexact] at hout

end

/-! ## FNMAdd64 of finite operands (R133 steps 6 to 12) -/

section
variable {x y z : Word} (rm : RoundingMode) (ctl : FpControl) (pe : Bool)

/-- The exact sum of the operands as DAZ reads them. -/
def dazSum (ctl : FpControl) (x y z : Word) : ℚ := exactReal (applyDaz ctl x) (applyDaz ctl y) (applyDaz ctl z)

variable (hx : isFinite x = true) (hy : isFinite y = true) (hz : isFinite z = true) (h : denormalPasses ctl x y z)
include hx hy hz h

/-- R133 step 7. -/
theorem fnmadd64_of_zero_sum (hv : dazSum ctl x y z = 0) :
    fnmadd64 x y z rm ctl pe =
      .value (signedZero (zeroSumSign rm (applyDaz ctl x) (applyDaz ctl y) (applyDaz ctl z)))
        { de := denormalOperand ctl x y z } := by
  have hsum : exactSum (applyDaz ctl x) (applyDaz ctl y) (applyDaz ctl z) = 0 := by
    rw [dazSum, exactReal_eq] at hv
    exact_mod_cast (mul_eq_zero.mp hv).resolve_right sumUnit_pos.ne'
  rw [fnmadd64_of_isFinite rm ctl pe hx hy hz h, finiteStep]
  exact if_pos hsum

/-- R133 steps 8 to 12. -/
theorem roundOutcome_fnmadd64 (hv : dazSum ctl x y z ≠ 0) :
    RoundOutcome rm ctl pe (denormalOperand ctl x y z) (dazSum ctl x y z) (fnmadd64 x y z rm ctl pe) := by
  have hsum : exactSum (applyDaz ctl x) (applyDaz ctl y) (applyDaz ctl z) ≠ 0 := by
    intro h0
    rw [dazSum, exactReal_eq, h0, Int.cast_zero, zero_mul] at hv
    exact hv rfl
  have hout := roundStep_outcome rm ctl pe (denormalOperand ctl x y z)
    (decide (exactSum (applyDaz ctl x) (applyDaz ctl y) (applyDaz ctl z) < 0)) (Int.natAbs_ne_zero.mpr hsum)
  rw [signedInt_natAbs, ← exactReal_eq] at hout
  rw [fnmadd64_of_isFinite rm ctl pe hx hy hz h, finiteStep]
  simp only [if_neg hsum]
  exact hout

end

/-- A value of finite operands is not stopped by DE. -/
theorem denormalPasses_of_value {x y z : Word} {rm : RoundingMode} {ctl : FpControl} {pe : Bool} {r : Word}
    {f : FpFlags} (hx : isFinite x = true) (hy : isFinite y = true) (hz : isFinite z = true)
    (h : fnmadd64 x y z rm ctl pe = .value r f) : denormalPasses ctl x y z := by
  by_contra hpass
  have hvalid : suppressesDenormal ctl x y z = false := by
    simp [suppressesDenormal, isNaN_of_isFinite, invalidOp_of_not_isInf, isInf_of_isFinite, hx, hy, hz]
  rw [fnmadd64_of_not_suppressed hvalid, numericStep_of_not_denormalPasses rm ctl pe hpass] at h
  cases h

theorem realValue_signedZero (neg : Bool) : realValue (signedZero neg) = 0 :=
  realValue_eq_zero.mpr (isZero_signedZero neg)

theorem isFinite_signedZero (neg : Bool) : isFinite (signedZero neg) = true := by
  simp [isFinite]

/-! ## The sign of an exact zero (R141) -/

/-- Settles O51: `zeroSumSign` in terms of real values. -/
theorem exactZeroSign : Obligations.ExactZeroSign := by
  intro x y z rm ctl pe hx hy hz hpass x' y' z' ps zero hv
  have hzero : ∀ neg, zero neg = signedZero neg := fun neg => (signedZero_eq neg).symm
  have hprod : realValue x' * realValue y' = 0 ↔ (isZero x' || isZero y') = true := by
    rw [mul_eq_zero, realValue_eq_zero, realValue_eq_zero, Bool.or_eq_true]
  have hps : productSign x' y' = ps := productSign_applyDaz ctl x y
  have hsz : fSign z' = z.getLsbD 63 := fSign_applyDaz ctl z
  rw [fnmadd64_of_zero_sum rm ctl pe hx hy hz hpass hv, hzero, hzero]
  show (_ → _ → FmaResult.value (signedZero (zeroSumSign rm x' y' z')) _ = _) ∧
    (_ → FmaResult.value (signedZero (zeroSumSign rm x' y' z')) _ = _)
  rw [zeroSumSign, hps, hsz]
  refine ⟨fun h0 hsign => ?_, fun h => ?_⟩
  · rw [hprod.mp h0, hsign]
    simp
  · rw [if_neg]
    rw [Bool.and_eq_true, beq_iff_eq, ← hprod]
    rintro ⟨h0, hsign⟩
    exact h.elim (fun hne => hne h0) (fun hne => hne hsign)

/-! ## Correct rounding and the precision flag (R142, R145) -/

/-- A value is its own rounding. -/
theorem roundsTo_of_eq (rm : RoundingMode) {v : ℚ} {r : Word} (h : realValue r = v) : RoundsTo rm v r := by
  subst h
  cases rm with
  | rn =>
    intro w _
    rw [sub_self, abs_zero]
    exact ⟨abs_nonneg _, fun hne heq => absurd (sub_eq_zero.mp (abs_eq_zero.mp heq)) hne⟩
  | rd => exact ⟨le_refl _, fun _ _ hle => hle⟩
  | ru => exact ⟨le_refl _, fun _ _ hle => hle⟩
  | rz => exact ⟨le_refl _, mul_self_nonneg _, fun _ _ hle => hle⟩

section
variable {ctl : FpControl} {r r' : Word} {f f' : FpFlags}

theorem precisionStep_eq_value (h : precisionStep ctl r f = .value r' f') : r' = r ∧ f' = f := by
  obtain ⟨hv, -⟩ | ⟨ht, -⟩ := precisionStep_cases ctl r f
  · rw [hv] at h
    cases h
    exact ⟨rfl, rfl⟩
  · rw [ht] at h
    cases h

/-- R133 step 12 on an inexact result. -/
theorem precisionStep_of_inexact (h : f.pe = true) :
    precisionStep ctl r f = if ctl.pm then .value r f else .trap f := by
  rw [precisionStep, h]
  cases ctl.pm <;> rfl

theorem overflowStep_eq_value {rm : RoundingMode} {pe de neg : Bool} (h : overflowStep rm ctl pe de neg = .value r f) :
    r = overflowResult rm neg ∧ f = { de := de, oe := true, pe := true } := by
  unfold overflowStep at h
  split at h
  · exact precisionStep_eq_value h
  · cases h

theorem tinyResult_eq_value {pe de neg inexact : Bool} (hftz : ctl.ftz = false)
    (h : tinyResult ctl pe de neg r inexact = .value r' f) :
    r' = r ∧ f = { de := de, ue := inexact, pe := inexact } := by
  unfold tinyResult at h
  rw [hftz] at h
  split at h
  · cases h
  · exact precisionStep_eq_value h

end

/-- R142, R143, R145: what a value says of the exact sum, and what PE says of the value. -/
structure DeliveredFor (rm : RoundingMode) (v : ℚ) (r : Word) (pe : Bool) : Prop where
  rounds : isFinite r = true → RoundsTo rm v r
  precision : pe = true ↔ isFinite r = false ∨ realValue r ≠ v

theorem Delivers.deliveredFor {rm : RoundingMode} {v : ℚ} {r : Word} (h : Delivers rm v r) :
    DeliveredFor rm v r (decide (realValue r ≠ v)) :=
  ⟨fun _ => h.rounds, by simp [h.finite]⟩

theorem deliveredFor_of_value {x y z : Word} {rm : RoundingMode} {ctl : FpControl} {pe : Bool} {r : Word}
    {f : FpFlags} (hx : isFinite x = true) (hy : isFinite y = true) (hz : isFinite z = true) (hftz : ctl.ftz = false)
    (h : fnmadd64 x y z rm ctl pe = .value r f) : DeliveredFor rm (dazSum ctl x y z) r f.pe := by
  have hpass := denormalPasses_of_value hx hy hz h
  by_cases hv : dazSum ctl x y z = 0
  · rw [fnmadd64_of_zero_sum rm ctl pe hx hy hz hpass hv] at h
    cases h
    have heq := (realValue_signedZero
      (zeroSumSign rm (applyDaz ctl x) (applyDaz ctl y) (applyDaz ctl z))).trans hv.symm
    exact ⟨fun _ => roundsTo_of_eq rm heq, by simp [isFinite_signedZero, heq]⟩
  · have hout := roundOutcome_fnmadd64 rm ctl pe hx hy hz hpass hv
    rw [h] at hout
    generalize hres : FmaResult.value r f = res at hout
    cases hout with
    | overflow hover htiny hr =>
      obtain ⟨rfl, rfl⟩ := overflowStep_eq_value hres.symm
      refine ⟨fun hf => (hr hf).1, iff_of_true rfl ?_⟩
      rw [← Bool.not_eq_true]
      exact Classical.or_iff_not_imp_left.mpr fun hf => (hr (not_not.mp hf)).2
    | tiny hover htiny r hr =>
      obtain ⟨rfl, rfl⟩ := tinyResult_eq_value hftz hres.symm
      exact hr.deliveredFor
    | normal hover htiny r hr =>
      obtain ⟨rfl, rfl⟩ := precisionStep_eq_value hres.symm
      exact hr.deliveredFor

/-- Settles O52: the delivered value is the exact sum on the grid of the patterns, rounded once. -/
theorem correctRounding : Obligations.CorrectRounding := by
  intro x y z rm ctl pe r f hx hy hz hftz h hr
  exact (deliveredFor_of_value hx hy hz hftz h).rounds hr

/-- Settles O53: PE is inexactness, on integers and so on real numbers. -/
theorem precisionFlagTellsInexact : Obligations.PrecisionFlagTellsInexact := by
  intro x y z rm ctl pe r f hx hy hz hftz h
  exact (deliveredFor_of_value hx hy hz hftz h).precision

/-! ## Overflow (R143, R147) -/

theorem attainsReal_zero (rm : RoundingMode) {p q : ℚ} (hq : 0 < q) (hp : q < p) : ¬ AttainsReal rm 0 p q := by
  cases rm <;> simp only [AttainsReal, abs_zero, not_le, not_lt, not_or]
  · linarith
  · constructor <;> linarith
  · constructor <;> linarith
  · linarith

theorem overflowsReal_zero (rm : RoundingMode) : ¬ OverflowsReal rm 0 := by
  rw [overflowsReal_iff_attainsReal]
  exact attainsReal_zero rm (zpow_pos (by norm_num) _) (zpow_lt_zpow_right₀ (by norm_num) (by norm_num))

theorem signedMax_eq (neg : Bool) :
    signedMax neg = if neg then 0xFFEFFFFFFFFFFFFF#64 else 0x7FEFFFFFFFFFFFFF#64 := by
  cases neg <;> decide

/-- R147: OE is the overflow step's. -/
theorem RoundOutcome.flags_oe {rm : RoundingMode} {ctl : FpControl} {pe de : Bool} {v : ℚ} {res : FmaResult}
    (h : RoundOutcome rm ctl pe de v res) (hv : ¬ OverflowsReal rm v) : res.flags.oe = false := by
  cases h with
  | overflow hover => exact absurd hover hv
  | tiny =>
    unfold tinyResult
    cases ctl.um <;> cases ctl.ftz <;> simp
  | normal => simp

/-- R147: UE is the tiny step's. -/
theorem RoundOutcome.flags_ue {rm : RoundingMode} {ctl : FpControl} {pe de : Bool} {v : ℚ} {res : FmaResult}
    (h : RoundOutcome rm ctl pe de v res) (hv : ¬ TinyReal rm v) : res.flags.ue = false := by
  cases h with
  | overflow => simp
  | tiny _ htiny => exact absurd htiny hv
  | normal => simp

theorem RoundOutcome.eq_overflowStep {rm : RoundingMode} {ctl : FpControl} {pe de : Bool} {v : ℚ} {res : FmaResult}
    (h : RoundOutcome rm ctl pe de v res) (hv : OverflowsReal rm v) :
    res = overflowStep rm ctl pe de (decide (v < 0)) := by
  cases h with
  | overflow => rfl
  | tiny hover => exact absurd hv hover
  | normal hover => exact absurd hv hover

theorem RoundOutcome.eq_tinyResult {rm : RoundingMode} {ctl : FpControl} {pe de : Bool} {v : ℚ} {res : FmaResult}
    (h : RoundOutcome rm ctl pe de v res) (hv : TinyReal rm v) :
    ∃ r, Delivers rm v r ∧ res = tinyResult ctl pe de (decide (v < 0)) r (decide (realValue r ≠ v)) := by
  cases h with
  | overflow _ htiny => exact absurd hv htiny
  | tiny _ _ r hr => exact ⟨r, hr, rfl⟩
  | normal _ htiny => exact absurd hv htiny

/-- Settles O54: the overflow step answers at the thresholds of the mode, and no other step flags OE. (The name
`overflowResult` is the model's own.) -/
theorem overflowResultHolds : Obligations.OverflowResult := by
  intro x y z rm ctl pe hx hy hz hpass v de r
  have hr : overflowResult rm (decide (v < 0)) = r := by
    by_cases hneg : v < 0
    · cases rm <;> simp [overflowResult, signedInf_eq, signedMax_eq, r, hneg]
    · cases rm <;> simp [overflowResult, signedInf_eq, signedMax_eq, r, hneg]
  have hstep (hover : OverflowsReal rm v) :
      fnmadd64 x y z rm ctl pe = overflowStep rm ctl pe de (decide (v < 0)) := by
    have hv : dazSum ctl x y z ≠ 0 := fun h0 => overflowsReal_zero rm (h0 ▸ hover)
    exact (roundOutcome_fnmadd64 rm ctl pe hx hy hz hpass hv).eq_overflowStep hover
  refine ⟨fun hover hom hpm => ?_, fun hover hom hpm => ?_, fun hover hom => ⟨pe, ?_⟩, fun hover => ?_⟩
  · rw [hstep hover, overflowStep, if_pos hom, precisionStep_of_masked hpm, hr]
  · rw [hstep hover, overflowStep, if_pos hom, precisionStep, hpm]
    rfl
  · rw [hstep hover, overflowStep, hom]
    rfl
  · by_cases hv : dazSum ctl x y z = 0
    · rw [fnmadd64_of_zero_sum rm ctl pe hx hy hz hpass hv]
      rfl
    · exact (roundOutcome_fnmadd64 rm ctl pe hx hy hz hpass hv).flags_oe hover

/-! ## Underflow (R144 to R147) -/

section
variable {x y z : Word} {rm : RoundingMode} {ctl : FpControl} (pe : Bool) (hx : isFinite x = true)
  (hy : isFinite y = true) (hz : isFinite z = true) (hpass : denormalPasses ctl x y z)
include hx hy hz hpass

/-- R144: a tiny sum is answered by the tiny step, with the sum rounded once to the patterns. -/
theorem fnmadd64_of_tinyReal (htiny : TinyReal rm (dazSum ctl x y z)) :
    ∃ r, Delivers rm (dazSum ctl x y z) r ∧ fnmadd64 x y z rm ctl pe =
      tinyResult ctl pe (denormalOperand ctl x y z) (decide (dazSum ctl x y z < 0)) r
        (decide (realValue r ≠ dazSum ctl x y z)) :=
  (roundOutcome_fnmadd64 rm ctl pe hx hy hz hpass htiny.1).eq_tinyResult htiny

end

/-- Settles O55: the tiny step with its value, and no other step flags UE. -/
theorem underflowResult : Obligations.UnderflowResult := by
  intro x y z rm ctl pe hx hy hz hpass v de
  refine ⟨fun htiny hum hftz => ?_, fun htiny hum => ?_, fun htiny => ?_⟩
  · obtain ⟨r, hr, hres⟩ := fnmadd64_of_tinyReal pe hx hy hz hpass htiny
    refine ⟨r, hr.rounds, hr.finite, hr.sign, ?_⟩
    rw [hres, tinyResult, hum, hftz]
    by_cases hexact : realValue r = v
    · have hinexact : decide (realValue r ≠ dazSum ctl x y z) = false := decide_eq_false (not_not.mpr hexact)
      rw [if_pos hexact, hinexact]
      rfl
    · have hinexact : decide (realValue r ≠ dazSum ctl x y z) = true := decide_eq_true hexact
      rw [if_neg hexact, hinexact]
      exact precisionStep_of_inexact rfl
  · obtain ⟨r, hr, hres⟩ := fnmadd64_of_tinyReal pe hx hy hz hpass htiny
    refine ⟨decide (realValue r ≠ v) && pe, ?_, fun hp => ⟨r, hr.rounds, hr.finite, ?_⟩⟩
    · rw [hres, tinyResult, hum]
      rfl
    · exact of_decide_eq_true (Bool.and_eq_true_iff.mp hp).1
  · by_cases hv : dazSum ctl x y z = 0
    · rw [fnmadd64_of_zero_sum rm ctl pe hx hy hz hpass hv]
      rfl
    · exact (roundOutcome_fnmadd64 rm ctl pe hx hy hz hpass hv).flags_ue htiny

/-! ## Flush-to-zero (R146) -/

/-- FTZ is read for a tiny result with UM = 1 alone. -/
theorem roundStep_ftz {rm : RoundingMode} {ctl : FpControl} {neg : Bool} {mag : Nat}
    (h : minNormalMag ≤ roundUnbounded rm neg mag ∨ ctl.um = false) (pe de : Bool) :
    roundStep rm ctl pe de neg mag = roundStep rm { ctl with ftz := false } pe de neg mag := by
  simp only [roundStep]
  split
  · rfl
  · split
    · next ht =>
      have hum := h.resolve_left (not_le.mpr ht)
      simp only [tinyStep, hum]
      rfl
    · rfl

theorem fnmadd64_ftz {x y z : Word} {rm : RoundingMode} {ctl : FpControl} (hx : isFinite x = true)
    (hy : isFinite y = true) (hz : isFinite z = true) (hpass : denormalPasses ctl x y z)
    (h : ¬ TinyReal rm (dazSum ctl x y z) ∨ ctl.um = false) (pe : Bool) :
    fnmadd64 x y z rm ctl pe = fnmadd64 x y z rm { ctl with ftz := false } pe := by
  rw [fnmadd64_of_isFinite rm ctl pe hx hy hz hpass,
    fnmadd64_of_isFinite rm { ctl with ftz := false } pe hx hy hz hpass]
  show finiteStep rm ctl pe (denormalOperand ctl x y z) (applyDaz ctl x) (applyDaz ctl y) (applyDaz ctl z) =
    finiteStep rm { ctl with ftz := false } pe (denormalOperand ctl x y z) (applyDaz ctl x) (applyDaz ctl y)
      (applyDaz ctl z)
  simp only [finiteStep]
  split
  · rfl
  · next hsum =>
    refine roundStep_ftz (h.imp_left fun htiny => not_lt.mp ?_) pe _
    rwa [← tinyReal_iff rm _ (Int.natAbs_ne_zero.mpr hsum), signedInt_natAbs, ← exactReal_eq]

/-- Settles O56: the tiny step flushes, and FTZ is read nowhere else. -/
theorem flushToZero : Obligations.FlushToZero := by
  intro x y z rm ctl pe hx hy hz hpass v de
  refine ⟨fun htiny hum hftz => ?_, fun h => fnmadd64_ftz hx hy hz hpass h pe⟩
  obtain ⟨r, -, hres⟩ := fnmadd64_of_tinyReal pe hx hy hz hpass htiny
  have hzero : signedZero (decide (dazSum ctl x y z < 0)) = if v < 0 then 0x8000000000000000#64 else 0 := by
    rw [signedZero_eq]
    exact ite_congr decide_eq_true_eq (fun _ => rfl) (fun _ => rfl)
  rw [hres, tinyResult, hum, hftz, hzero]
  exact precisionStep_of_inexact rfl

end Sys2Proof.Machine

/-! The proofs of the family 42_vfnmadd_sd_evex: what stops a masked-off form, and when an EVEX form is its VEX form. -/

/-! ## Operand 3 of an EVEX form (R170 step 4) -/

namespace Sys2Proof.Machine

theorem readVexSrc3_of_mem {o : VexOperands} {a : MemAddr} (h : o.src3 = .mem a) (s : State) :
    readVexSrc3 o s = memRead (linearAddr o.pfx 1 o.length a s) (stackAccess o.pfx a) s := by
  simp only [readVexSrc3, h, memOperand]

theorem readEvexSrc3_of_mem {o : EvexOperands} {a : MemAddr} {b : Bool} (h : o.src3 = .mem a b) (s : State) :
    readEvexSrc3 o s = memRead (linearAddr o.pfx 8 o.length a s) (stackAccess o.pfx a) s := by
  simp only [readEvexSrc3, h, memOperand]

/-- Settles O23: the read comes before the mask bit is looked at, so its fault is the outcome whatever the bit. -/
theorem maskedOffStillFaults : Obligations.MaskedOffStillFaults := by
  intro ord o a b s hs h3 hmask hbit
  rw [exec_evex, ← readEvexSrc3_of_mem h3]
  have hm : maskBit o s = false := by rw [maskBit_of_mask hmask, hbit]
  exact ⟨fun f hf => execEvex_of_readError hs hf ord, fun w hw => execEvex_of_maskedOff hs hw hm⟩

/-! ## EVEX without mask and embedded rounding (R179) -/

theorem execVex_of_trap {ord : FmaOrder} {o : VexOperands} {s : State} {c : Word} {f : FpFlags}
    (hs : s.Ready .vex) (hc : readVexSrc3 o s = .ok c) (hr : vexResult ord o c s = .trap f) :
    execVex ord o s = raiseSimd f s := by
  simp only [execVex, hs.scope, hs.enableFault, hc, hr]

theorem execEvex_of_trap {ord : FmaOrder} {o : EvexOperands} {s : State} {c : Word} {f : FpFlags}
    (hs : s.Ready .evex) (hc : readEvexSrc3 o s = .ok c) (hm : maskBit o s = true)
    (hr : evexResult ord o c s = .trap f) : execEvex ord o s = raiseSimd f s := by
  simp only [execEvex, hs.scope, hs.enableFault, hc, hm, if_true, hr]

theorem evexFlags_of_no_rounding {o : EvexOperands} (he : embeddedRounding o = none) (f : FpFlags) :
    evexFlags o f = f := by
  simp only [evexFlags, he]

/-- R171: without embedded rounding both encodings compute one result from the same registers. -/
theorem evexResult_eq_vexResult {v : VexOperands} {e : EvexOperands} (hdst : e.dst = vexReg v.dst)
    (hsrc2 : e.src2 = vexReg v.src2) (he : embeddedRounding e = none) (ord : FmaOrder) (c : Word) (s : State) :
    evexResult ord e c s = vexResult ord v c s := by
  simp only [evexResult, vexResult, evexRounding, evexControl, he, hdst, hsrc2]

/-- R179: with one destination, one operand 2 and one reading of operand 3, only the length differs. -/
theorem execEvex_eq_execVex {v : VexOperands} {e : EvexOperands} {s : State} (hv : s.Ready .vex) (hs : s.Ready .evex)
    (hdst : e.dst = vexReg v.dst) (hsrc2 : e.src2 = vexReg v.src2) (hmask : e.mask = 0#3)
    (he : embeddedRounding e = none) (hread : readEvexSrc3 e s = readVexSrc3 v s) (ord : FmaOrder) :
    execEvex ord e s = onNext (fun t => { t with pc := s.pc + BitVec.ofNat 64 e.length }) (execVex ord v s) := by
  have hm : maskBit e s = true := maskBit_of_no_mask hmask s
  cases hc : readVexSrc3 v s with
  | error f =>
    rw [execVex_of_readError hv hc, execEvex_of_readError hs (hread.trans hc)]
    rfl
  | ok c =>
    have hsame := evexResult_eq_vexResult hdst hsrc2 he ord c s
    cases hr : vexResult ord v c s with
    | trap f =>
      rw [execVex_of_trap hv hc hr, execEvex_of_trap hs (hread.trans hc) hm (hsame.trans hr)]
      rfl
    | value r f =>
      rw [execVex_of_value hv hc hr, execEvex_of_value hs (hread.trans hc) hm (hsame.trans hr),
        evexFlags_of_no_rounding he, hdst]
      rfl

/-- Settles O32: a register or the same 8 bytes are read alike by both encodings, and neither operand carries embedded
rounding. -/
theorem evexEqualsVex : Obligations.EvexEqualsVex := by
  intro ord v e s hv hs hdst hsrc2 hmask h3
  rw [exec_evex, exec_vex]
  obtain ⟨n, hv3, he3⟩ | ⟨a, a', hv3, he3, hla, hstack⟩ := h3
  · have he : embeddedRounding e = none := by simp only [embeddedRounding, he3]
    have hread : readEvexSrc3 e s = readVexSrc3 v s := by simp only [readEvexSrc3, readVexSrc3, he3, hv3]
    exact execEvex_eq_execVex hv hs hdst hsrc2 hmask he hread ord
  · have he : embeddedRounding e = none := by simp only [embeddedRounding, he3]
    have hread : readEvexSrc3 e s = readVexSrc3 v s := by
      rw [readEvexSrc3_of_mem he3, readVexSrc3_of_mem hv3, hla, hstack]
    exact execEvex_eq_execVex hv hs hdst hsrc2 hmask he hread ord

end Sys2Proof.Machine

/-! The proofs of the family 60_exceptions: the enable conditions, the state an exception carries, SIMD traps, the
faults of a misaligned operand, and what of the control registers and the privilege level an instruction reads. -/

/-! ## The enable conditions (R205, R206) -/

namespace Sys2Proof.Machine

@[simp] theorem kindOf_vex (ord : FmaOrder) (o : VexOperands) : kindOf (ord.vex o) = .vex := by cases ord <;> rfl
@[simp] theorem kindOf_evex (ord : FmaOrder) (o : EvexOperands) : kindOf (ord.evex o) = .evex := by cases ord <;> rfl

theorem State.enabled_vex_eq_false_iff (s : State) :
    s.enabled .vex = false ↔
      s.params.hasFMA = false ∨ s.cr4.getLsbD 18 = false ∨ s.xcr0.extractLsb' 1 2 ≠ 3#2 := by
  simp only [State.enabled, State.hasFeature, State.xcr0Enables, Bool.and_eq_false_iff, beq_eq_false_iff_ne, or_assoc]

theorem State.enabled_evex_eq_false_iff (s : State) :
    s.enabled .evex = false ↔
      s.params.hasAVX512F = false ∨ s.cr4.getLsbD 18 = false ∨ s.xcr0.extractLsb' 1 2 ≠ 3#2 ∨
        s.xcr0.extractLsb' 5 3 ≠ 7#3 := by
  simp only [State.enabled, State.hasFeature, State.xcr0Enables, Bool.and_eq_false_iff, beq_eq_false_iff_ne, or_assoc]

theorem State.enableFault_of_not_enabled {s : State} {k : EncKind} (h : s.enabled k = false) :
    s.enableFault k = some .ud := by
  simp only [State.enableFault, h, Bool.not_false, if_true]

theorem State.enableFault_of_ts {s : State} {k : EncKind} (h : s.enabled k = true) (hts : s.cr0.getLsbD 3 = true) :
    s.enableFault k = some .nm := by
  simp only [State.enableFault, h, hts, Bool.not_true, Bool.false_eq_true, if_false, if_true]

theorem State.enableFault_some {s : State} {k : EncKind} {x : Exception} (h : s.enableFault k = some x) :
    x = .ud ∨ x = .nm := by
  unfold State.enableFault at h
  split at h
  · cases h
    exact .inl rfl
  · split at h
    · cases h
      exact .inr rfl
    · cases h

/-- R210: in scope a failed enable condition is the outcome, whatever the operands are. -/
theorem exec_of_enableFault {i : Instr} {s : State} {x : Exception} (hs : s.scopeRefusal = none)
    (h : s.enableFault (kindOf i) = some x) : exec i s = raise x s := by
  have vex (ord : FmaOrder) (o : VexOperands) (h : s.enableFault .vex = some x) : execVex ord o s = raise x s := by
    simp only [execVex, hs, h]
  have evex (ord : FmaOrder) (o : EvexOperands) (h : s.enableFault .evex = some x) :
      execEvex ord o s = raise x s := by
    simp only [execEvex, hs, h]
  cases i with
  | vfnmadd132sdVex o => exact vex .o132 o h
  | vfnmadd213sdVex o => exact vex .o213 o h
  | vfnmadd231sdVex o => exact vex .o231 o h
  | vfnmadd132sdEvex o => exact evex .o132 o h
  | vfnmadd213sdEvex o => exact evex .o213 o h
  | vfnmadd231sdEvex o => exact evex .o231 o h

theorem exec_of_not_enabled {i : Instr} {s : State} (hs : s.scopeRefusal = none)
    (h : s.enabled (kindOf i) = false) : exec i s = .fault (.exception .ud s) :=
  exec_of_enableFault hs (State.enableFault_of_not_enabled h)

/-- Settles O34: CR0.TS is the last enable condition, and all of them come before the operands. -/
theorem deviceNotAvailable : Obligations.DeviceNotAvailable := by
  refine ⟨rfl, rfl, fun s hts => ⟨fun i hs he => ?_, fun i => exec_of_not_enabled, fun t h => ?_⟩⟩
  · exact exec_of_enableFault hs (State.enableFault_of_ts he hts)
  · obtain ⟨i, hs, -, hi⟩ := step_next h
    obtain ⟨-, he, -⟩ := exec_next hi
    exact Bool.false_ne_true ((State.ready_of_enableFault hs he).available.symm.trans hts)

/-! ## What raises an exception, and the state it carries (R202, R208, R214) -/

/-- `x`, not #XM, raised with state `t` by a check: the old state, one free value having been consumed or not, with
what `x` records. -/
def RaisedByCheck (s : State) (x : Exception) (t : State) : Prop :=
  x ≠ .xm ∧ ∃ u, (u = s ∨ u = s.consumeDraw) ∧ t = x.record u

/-- `x` raised with state `t` by a SIMD trap: the flags of the trap, one of them unmasked, are OR-ed into MXCSR. -/
def RaisedByTrap (s : State) (x : Exception) (t : State) : Prop :=
  (x = .xm ∨ x = .ud) ∧ ∃ f : FpFlags, f.HasUnmasked (mxcsrControl s.mxcsr) ∧ t = s.trapped f

theorem RaisedByCheck.of_faultOf {s t : State} {x y : Exception} (hy : y ≠ .xm)
    (h : faultOf y s = .exception x t) : RaisedByCheck s x t := by
  obtain ⟨rfl, rfl⟩ := faultOf_eq_exception.mp h
  exact ⟨hy, s, .inl rfl, rfl⟩

theorem RaisedByCheck.mxcsr {s t : State} {x : Exception} (h : RaisedByCheck s x t) : t.mxcsr = s.mxcsr := by
  obtain ⟨-, u, hu, rfl⟩ := h
  rw [Exception.record_mxcsr]
  obtain rfl | rfl := hu <;> rfl

theorem RaisedByCheck.of_enableFault {s t : State} {k : EncKind} {x y : Exception} (hy : s.enableFault k = some y)
    (h : Fault.exception x t = faultOf y s) : RaisedByCheck s x t := by
  refine .of_faultOf ?_ h.symm
  obtain rfl | rfl := State.enableFault_some hy <;> exact nofun

theorem RaisedByCheck.of_memRead {s t : State} {x : Exception} {la : Word} {stack : Bool}
    (h : memRead la stack s = .error (.exception x t)) : RaisedByCheck s x t := by
  obtain ⟨y, u, hg, hu, hy⟩ | ⟨a, hg⟩ := memRead_error h
  · obtain ⟨rfl, rfl⟩ := faultOf_eq_exception.mp hg.symm
    refine ⟨?_, u, hu, rfl⟩
    obtain rfl | rfl | ⟨rfl, -⟩ | ⟨code, a, rfl⟩ := hy <;> exact nofun
  · cases hg

theorem RaisedByCheck.of_src3Of {s t : State} {x : Exception} {i : Instr}
    (h : src3Of s i = .error (.exception x t)) : RaisedByCheck s x t := by
  obtain ⟨la, stack, hm⟩ := src3Of_error h
  exact .of_memRead hm

theorem simdException_cases (s : State) :
    (if s.cr4.getLsbD 10 then .xm else .ud : Exception) = .xm ∨
      (if s.cr4.getLsbD 10 then .xm else .ud : Exception) = .ud :=
  ite_eq_or_eq _ _ _

theorem faultOf_simd (s : State) (f : FpFlags) :
    faultOf (if s.cr4.getLsbD 10 then .xm else .ud) (s.trapped f) =
      .exception (if s.cr4.getLsbD 10 then .xm else .ud) (s.trapped f) := by
  cases s.cr4.getLsbD 10 <;> rfl

theorem raiseSimd_eq (s : State) (f : FpFlags) :
    raiseSimd f s = .fault (.exception (if s.cr4.getLsbD 10 then .xm else .ud) (s.trapped f)) :=
  congrArg Host.Outcome.fault (faultOf_simd s f)

theorem RaisedByTrap.of_faultOf {s t : State} {x : Exception} {f : FpFlags}
    (hf : f.HasUnmasked (mxcsrControl s.mxcsr))
    (h : Fault.exception x t = faultOf (if s.cr4.getLsbD 10 then .xm else .ud) (s.trapped f)) :
    RaisedByTrap s x t := by
  rw [faultOf_simd] at h
  cases h
  exact ⟨simdException_cases s, f, hf, rfl⟩

/-- R201: an evaluation that traps has an unmasked flag. -/
theorem fnmadd64_trap_hasUnmasked {x y z : Word} {rm : RoundingMode} {ctl : FpControl} {pe : Bool} {f : FpFlags}
    (h : fnmadd64 x y z rm ctl pe = .trap f) : f.HasUnmasked ctl := by
  have hr := fnmadd64_respects x y z rm ctl pe
  rw [h] at hr
  cases hr with
  | trap _ hf _ _ => exact hf

/-- R149: with every exception masked no evaluation traps. -/
theorem not_allMasked_of_trap {x y z : Word} {rm : RoundingMode} {ctl : FpControl} {pe : Bool} {f : FpFlags}
    (h : fnmadd64 x y z rm ctl pe = .trap f) : ¬ ctl.AllMasked := by
  intro hm
  obtain ⟨r, g, hv⟩ := fnmadd64_of_allMasked hm x y z rm
  cases (hv pe).symm.trans h

/-- R172: an EVEX form that traps has no embedded rounding. -/
theorem embeddedRounding_of_trap {ord : FmaOrder} {o : EvexOperands} {c : Word} {s : State} {f : FpFlags}
    (h : evexResult ord o c s = .trap f) : embeddedRounding o = none := by
  cases he : embeddedRounding o with
  | none => rfl
  | some rm =>
    have hctl : evexControl o s = saeControl s.mxcsr := by simp only [evexControl, he]
    refine absurd ?_ (not_allMasked_of_trap h)
    rw [hctl]
    exact saeControl_allMasked s.mxcsr

theorem evexControl_of_no_rounding {o : EvexOperands} (he : embeddedRounding o = none) (s : State) :
    evexControl o s = mxcsrControl s.mxcsr := by
  simp only [evexControl, he]

theorem execVex_raised {ord : FmaOrder} {o : VexOperands} {s t : State} {x : Exception}
    (h : execVex ord o s = .fault (.exception x t)) : RaisedByCheck s x t ∨ RaisedByTrap s x t := by
  obtain ⟨-, ⟨y, hy, hg⟩ | ⟨-, hread | ⟨c, f, -, hr, hg⟩⟩⟩ := execVex_fault h
  · exact .inl (.of_enableFault hy hg)
  · exact .inl (.of_src3Of (i := .vfnmadd132sdVex o) hread)
  · exact .inr (.of_faultOf (fnmadd64_trap_hasUnmasked hr) hg)

/-- R170: an EVEX form traps with its mask bit 1 and without embedded rounding alone. -/
theorem execEvex_raised {ord : FmaOrder} {o : EvexOperands} {s t : State} {x : Exception}
    (h : execEvex ord o s = .fault (.exception x t)) :
    RaisedByCheck s x t ∨ (maskBit o s = true ∧ embeddedRounding o = none ∧ RaisedByTrap s x t) := by
  obtain ⟨-, ⟨y, hy, hg⟩ | ⟨-, hread | ⟨c, f, -, hm, hr, hg⟩⟩⟩ := execEvex_fault h
  · exact .inl (.of_enableFault hy hg)
  · exact .inl (.of_src3Of (i := .vfnmadd132sdEvex o) hread)
  · have he := embeddedRounding_of_trap hr
    have hf := fnmadd64_trap_hasUnmasked hr
    rw [evexControl_of_no_rounding he] at hf
    exact .inr ⟨hm, he, .of_faultOf hf hg⟩

theorem exec_raised {i : Instr} {s t : State} {x : Exception} (h : exec i s = .fault (.exception x t)) :
    RaisedByCheck s x t ∨ RaisedByTrap s x t := by
  have evex {ord o} (h : execEvex ord o s = .fault (.exception x t)) : RaisedByCheck s x t ∨ RaisedByTrap s x t :=
    (execEvex_raised h).imp_right fun ⟨_, _, ht⟩ => ht
  cases i with
  | vfnmadd132sdVex o => exact execVex_raised h
  | vfnmadd213sdVex o => exact execVex_raised h
  | vfnmadd231sdVex o => exact execVex_raised h
  | vfnmadd132sdEvex o => exact evex h
  | vfnmadd213sdEvex o => exact evex h
  | vfnmadd231sdEvex o => exact evex h

theorem RaisedByCheck.of_tooLong {s t : State} {k : EncKind} {illegal : Bool} {x : Exception}
    (h : raiseTooLong k illegal s = .fault (.exception x t)) : RaisedByCheck s x t := by
  unfold raiseTooLong at h
  split at h
  · split at h
    · cases h
      exact ⟨nofun, _, .inr rfl, rfl⟩
    · cases h
      exact ⟨nofun, _, .inr rfl, rfl⟩
  · cases h
    exact ⟨nofun, s, .inl rfl, rfl⟩

theorem RaisedByCheck.of_fetchByte {s t : State} {k : Nat} {x : Exception}
    (h : fetchByte k s = .error (.exception x t)) : RaisedByCheck s x t := by
  obtain hg | ⟨code, la, hg⟩ | ⟨la, hg⟩ := fetchByte_error h
  · exact .of_faultOf (y := .gp) nofun hg.symm
  · exact .of_faultOf (y := .pf code la) nofun hg.symm
  · cases hg

/-- Every exception of a step: a check of the fetch, the decoder or the instruction, or a SIMD trap. -/
theorem step_raised {s t : State} {x : Exception} (h : step s = .fault (.exception x t)) :
    RaisedByCheck s x t ∨ RaisedByTrap s x t := by
  have hs : s.scopeRefusal = none := by
    cases hr : s.scopeRefusal with
    | none => rfl
    | some r => cases (step_of_scopeRefusal hr).symm.trans h
  cases hd : decode (fetchWindow s).1 with
  | form i =>
    rw [stepRunsDecoded s i hs hd] at h
    exact exec_raised h
  | ud =>
    rw [step_of_ud hs hd] at h
    cases h
    exact .inl ⟨nofun, s, .inl rfl, rfl⟩
  | tooLong k illegal =>
    rw [step_of_tooLong hs hd] at h
    exact .inl (.of_tooLong h)
  | refused why =>
    rw [step_of_refused hs hd] at h
    cases h
  | truncated =>
    obtain ⟨f, hf⟩ := fetchWindow_stop hd
    obtain ⟨k, hk⟩ := fetchFrom_stop hf
    simp only [step, hs, hd, hf, fetchStop] at h
    cases h
    exact .inl (.of_fetchByte hk)

/-- R202, bit by bit: a flag that was set or is now, and is not masked. -/
theorem simdCauses_orFlags_getLsbD (m : BitVec 32) (f : FpFlags) {j : Nat} (hj : j < 6) :
    (simdCauses (orFlags m f)).getLsbD j = ((m.getLsbD j || f.bits.getLsbD j) && !m.getLsbD (7 + j)) := by
  simp only [simdCauses, BitVec.getLsbD_and, BitVec.getLsbD_not, BitVec.getLsbD_extractLsb', hj, decide_true,
    Bool.true_and, Nat.zero_add, orFlags_getLsbD_of_ge m f (show 6 ≤ 7 + j by omega), orFlags_getLsbD m f j]

/-- R202: an unmasked flag is found as a cause. -/
theorem simdCauses_orFlags_ne_zero {m : BitVec 32} {f : FpFlags} (h : f.HasUnmasked (mxcsrControl m)) :
    simdCauses (orFlags m f) ≠ 0 := by
  have cause (j : Nat) (hj : j < 6) (hf : f.bits.getLsbD j = true) (hm : m.getLsbD (7 + j) = false) :
      simdCauses (orFlags m f) ≠ 0 := by
    intro h0
    have hbit := simdCauses_orFlags_getLsbD m f hj
    simp [h0, hf, hm] at hbit
  obtain ⟨hie, hde, -, hoe, hue, hpe⟩ := f.bits_get
  obtain ⟨hf, hm⟩ | ⟨hf, hm⟩ | ⟨hf, hm⟩ | ⟨hf, hm⟩ | ⟨hf, hm⟩ := h
  · exact cause 0 (by decide) (hie.trans hf) hm
  · exact cause 1 (by decide) (hde.trans hf) hm
  · exact cause 3 (by decide) (hoe.trans hf) hm
  · exact cause 4 (by decide) (hue.trans hf) hm
  · exact cause 5 (by decide) (hpe.trans hf) hm

/-- Settles O28: a check leaves MXCSR and records CR2 alone; a SIMD trap leaves CR2 and sets an unmasked flag. -/
theorem faultsArePrecise : Obligations.FaultsArePrecise := by
  intro s x t h
  obtain hcheck | ⟨hx, f, hf, rfl⟩ := step_raised h
  · have hm := hcheck.mxcsr
    obtain ⟨hx, u, hu, rfl⟩ := hcheck
    have hrest : x.record u = { s with cr2 := (x.record u).cr2, draws := u.draws } := by
      rw [x.record_eq u]
      obtain rfl | rfl := hu <;> rfl
    have hcr2 : u.cr2 = s.cr2 := by obtain rfl | rfl := hu <;> rfl
    refine ⟨?_, by rw [hm], by rw [hm, BitVec.and_self], fun hne => absurd hm hne, ?_, fun hpf => ?_,
      fun hxm => absurd hxm hx⟩
    · rw [hm, Exception.record_draws]
      exact hrest
    · rintro code la rfl
      rfl
    · rw [Exception.record_of_not_pf u hpf, hcr2]
  · refine ⟨rfl, orFlags_keeps s.mxcsr f, orFlags_sticky s.mxcsr f, fun _ => hx, ?_, fun _ => rfl,
      fun _ => simdCauses_orFlags_ne_zero hf⟩
    rintro code la rfl
    obtain hx | hx := hx <;> cases hx

/-! ## SIMD traps of the instructions (R208) -/

theorem TrapsAs.of_raiseSimd {i : Instr} {x y z : Word} {rm : RoundingMode} {ctl : FpControl} {s : State}
    (h : ∀ f, fnmadd64 x y z rm ctl (Config.drawTrapPE s.draws) = .trap f → exec i s = raiseSimd f s) :
    TrapsAs i x y z rm ctl s :=
  fun f hf => ⟨s.trapped f, (h f hf).trans (raiseSimd_eq s f), rfl, rfl⟩

theorem trapsAs_vex {o : VexOperands} {s : State} {c : Word} (hs : s.Ready .vex) (hc : VexOperand3 o c s)
    (ord : FmaOrder) :
    let p := roles ord (s.low (vexReg o.dst)) (s.low (vexReg o.src2)) c
    TrapsAs (ord.vex o) p.x p.y p.z (mxcsrRounding s.mxcsr) (mxcsrControl s.mxcsr) s :=
  .of_raiseSimd fun f hf => by
    rw [exec_vex]
    exact execVex_of_trap hs hc.read hf

theorem trapsAs_evex {o : EvexOperands} {s : State} {c : Word} (hs : s.Ready .evex) (hc : EvexOperand3 o c s)
    (hm : maskBit o s = true) (he : embeddedRounding o = none) (ord : FmaOrder) :
    let p := roles ord (s.low o.dst) (s.low o.src2) c
    TrapsAs (ord.evex o) p.x p.y p.z (mxcsrRounding s.mxcsr) (mxcsrControl s.mxcsr) s :=
  .of_raiseSimd fun f hf => by
    have hr : evexResult ord o c s = .trap f := by
      simp only [evexResult, evexRounding, evexControl, he]
      exact hf
    rw [exec_evex]
    exact execEvex_of_trap hs hc.read hm hr

/-- Settles O35: the trap of FNMAdd64 is the form's, and an EVEX form traps with its mask bit 1 and without embedded
rounding alone. -/
theorem unmaskedSimdException : Obligations.UnmaskedSimdException := by
  refine ⟨rfl, rfl, rfl, rfl, fun o s c hs hc => ?_, fun o s c hs hc hm he => ?_, fun ord o s t x hoff h => ?_⟩
  · have h := trapsAs_vex hs hc
    exact ⟨h .o132, h .o213, h .o231⟩
  · have h := trapsAs_evex hs hc ((maskBit_eq_true_iff o s).mpr hm) he
    exact ⟨h .o132, h .o213, h .o231⟩
  · rw [exec_evex] at h
    obtain hcheck | ⟨hm, he, -⟩ := execEvex_raised h
    · exact ⟨hcheck.1, hcheck.mxcsr⟩
    · simp [hm, he] at hoff

/-! ## Misaligned operands (R55, R59, R209, R211) -/

theorem State.misaligned_iff (s : State) (la : Word) :
    s.misaligned la = true ↔
      s.cr0.getLsbD 18 = true ∧ s.rflags.getLsbD 18 = true ∧ s.cpl = 3#2 ∧ la.toNat % 8 ≠ 0 := by
  simp only [State.misaligned, State.alignmentChecked, Bool.and_eq_true, beq_iff_eq, bne_iff_ne, and_assoc]

theorem State.alignmentChecked_eq_false_iff (s : State) :
    s.alignmentChecked = false ↔ s.cr0.getLsbD 18 = false ∨ s.rflags.getLsbD 18 = false ∨ s.cpl ≠ 3#2 := by
  simp only [State.alignmentChecked, Bool.and_eq_false_iff, beq_eq_false_iff_ne, or_assoc]

theorem State.misaligned_of_not_alignmentChecked {s : State} (h : s.alignmentChecked = false) (la : Word) :
    s.misaligned la = false := by
  rw [State.misaligned, h, Bool.false_and]

theorem accessFault_of_misaligned {s : State} {la : Word} (hm : s.misaligned la = true)
    (h : ∀ k : Fin 8, ∃ loc, s.translate (la + BitVec.ofNat 64 k) .dataRead = .ok loc) :
    accessFault la s = some (faultOf .ac s) := by
  have hpages : s.pageFault la = none := by
    apply State.pageFault_eq_none
    rwa [operandAddrs_eq_ofFn, List.forall_mem_ofFn_iff]
  simp only [accessFault, hpages, hm]

/-- R211: when both faults apply, one of them is raised and a free value consumed. -/
theorem accessFault_of_misaligned_of_pageFault {s : State} {la : Word} {code : BitVec 32} {a : Word} {drawn : Bool}
    (hm : s.misaligned la = true) (h : s.pageFault la = some (code, a, drawn)) :
    accessFault la s = some (faultOf .ac s.consumeDraw) ∨
      accessFault la s = some (faultOf (.pf code a) s.consumeDraw) := by
  simp only [accessFault, h, hm]
  split
  · exact .inl rfl
  · exact .inr rfl

/-- Of all checks only that of alignment raises #AC. -/
theorem memRead_ac {s t : State} {la : Word} {stack : Bool} (h : memRead la stack s = .error (.exception .ac t)) :
    s.misaligned la = true := by
  obtain ⟨x, u, hg, -, hx⟩ | ⟨a, hg⟩ := memRead_error h
  · obtain ⟨rfl, -⟩ := faultOf_eq_exception.mp hg.symm
    obtain hx | hx | ⟨-, hm⟩ | ⟨code, a, hx⟩ := hx
    · cases hx
    · cases hx
    · exact hm
    · cases hx
  · cases hg

theorem src3Of_ac {i : Instr} {s t : State} (h : src3Of s i = .error (.exception .ac t)) :
    ∃ a, memOf i = some a ∧ s.misaligned (linearAddrOf i a s) = true := by
  cases ha : memOf i with
  | none =>
    obtain ⟨n, hn⟩ := src3Of_of_register ha
    cases (hn s).symm.trans h
  | some a =>
    rw [src3Of_of_memOf ha] at h
    exact ⟨a, rfl, memRead_ac h⟩

theorem exec_ac {i : Instr} {s t : State} (h : exec i s = .fault (.exception .ac t)) :
    ∃ a, memOf i = some a ∧ s.misaligned (linearAddrOf i a s) = true := by
  obtain ⟨-, ⟨x, hx, hg⟩ | ⟨-, hsrc | ⟨f, hg⟩⟩⟩ := exec_fault h
  · obtain ⟨rfl, -⟩ := faultOf_eq_exception.mp hg.symm
    obtain hx | hx := State.enableFault_some hx <;> cases hx
  · exact src3Of_ac hsrc
  · rw [faultOf_simd] at hg
    obtain hx | hx := simdException_cases s <;> (rw [hx] at hg; cases hg)

/-- Settles O39: of the checks only R55 step 2 raises #AC, and with one of its enables clear it passes. -/
theorem alignmentCheck : Obligations.AlignmentCheck := by
  refine ⟨rfl, rfl, fun i a s hs hm => ?_, fun i s t h => ?_,
    fun la stack s hoff hc hbytes => ?_⟩
  · intro la hc hmap ham hac hcpl hla
    have hmis : s.misaligned la = true := (s.misaligned_iff la).mpr ⟨ham, hac, hcpl, hla⟩
    exact exec_of_memReadError hs hm (memRead_of_accessFault hc (accessFault_of_misaligned hmis hmap) _)
  · obtain ⟨a, ha, hmis⟩ := exec_ac h
    obtain ⟨ham, hac, hcpl, hla⟩ := (s.misaligned_iff _).mp hmis
    exact ⟨ham, hac, hcpl, a, ha, hla⟩
  · have hmis := State.misaligned_of_not_alignmentChecked (s.alignmentChecked_eq_false_iff.mpr hoff) la
    choose loc b hb using hbytes
    exact ⟨_, (OperandReadable.mk hc hmis fun k => ⟨loc k, hb k⟩).memRead stack⟩

/-- Settles O40: a byte that does not translate gives a page fault, and a free value chooses it or #AC. -/
theorem pageFaultOrAlignment : Obligations.PageFaultOrAlignment := by
  intro i a s hs hm la hc hmis ⟨k, code, hk⟩
  cases hpf : s.pageFault la with
  | none =>
    obtain ⟨loc, hloc⟩ := State.translate_of_pageFault_none hpf k
    cases hk.symm.trans hloc
  | some q =>
    obtain ⟨code, x, drawn⟩ := q
    obtain ⟨k, rfl, hcode, -⟩ := State.pageFault_some hpf
    have raised {f : Fault} (h : accessFault la s = some f) : exec i s = .fault f :=
      exec_of_memReadError hs hm (memRead_of_accessFault hc h _)
    obtain hf | hf := accessFault_of_misaligned_of_pageFault hmis hpf
    · exact ⟨.ac, s.consumeDraw, raised hf, .inl ⟨rfl, rfl⟩⟩
    · exact ⟨_, _, raised hf, .inr ⟨k, code, rfl, hcode, rfl⟩⟩

/-! ## Another privilege level (R218) -/

/-- The state at another privilege level. -/
def State.withCpl (c : BitVec 2) (s : State) : State := { s with cpl := c }

theorem ExecBlind.withCpl (c : BitVec 2) : ExecBlind (State.withCpl c) where
  scopeRefusal _ := rfl
  vreg _ := rfl
  mxcsr _ := rfl
  draws _ := rfl
  trapsAsXm _ := rfl
  record x _ := by cases x <;> rfl
  completed _ _ _ _ _ := rfl
  trapped _ _ := rfl

theorem ReadsAlike.withCpl {c : BitVec 2} {s : State}
    (halign : (s.withCpl c).alignmentChecked = s.alignmentChecked)
    (htranslate : ∀ a, (s.withCpl c).translate a .dataRead = s.translate a .dataRead) (la : Word) :
    ReadsAlike (State.withCpl c) s la where
  translate a _ := htranslate a
  held _ _ _ _ := rfl
  canonicalOperand := rfl
  misaligned := by rw [State.misaligned, State.misaligned, halign]
  draws := rfl
  consumeDraw := rfl
  record x _ := by cases x <;> rfl

/-- R54: the linear address is computed from the general registers, `pc` and the segment bases alone. -/
theorem linearAddrOf_congr {s u : State} (hgpr : u.gpr = s.gpr) (hpc : u.pc = s.pc) (hfs : u.fsBase = s.fsBase)
    (hgs : u.gsBase = s.gsBase) (i : Instr) (a : MemAddr) : linearAddrOf i a u = linearAddrOf i a s :=
  linearAddr_congr hgpr hpc hfs hgs i.pfx (dispScale (kindOf i)) i.length a

/-- Settles O31: CPL is read by the checks of the operand read alone. -/
theorem privilegeIndependent : Obligations.PrivilegeIndependent := by
  intro i s c u h
  have hblind := ExecBlind.withCpl c
  refine hblind.exec (fun _ => rfl) rfl (hblind.src3Of fun a ha => ?_)
  obtain ⟨halign, htranslate⟩ := h a ha
  exact ⟨linearAddrOf_congr rfl rfl rfl rfl i a, .withCpl halign htranslate _⟩

/-! ## Bits of the control registers that are not read (R205) -/

/-- Bits inverted from place `k` up leave the others as they are. -/
theorem getLsbD_xor_field {w k j : Nat} (x : Word) (b : BitVec w) (h : j < k ∨ k + w ≤ j) :
    (x ^^^ (b.setWidth 64 <<< k)).getLsbD j = x.getLsbD j := by
  have hfield : (b.setWidth 64 <<< k).getLsbD j = false := by
    rw [BitVec.getLsbD_shiftLeft, BitVec.getLsbD_setWidth]
    obtain h | h := h
    · simp [h]
    · simp [BitVec.getLsbD_of_ge b (j - k) (by omega)]
  rw [BitVec.getLsbD_xor, hfield, Bool.xor_false]

theorem extractLsb'_xor_field {w k start len : Nat} (x : Word) (b : BitVec w)
    (h : start + len ≤ k ∨ k + w ≤ start) :
    (x ^^^ (b.setWidth 64 <<< k)).extractLsb' start len = x.extractLsb' start len := by
  apply BitVec.eq_of_getLsbD_eq
  intro i hi
  rw [BitVec.getLsbD_extractLsb', BitVec.getLsbD_extractLsb', getLsbD_xor_field x b (by omega)]

/-- The state with another XCR0. -/
def State.withXcr0 (x : Word) (s : State) : State := { s with xcr0 := x }

theorem ExecBlind.withXcr0 (x : Word) : ExecBlind (State.withXcr0 x) where
  scopeRefusal _ := rfl
  vreg _ := rfl
  mxcsr _ := rfl
  draws _ := rfl
  trapsAsXm _ := rfl
  record x _ := by cases x <;> rfl
  completed _ _ _ _ _ := rfl
  trapped _ _ := rfl

theorem ReadsAlike.withXcr0 (x : Word) (s : State) (la : Word) : ReadsAlike (State.withXcr0 x) s la where
  translate _ _ := rfl
  held _ _ _ _ := rfl
  canonicalOperand := rfl
  misaligned := rfl
  draws := rfl
  consumeDraw := rfl
  record x _ := by cases x <;> rfl

/-- R205: of XCR0 a VEX form reads bits 2:1. -/
theorem enableFault_vex_withXcr0 {x : Word} {s : State} (h : x.extractLsb' 1 2 = s.xcr0.extractLsb' 1 2) :
    (s.withXcr0 x).enableFault .vex = s.enableFault .vex := by
  have henabled : (s.withXcr0 x).enabled .vex = s.enabled .vex := by
    simp only [State.enabled, State.hasFeature, State.xcr0Enables, State.withXcr0, h]
  rw [State.enableFault, State.enableFault, henabled]
  rfl

theorem execVex_withXcr0 {x : Word} {s : State} (h : x.extractLsb' 1 2 = s.xcr0.extractLsb' 1 2) (ord : FmaOrder)
    (o : VexOperands) : execVex ord o (s.withXcr0 x) = onStates (State.withXcr0 x) (execVex ord o s) := by
  have hblind := ExecBlind.withXcr0 x
  refine hblind.execVex (enableFault_vex_withXcr0 h) (hblind.src3Of (i := .vfnmadd132sdVex o) fun a _ => ?_) ord
  exact ⟨linearAddrOf_congr rfl rfl rfl rfl _ a, .withXcr0 x s _⟩

/-- The state with CR0.EM and CR4.OSFXSR inverted where `em` and `fxsr` are set. -/
def State.invertEmFxsr (em fxsr : BitVec 1) (s : State) : State :=
  { s with cr0 := s.cr0 ^^^ (em.setWidth 64 <<< 2), cr4 := s.cr4 ^^^ (fxsr.setWidth 64 <<< 9) }

section
variable (em fxsr : BitVec 1) (s : State)

theorem State.invertEmFxsr_cr0_getLsbD {j : Nat} (h : j ≠ 2) :
    (s.invertEmFxsr em fxsr).cr0.getLsbD j = s.cr0.getLsbD j :=
  getLsbD_xor_field s.cr0 em (by omega)

theorem State.invertEmFxsr_cr4_getLsbD {j : Nat} (h : j ≠ 9) :
    (s.invertEmFxsr em fxsr).cr4.getLsbD j = s.cr4.getLsbD j :=
  getLsbD_xor_field s.cr4 fxsr (by omega)

theorem State.invertEmFxsr_scopeRefusal : (s.invertEmFxsr em fxsr).scopeRefusal = s.scopeRefusal := by
  have hlong : (s.invertEmFxsr em fxsr).longMode = s.longMode := by
    rw [State.longMode, State.invertEmFxsr_cr0_getLsbD em fxsr s (by decide),
      State.invertEmFxsr_cr0_getLsbD em fxsr s (by decide)]
    rfl
  rw [State.scopeRefusal, State.scopeRefusal, hlong]
  rfl

theorem State.invertEmFxsr_enableFault (k : EncKind) :
    (s.invertEmFxsr em fxsr).enableFault k = s.enableFault k := by
  have henabled : (s.invertEmFxsr em fxsr).enabled k = s.enabled k := by
    rw [State.enabled, State.invertEmFxsr_cr4_getLsbD em fxsr s (by decide)]
    cases k <;> rfl
  rw [State.enableFault, State.enableFault, henabled, State.invertEmFxsr_cr0_getLsbD em fxsr s (by decide)]

theorem ExecBlind.invertEmFxsr : ExecBlind (State.invertEmFxsr em fxsr) where
  scopeRefusal := State.invertEmFxsr_scopeRefusal em fxsr
  vreg _ := rfl
  mxcsr _ := rfl
  draws _ := rfl
  trapsAsXm s := State.invertEmFxsr_cr4_getLsbD em fxsr s (by decide)
  record x _ := by cases x <;> rfl
  completed _ _ _ _ _ := rfl
  trapped _ _ := rfl

theorem ReadsAlike.invertEmFxsr (la : Word) : ReadsAlike (State.invertEmFxsr em fxsr) s la where
  translate _ _ := rfl
  held _ _ _ _ := rfl
  canonicalOperand := rfl
  misaligned := by
    rw [State.misaligned, State.alignmentChecked, State.invertEmFxsr_cr0_getLsbD em fxsr s (by decide)]
    rfl
  draws := rfl
  consumeDraw := rfl
  record x _ := by cases x <;> rfl

theorem exec_invertEmFxsr (i : Instr) :
    exec i (s.invertEmFxsr em fxsr) = onStates (State.invertEmFxsr em fxsr) (exec i s) := by
  have hblind := ExecBlind.invertEmFxsr em fxsr
  refine hblind.exec (State.invertEmFxsr_enableFault em fxsr s) rfl (hblind.src3Of fun a _ => ?_)
  exact ⟨linearAddrOf_congr rfl rfl rfl rfl i a, .invertEmFxsr em fxsr s _⟩

end

/-- Two views that agree on the states an outcome carries give one outcome. -/
theorem onStates_congr {g g' : State → State} {out : Host.Outcome State Fault Refusal}
    (hnext : ∀ t, out = .next t → g t = g' t) (hfault : ∀ x t, out = .fault (.exception x t) → g t = g' t) :
    onStates g out = onStates g' out := by
  cases out with
  | next t => exact congrArg Host.Outcome.next (hnext t rfl)
  | fault f =>
    cases f with
    | exception x t => exact congrArg (fun t => Host.Outcome.fault (Fault.exception x t)) (hfault x t rfl)
    | outsideLaunchMemory la => rfl
  | refused r => rfl

theorem RaisedIn.controlRegs {s u : State} (h : RaisedIn s u) : u.cr0 = s.cr0 ∧ u.cr4 = s.cr4 := by
  obtain rfl | rfl | ⟨f, rfl⟩ := h <;> exact ⟨rfl, rfl⟩

/-- R36: every state an outcome carries has the CR0 and CR4 that the instruction started with, so inverting their bits
there is setting them to the inverted registers of `s`. -/
theorem onStates_exec_invertEmFxsr (em fxsr : BitVec 1) (i : Instr) (s : State) :
    onStates (State.invertEmFxsr em fxsr) (exec i s) =
      onStates (fun t => { t with cr0 := (s.invertEmFxsr em fxsr).cr0, cr4 := (s.invertEmFxsr em fxsr).cr4 })
        (exec i s) := by
  refine onStates_congr (fun t h => ?_) fun x t h => ?_
  · obtain ⟨-, -, -, r, f, -, rfl⟩ := exec_next h
    rfl
  · obtain ⟨u, hu, rfl⟩ := exec_exception h
    obtain ⟨h0, h4⟩ := hu.controlRegs
    simp only [State.invertEmFxsr, Exception.record_cr0, Exception.record_cr4, h0, h4]

/-- Settles O33: a form that is not enabled stops before its operands, and the bits in question are in no enable
condition, in no check of an operand and not in the scope. -/
theorem featureUd : Obligations.FeatureUd := by
  refine ⟨fun ord o s hs h => ?_, fun ord o s hs h => ?_, fun ord o s b => ?_, fun i s em fxsr => ?_⟩
  · exact exec_of_not_enabled hs (by rw [kindOf_vex, s.enabled_vex_eq_false_iff.mpr h])
  · exact exec_of_not_enabled hs (by rw [kindOf_evex, s.enabled_evex_eq_false_iff.mpr h])
  · intro x
    rw [exec_vex, exec_vex]
    exact execVex_withXcr0 (extractLsb'_xor_field s.xcr0 b (by decide)) ord o
  · exact (exec_invertEmFxsr em fxsr s i).trans (onStates_exec_invertEmFxsr em fxsr i s)

end Sys2Proof.Machine

/-! The proof of the family 70_reset_and_hazards: what the launch establishes and what it keeps. -/

/-! ## The launch (R243, R244) -/

namespace Sys2Proof.Machine

theorem State.launch_canonical_pc (s : State) : s.launch.canonical s.launch.pc = true := by
  obtain ⟨-, hcanonical⟩ := s.launch.textRoom_iff.mp s.launch_textRoom
  simpa using hcanonical 0 (by decide)

/-- R205: the launch sets the XCR0 bits of both kinds of form. -/
theorem State.launch_xcr0Enables (s : State) (k : EncKind) : s.launch.xcr0Enables k = true := by
  have h21 : s.launch.xcr0.extractLsb' 1 2 = 3#2 := by
    show (s.xcr0 ||| 0xE7#64).extractLsb' 1 2 = 3#2
    rw [BitVec.extractLsb'_or]
    exact BitVec.or_allOnes
  have h75 : s.launch.xcr0.extractLsb' 5 3 = 7#3 := by
    show (s.xcr0 ||| 0xE7#64).extractLsb' 5 3 = 7#3
    rw [BitVec.extractLsb'_or]
    exact BitVec.or_allOnes
  cases k with
  | vex => simp only [State.xcr0Enables, h21, beq_self_eq_true]
  | evex => simp only [State.xcr0Enables, h21, h75, beq_self_eq_true, Bool.and_self]

/-- R205: once launched, a form is enabled when its feature is there. -/
theorem State.launch_enabled (s : State) (k : EncKind) : s.launch.enabled k = s.hasFeature k := by
  have hfeature : s.launch.hasFeature k = s.hasFeature k := by cases k <;> rfl
  have hosxsave : s.launch.cr4.getLsbD 18 = true := by simp [State.launch]
  simp only [State.enabled, hfeature, hosxsave, s.launch_xcr0Enables k, Bool.and_true]

/-- R206: the launch clears CR0.TS. -/
theorem State.launch_cr0_ts (s : State) : s.launch.cr0.getLsbD 3 = false := by
  simp [State.launch]

theorem State.launch_ready {s : State} {k : EncKind} (h : s.hasFeature k = true) : s.launch.Ready k where
  scope := s.launch_scopeRefusal
  enabled := (s.launch_enabled k).trans h
  available := s.launch_cr0_ts

theorem State.launch_mxcsr_low (s : State) : s.launch.mxcsr.extractLsb' 0 16 = s.mxcsr.extractLsb' 0 16 := by
  show (s.mxcsr &&& 0xFFFF#32).extractLsb' 0 16 = s.mxcsr.extractLsb' 0 16
  rw [BitVec.extractLsb'_and]
  exact BitVec.and_allOnes

/-- Settles O4: each premise and each enable is a bit the launch sets or clears, and of what is kept it writes only
MXCSR, whose low half it leaves. -/
theorem launchMeetsPremises : Obligations.LaunchMeetsPremises := by
  intro s
  have hxcr0 : s.launch.xcr0.getLsbD 0 = true := by simp [State.launch]
  have hosxmmexcpt : s.launch.cr4.getLsbD 10 = true := by simp [State.launch]
  exact ⟨s.launch_longMode, s.launch_debugArmed, s.launch_mxcsrReserved, s.launch_canonical_pc, hxcr0,
    fun _ => State.launch_ready, hosxmmexcpt, rfl, rfl, rfl, rfl, s.launch_mxcsr_low⟩

end Sys2Proof.Machine
